-- ==== Sys2Proof/Word.lean ====
section
/-! DEFINITION. The bus word and byte of the core, and the constants that are plain bit patterns
(spec/00_scope.md R10, R11). A binary32 value is held as the word that carries its bits; its
arithmetic is in Machine/Float.lean. -/

namespace Sys2Proof

/-- A register or bus word (R10): 32 bits, bit 31 the most significant. -/
abbrev Word := BitVec 32

/-- One byte lane of a bus word (R66). -/
abbrev Byte := BitVec 8

/-- A byte offset inside the core's window of 2^20 bytes (R60). -/
abbrev Offset := BitVec 20

end Sys2Proof
end

