-- ==== Sys2Proof/Machine/Float.lean ====
section
/-! DEFINITION. IEEE 754 binary32 on 32-bit words: the primitives of spec/00_scope.md R11 and R12.

Every finite binary32 value is a whole number of units of 2^-149, so a value is held exactly as an
integer count of units; a sum, a product or a quotient is first formed exactly as a ratio of natural
numbers of units and then rounded ONCE, to nearest with ties to even (R11, `RNE`). No operation is
fused and no exception flag exists (R11, R12). -/

namespace Sys2Proof.F32

/-- Bit 31, the sign (R11). -/
def sign (w : Word) : Bool := w.msb

/-- Bits 30:0, exponent and fraction together: the magnitude's bit pattern (R11). -/
def mag (w : Word) : Nat := w.toNat % 2 ^ 31

/-- The magnitude pattern of infinity: exponent 255, fraction 0 (R11). -/
def infMag : Nat := 0x7F800000

def isNaN (w : Word) : Bool := infMag < mag w

def isInf (w : Word) : Bool := mag w = infMag

/-- Neither infinite nor NaN (R12). -/
def isFinite (w : Word) : Bool := mag w < infMag

def isZero (w : Word) : Bool := mag w = 0

/-- Nonzero and smaller in magnitude than 2^-126 (R12). -/
def isSubnormal (w : Word) : Bool := 0 < mag w && mag w < 0x00800000

/-- The magnitude of a finite value with magnitude pattern `m`, in units of 2^-149: a subnormal is
its fraction, a normal its 24-bit significand scaled by its exponent (R11). -/
def magUnits (m : Nat) : Nat :=
  if m / 2 ^ 23 = 0 then m else (2 ^ 23 + m % 2 ^ 23) * 2 ^ (m / 2 ^ 23 - 1)

/-- The magnitude of the finite value `w` in units of 2^-149. -/
def units (w : Word) : Nat := magUnits (mag w)

/-- The finite value `w` as a signed count of units of 2^-149. -/
def val (w : Word) : Int := if sign w then -(units w : Int) else (units w : Int)

/-- The word with sign `neg` and magnitude pattern `m`. -/
def pack (neg : Bool) (m : Nat) : Word := BitVec.ofNat 32 (if neg then 2 ^ 31 + m else m)

/-- The whole number nearest to `n / d`, a tie going to the even one (R11). -/
def roundNearest (n d : Nat) : Nat :=
  let q := n / d
  let r := n % d
  if d < 2 * r ∨ (2 * r = d ∧ q % 2 = 1) then q + 1 else q

/-- How many low bits of a magnitude of `n / d` units fall below its 24-bit significand. -/
def roundShift (n d : Nat) : Nat := (n / d).log2 - 23

/-- The magnitude pattern of the binary32 value nearest to `n / d` units of 2^-149, ties to even,
overflowing to infinity (R11). The significand and the exponent add as one number, so a significand
that rounds up to 2^24 carries into the exponent. -/
def roundMag (n d : Nat) : Nat :=
  min (roundShift n d * 2 ^ 23 + roundNearest n (d * 2 ^ roundShift n d)) infMag

/-- `RNE` of the real value of sign `neg` and magnitude `n / d` units of 2^-149 (R11). -/
def rne (neg : Bool) (n d : Nat) : Word := pack neg (roundMag n d)

/-- `-v` flips the sign bit and is exact (R12). -/
def neg (w : Word) : Word := w ^^^ 0x80000000#32

/-- The order of binary32 values that are not NaN: magnitude patterns rise with the magnitude, and
+0 and -0 have the same key (R12). -/
def key (w : Word) : Int := if sign w then -(mag w : Int) else (mag w : Int)

/-- IEEE `a < b`: false when an operand is NaN (R12). -/
def lt (a b : Word) : Bool := !isNaN a && !isNaN b && decide (key a < key b)

/-- IEEE `a <= b`: false when an operand is NaN (R12). -/
def le (a b : Word) : Bool := !isNaN a && !isNaN b && decide (key a ≤ key b)

/-- `min(a, b)`: a if a <= b, else b (R12). -/
def minimum (a b : Word) : Word := if le a b then a else b

/-- `RNE(a + b)` (R12); `nan` is NAN_VALUE. An exact zero sum of unlike signs is +0. -/
def add (nan a b : Word) : Word :=
  if isNaN a || isNaN b then nan
  else if isInf a then (if isInf b && (sign a != sign b) then nan else a)
  else if isInf b then b
  else if val a + val b = 0 then pack (sign a && sign b) 0
  else rne (decide (val a + val b < 0)) (val a + val b).natAbs 1

/-- `RNE(a - b)` (R12): the sum of `a` and `-b`. -/
def sub (nan a b : Word) : Word := add nan a (neg b)

/-- `RNE(a * b)` (R12); infinity times zero is NaN. -/
def mul (nan a b : Word) : Word :=
  if isNaN a || isNaN b then nan
  else if isInf a || isInf b then
    (if isZero a || isZero b then nan else pack (sign a != sign b) infMag)
  else rne (sign a != sign b) (units a * units b) (2 ^ 149)

/-- `RNE(a / b)` (R12); 0/0 and infinity/infinity are NaN, a nonzero value over zero is infinite. -/
def div (nan a b : Word) : Word :=
  if isNaN a || isNaN b then nan
  else if isInf a then (if isInf b then nan else pack (sign a != sign b) infMag)
  else if isInf b then pack (sign a != sign b) 0
  else if isZero b then (if isZero a then nan else pack (sign a != sign b) infMag)
  else rne (sign a != sign b) (units a * 2 ^ 149) (units b)

/-- Where R12 defines `fmod(a, b)`: finite `a >= 0` and finite `b > 0`. -/
def fmodDefined (a b : Word) : Bool :=
  isFinite a && le 0#32 a && isFinite b && lt 0#32 b

/-- `fmod(a, b)`: the exact remainder `a - n*b`, n = trunc(a / b) (R12), with the sign of the dividend
(93_implementation_defined.md G2). Outside the operands R12 defines it for, the result is `free`,
a value the caller supplies from the model's free values. -/
def fmod (free a b : Word) : Word :=
  if fmodDefined a b then rne (sign a) (units a % units b) 1 else free

/-- The binary32 constants the rules write as decimal literals with a point (R11, exact). -/
def zero : Word := 0x00000000#32
def one : Word := 0x3F800000#32
def two : Word := 0x40000000#32
def three : Word := 0x40400000#32
def ten : Word := 0x41200000#32
def sixteen : Word := 0x41800000#32
def oneThousand : Word := 0x447A0000#32
def twoThousand : Word := 0x44FA0000#32
def twentyThousand : Word := 0x469C4000#32

/-- `lo <= v and v <= hi`, the range check of R121, R122 and R169: false for NaN. -/
def inRange (lo hi v : Word) : Bool := le lo v && le v hi

end Sys2Proof.F32
end

