-- ==== Sys2Proof/Config.lean ====
section
/-! DEFINITION. What one hardware instance fixes (spec/00_scope.md R8) and the free values (R12, R13,
R19): the record `Params` of the parameters a run is made with, the OPAQUE constants that stand for
what the spec leaves open, and the default parameters of R8. Every opaque constant has no body:
nothing in Lean can evaluate it or prove a value of it. -/

namespace Sys2Proof

/-- The waveform of the main or the sub oscillator (R8: MAIN_KIND and SUB_KIND are in {SAW, SQR}). -/
inductive Periodic where
  | saw
  | sqr
deriving DecidableEq, Repr

/-- The kind of an oscillator record (R21). -/
inductive OscKind where
  | saw
  | sqr
  | noise
deriving DecidableEq, Repr

/-- A periodic waveform as an oscillator kind. -/
def Periodic.toKind : Periodic → OscKind
  | .saw => .saw
  | .sqr => .sqr

/-- The type of a FilterStage (R25). -/
inductive FilterKind where
  | lowpass
  | highpass
deriving DecidableEq, Repr

/-- FILTER_RATE_MODE (R8, R164). -/
inductive FilterRateMode where
  | base
  | oversampled
deriving DecidableEq, Repr

/-- RESET_POLICY (R8, R191; 90_conflicts.md C2). -/
inductive ResetPolicy where
  | perBlock
  | perPair
deriving DecidableEq, Repr

/-- COEFF_FN (R8, R165): the reference design, or another instance's function, known only by a number
that names it. -/
inductive CoeffSel where
  | reference
  | other (id : Nat)
deriving DecidableEq, Repr

/-- What COEFF_FN returns: the coefficients of one first-order stage (R165, R166). -/
structure Coeffs where
  b0 : Word
  b1 : Word
  a1 : Word
deriving DecidableEq, Repr, Inhabited

/-- The parameters of one hardware instance (R8). No command changes them. NOISE_SRC is the opaque
`Config.noiseDraw`; COEFF_FN is named by `coeff`. -/
structure Params where
  rampStep        : Word
  rampEps         : Word
  mainKind        : Periodic
  subKind         : Periodic
  lpCutoffDefault : Word
  hpCutoff        : Word
  coeff           : CoeffSel
  filterRate      : FilterRateMode
  resetPolicy     : ResetPolicy
  nMax            : Word
  cMax            : Word
  cmdqDepth       : Word
  nanValue        : Word
deriving DecidableEq, Repr

namespace Config

/-- NOISE_SRC (R8, R131): the n-th value the noise source offers; no law relates one to another. -/
opaque noiseDraw : Nat → Word

/-- The value of a class B register or an OUTBUF word read while BUSY = 1 (R285): any 32-bit word. -/
opaque busDraw : Nat → Word

/-- The result of `fmod` outside the operands R12 defines it for (an infinite time cursor): any word. -/
opaque fmodDraw : Nat → Word

/-- COEFF_FN of an instance whose function is not the reference design, by the number that names it
(R165): it depends on the type, the design rate and the cutoff and on nothing else. -/
opaque coeffOther : Nat → FilterKind → Word → Word → Coeffs

/-- The coefficients the reference instance produces where the reference design is not defined
(R170, D38: implementation-defined, unconstrained values of COEFF_FN). -/
opaque coeffOutside : FilterKind → Word → Word → Coeffs

/-- The OPEN values of R8 before they are confined to their legal range. -/
opaque rampStepRaw : Word
opaque rampEpsRaw : Word
opaque nanRaw : Word

/-- RAMP_STEP: some binary32 value with 0 < RAMP_STEP <= 1 (R8); every legal value is possible. -/
def rampStep : Word :=
  if F32.lt F32.zero rampStepRaw && F32.le rampStepRaw F32.one then rampStepRaw else F32.one

/-- RAMP_EPS: some binary32 value with 0 <= RAMP_EPS < RAMP_STEP (R8); every legal value is possible. -/
def rampEps : Word :=
  if F32.le F32.zero rampEpsRaw && F32.lt rampEpsRaw rampStep then rampEpsRaw else F32.zero

/-- NAN_VALUE: some NaN (R8, R12); every NaN is possible. -/
def nanValue : Word := if F32.isNaN nanRaw then nanRaw else 0x7FC00000#32

/-- The default instance of R8: its defaults where it gives one, an OPEN value where it gives none. -/
def defaultParams : Params where
  rampStep        := rampStep
  rampEps         := rampEps
  mainKind        := .saw
  subKind         := .sqr
  lpCutoffDefault := F32.oneThousand
  hpCutoff        := 0x42C80000#32
  coeff           := .reference
  filterRate      := .base
  resetPolicy     := .perBlock
  nMax            := 1024#32
  cMax            := 2#32
  cmdqDepth       := 16#32
  nanValue        := nanValue

end Config

end Sys2Proof
end

