-- ==== Sys2Proof/Syntax.lean ====
section
/-! DEFINITION. The syntax of the core: the commands (spec/30_encoding.md R92, one constructor per row of
the opcode table), the queue entry that carries one (R34, R90), the host's bus accesses
(spec/20_memory.md R62, R64) and the lines of the assembler (R98 to R100). -/

namespace Sys2Proof

/-- An oscillator selector that the SEL field admits (R90): 0 MAIN, 1 SUB, 2 NOISE. -/
inductive OscId where
  | main
  | sub
  | noise
deriving DecidableEq, Repr

/-- The commands of R92 with the operand words each one has. An operand marked binary32 or u32 is held as
its word (R93); an operand the command ignores is a field only where the source's call names it. -/
inductive Instr where
  /-- NOP (R221). -/
  | nop
  /-- PREPARE: sampleRate binary32, blockSizeHint u32 (R220). -/
  | prepare (fs hint : Word)
  /-- NOTEON: frequency binary32, velocity u32 (R222). -/
  | noteon (freq velocity : Word)
  /-- NOTEOFF: MIDI note number u32, velocity u32 (R223). -/
  | noteoff (note velocity : Word)
  /-- SETLEVEL: oscillator, level binary32 (R132). -/
  | setlevel (osc : OscId) (level : Word)
  /-- SETFREQ: oscillator, frequency binary32 (R133). -/
  | setfreq (osc : OscId) (freq : Word)
  /-- SETCUTOFF: cutoff binary32 (R169). -/
  | setcutoff (hz : Word)
  /-- RENDER: sampleCount u32, channelCount u32 (R226). -/
  | render (n c : Word)
  /-- SETMODE: a word whose bit 0 is the gate (R225). -/
  | setmode (gate : Word)
deriving DecidableEq, Repr

/-- One entry of the command queue (R34): the word written to CMD and the operands captured with it. -/
structure CmdEntry where
  cmd  : Word
  arg0 : Word
  arg1 : Word
deriving DecidableEq, Repr

/-- Who moves in a step: one of the two agents of R17, or the reset input, which is neither's (R280). -/
inductive Agent where
  | host
  | engine
  | resetInput
deriving DecidableEq, Repr

/-- One thing the host does to the core. `bytes` is the width of an access;
the core moves 32 bits and no other width (R62, R64). -/
inductive HostOp where
  /-- A bus write of `data` at `off` (R62). -/
  | write (bytes : Nat) (off : Offset) (data : Word)
  /-- A bus read at `off` (R62). -/
  | read (bytes : Nat) (off : Offset)
  /-- The pseudo-command `sync` (R100): read STATUS again until BUSY is 0. -/
  | sync
deriving DecidableEq, Repr

/-- An f32 operand as the assembler writes it (R98): a decimal literal, `digits * 10^-scale` with a sign, or
an exact bit pattern. -/
inductive F32Lit where
  | decimal (neg : Bool) (digits scale : Nat)
  | pattern (w : Word)
deriving DecidableEq, Repr

/-- One line of a program (R98, R100). -/
inductive AsmLine where
  | nop
  | prepare (fs : F32Lit) (hint : Word)
  | noteon (freq : F32Lit) (velocity : Word)
  | noteoff (note velocity : Word)
  | setlevel (osc : OscId) (level : F32Lit)
  | setfreq (osc : OscId) (freq : F32Lit)
  | setcutoff (hz : F32Lit)
  | render (n c : Word)
  | setmode (gate : Word)
  | wr (off : Offset) (w : Word)
  | rd (off : Offset)
  | sync
  | mute (osc : OscId)
  | gate
  | always
  | note (freq : F32Lit)
  | release
  | readout (n c : Nat)
deriving DecidableEq, Repr

end Sys2Proof
end

