-- ==== Sys2Proof/WellFormed.lean ====
section
/-! DEFINITION. What makes a command word legal (spec/30_encoding.md R90, R95, R96) and an instance's
parameters legal (spec/00_scope.md R8). Each check is a Bool of its own. -/

namespace Sys2Proof

namespace CmdWord

/-- The OPCODE field, w[7:0] (R90). -/
def opcode (w : Word) : BitVec 8 := w.extractLsb' 0 8

/-- The SEL field, w[9:8] (R90). -/
def sel (w : Word) : BitVec 2 := w.extractLsb' 8 2

/-- The RSVD field, w[31:10] (R90). -/
def rsvd (w : Word) : BitVec 22 := w.extractLsb' 10 22

/-- RSVD must be zero (R90). -/
def rsvdZero (w : Word) : Bool := rsvd w = 0#22

/-- The opcode is one of 0x00 to 0x08 (R92). -/
def opcodeAssigned (w : Word) : Bool := (opcode w).toNat ≤ 8

/-- The opcode takes an oscillator selector: SETLEVEL or SETFREQ (R90, R95). -/
def takesSel (w : Word) : Bool := opcode w = 0x04#8 || opcode w = 0x05#8

/-- SEL is 0 to 2 where the opcode takes a selector, and 0 elsewhere (R90, R95). -/
def selAdmitted (w : Word) : Bool := if takesSel w then sel w != 3#2 else sel w = 0#2

/-- The word is not one of the illegal command words of R96. -/
def legal (w : Word) : Bool := rsvdZero w && opcodeAssigned w && selAdmitted w

end CmdWord

/-- Whether an instruction of the syntax is well formed. The types admit no other: the selector is one of
the three R90 admits, and every operand word is legal, since R94 leaves an operand's validity to the
command's own rule and never to the decoder. -/
def Instr.wellFormed : Instr → Bool
  | .nop => true
  | .prepare _ _ => true
  | .noteon _ _ => true
  | .noteoff _ _ => true
  | .setlevel _ _ => true
  | .setfreq _ _ => true
  | .setcutoff _ => true
  | .render _ _ => true
  | .setmode _ => true

namespace Params

/-- 0 < RAMP_STEP <= 1 (R8). -/
def rampStepLegal (p : Params) : Bool := F32.lt F32.zero p.rampStep && F32.le p.rampStep F32.one

/-- 0 <= RAMP_EPS < RAMP_STEP (R8). -/
def rampEpsLegal (p : Params) : Bool := F32.le F32.zero p.rampEps && F32.lt p.rampEps p.rampStep

/-- LP_CUTOFF_DEFAULT is in [1000, 2000] Hz (R8). -/
def lpCutoffLegal (p : Params) : Bool :=
  F32.inRange F32.oneThousand F32.twoThousand p.lpCutoffDefault

/-- HP_CUTOFF > 0 Hz (R8). -/
def hpCutoffLegal (p : Params) : Bool := F32.lt F32.zero p.hpCutoff

/-- N_MAX, C_MAX and CMDQ_DEPTH are at least 1 (R8). -/
def countsPositive (p : Params) : Bool :=
  p.nMax.toNat ≥ 1 && p.cMax.toNat ≥ 1 && p.cmdqDepth.toNat ≥ 1

/-- N_MAX * C_MAX <= 0x20000, so that OUTBUF fits its window (R8, R63). -/
def outbufFits (p : Params) : Bool := p.nMax.toNat * p.cMax.toNat ≤ 0x20000

/-- NAN_VALUE is a NaN (R8, R12). -/
def nanLegal (p : Params) : Bool := F32.isNaN p.nanValue

/-- The parameters are legal values of R8. -/
def legal (p : Params) : Bool :=
  p.rampStepLegal && p.rampEpsLegal && p.lpCutoffLegal && p.hpCutoffLegal && p.countsPositive &&
    p.outbufFits && p.nanLegal

end Params

end Sys2Proof
end

