-- ==== Sys2Proof/Decode.lean ====
section
/-! DEFINITION. The decoder of spec/30_encoding.md R95, total on every 32-bit word and rejecting an illegal
word by name (R96), and after it the encoder, written from R90 and R92. -/

namespace Sys2Proof

/-- Why a command word is ILLEGAL (R95, R96): the three groups of R96. -/
inductive DecodeError where
  /-- w[31:10] != 0. -/
  | reservedBits
  /-- The opcode is 0x09 to 0xFF. -/
  | reservedOpcode
  /-- A SEL value the opcode does not admit. -/
  | badSelector
deriving DecidableEq, Repr

/-- The oscillator a selector names, where one does (R90). -/
def decodeSel (s : BitVec 2) : Except DecodeError OscId :=
  if s = 0#2 then .ok .main
  else if s = 1#2 then .ok .sub
  else if s = 2#2 then .ok .noise
  else .error .badSelector

/-- `i` where SEL is 0, as every opcode but SETLEVEL and SETFREQ needs it (R90, R95). -/
def decodePlain (s : BitVec 2) (i : Instr) : Except DecodeError Instr :=
  if s = 0#2 then .ok i else .error .badSelector

/-- The command an opcode selects, with its operand words (R92, R93). -/
def decodeOpcode (op : BitVec 8) (s : BitVec 2) (a0 a1 : Word) : Except DecodeError Instr :=
  if op = 0x00#8 then decodePlain s .nop
  else if op = 0x01#8 then decodePlain s (.prepare a0 a1)
  else if op = 0x02#8 then decodePlain s (.noteon a0 a1)
  else if op = 0x03#8 then decodePlain s (.noteoff a0 a1)
  else if op = 0x04#8 then (decodeSel s).map (fun k => .setlevel k a0)
  else if op = 0x05#8 then (decodeSel s).map (fun k => .setfreq k a0)
  else if op = 0x06#8 then decodePlain s (.setcutoff a0)
  else if op = 0x07#8 then decodePlain s (.render a0 a1)
  else if op = 0x08#8 then decodePlain s (.setmode a0)
  else .error .reservedOpcode

/-- The decode function of R95 on one queue entry. -/
def decode (e : CmdEntry) : Except DecodeError Instr :=
  if CmdWord.rsvdZero e.cmd then
    decodeOpcode (CmdWord.opcode e.cmd) (CmdWord.sel e.cmd) e.arg0 e.arg1
  else .error .reservedBits

/-- An instruction's bits as the table numbers them: the command word is bits 31..0, ARG0 bits 63..32 and
ARG1 bits 95..64. -/
def tableEntry (nbits w : Nat) : CmdEntry :=
  let v := w % 2 ^ nbits
  ⟨BitVec.ofNat 32 v, BitVec.ofNat 32 (v / 2 ^ 32), BitVec.ofNat 32 (v / 2 ^ 64)⟩

/-- The instruction the decoder reads from a table word, none where it refuses it. -/
def decodeTableWord (nbits w : Nat) : Option Instr := (decode (tableEntry nbits w)).toOption

/-- The SEL value of an oscillator (R90). -/
def encodeSel : OscId → BitVec 2
  | .main => 0#2
  | .sub => 1#2
  | .noise => 2#2

/-- A command word from its fields (R90): RSVD zero, then SEL, then OPCODE. -/
def cmdWord (s : BitVec 2) (op : BitVec 8) : Word := 0#22 ++ s ++ op

/-- The queue entry of an instruction (R90, R92); an operand word a command ignores and does not name is
zero. -/
def encode : Instr → CmdEntry
  | .nop => ⟨cmdWord 0#2 0x00#8, 0#32, 0#32⟩
  | .prepare fs hint => ⟨cmdWord 0#2 0x01#8, fs, hint⟩
  | .noteon freq velocity => ⟨cmdWord 0#2 0x02#8, freq, velocity⟩
  | .noteoff note velocity => ⟨cmdWord 0#2 0x03#8, note, velocity⟩
  | .setlevel k level => ⟨cmdWord (encodeSel k) 0x04#8, level, 0#32⟩
  | .setfreq k freq => ⟨cmdWord (encodeSel k) 0x05#8, freq, 0#32⟩
  | .setcutoff hz => ⟨cmdWord 0#2 0x06#8, hz, 0#32⟩
  | .render n c => ⟨cmdWord 0#2 0x07#8, n, c⟩
  | .setmode gate => ⟨cmdWord 0#2 0x08#8, gate, 0#32⟩

end Sys2Proof
end

