-- ==== Sys2Proof/Machine/State.lean ====
section
/-! DEFINITION. The state of the core (spec/10_state.md R20 to R37, R50), the reasons a step can stop, and
the machine right after reset (R50, R280). Plain data throughout. -/

namespace Sys2Proof.Machine

/-- One oscillator record `osc[k]` (R20 to R24). -/
structure Osc where
  /-- Fixed at construction (R21). -/
  kind    : OscKind
  /-- Frequency in Hz, binary32 (R22). -/
  freq    : Word
  /-- targetLevel, binary32 (R23). -/
  target  : Word
  /-- currentLevel, binary32 (R24). -/
  current : Word
deriving DecidableEq, Repr

/-- The three oscillator records `osc[MAIN]`, `osc[SUB]`, `osc[NOISE]` (R20). -/
structure Bank where
  main  : Osc
  sub   : Osc
  noise : Osc
deriving DecidableEq, Repr

/-- One FilterStage record (R25): cutoff, coefficients, prior input x1 and prior output y1, all binary32.
Its type is fixed by which record it is. -/
structure Stage where
  cutoff : Word
  b0     : Word
  b1     : Word
  a1     : Word
  x1     : Word
  y1     : Word
deriving DecidableEq, Repr

/-- The two FilterStage records, LP (LOWPASS) and HP (HIGHPASS) (R25). -/
structure Chain where
  lp : Stage
  hp : Stage
deriving DecidableEq, Repr

/-- The bytes of OUTBUF by their offset in the window (R35, R63, R66): addresses strictly rising, and no
byte equal to 0, which is what an unlisted byte reads as, since every word resets to +0.0 (R35). -/
abbrev Memory := List Host.Cell

/-- The whole state. The first fields are the spec's own. The last five are the model's: the parameters of
the instance, which the spec passes to the model as arguments (R8, R19); the counter of the free values;
and the outside of the bus, which is the host's program order (R70) and whose turn it is (R17). -/
structure State where
  /-- The oscillator records (R20). -/
  bank      : Bank
  /-- The filter records (R25). -/
  chain     : Chain
  /-- `S.active`: 1 Active, 0 Idle (R29). -/
  active    : Bool
  /-- `S.noteFreq` (R30). -/
  noteFreq  : Word
  /-- `S.gate`: 1 gate on active flag, 0 always render (R31). -/
  gate      : Bool
  /-- `S.fs`, the sample rate in Hz, binary32 (R32). -/
  fs        : Word
  /-- `S.hint`, the blockSizeHint, u32 (R32). -/
  hint      : Word
  /-- `S.prepared` (R32). -/
  prepared  : Bool
  /-- `S.arg0`, the first operand staging register (R33). -/
  arg0      : Word
  /-- `S.arg1`, the second operand staging register (R33). -/
  arg1      : Word
  /-- `S.queue`, oldest entry first (R34). -/
  queue     : List CmdEntry
  /-- `S.executing`: 0 between steps, since a command is one atomic step (R34). -/
  executing : Bool
  /-- `S.out[c][i]`, held as the bytes of OUTBUF (R35, R63). -/
  outbuf    : Memory
  /-- The model's own: the parameters of R8, which no step changes. -/
  par       : Params
  /-- The model's own: how many free values have been used. -/
  freeIdx   : Nat
  /-- The model's own: what the host will do next, in its program order (R70). -/
  pending   : List HostOp
  /-- The model's own: who moves in the coming steps (R17, R280); see `mover` for the rest. -/
  turns     : List Agent
  /-- The model's own: the data the host's last read returned. -/
  rdata     : Word
deriving DecidableEq, Repr

/-- Why a step stops with a fault: never. The core raises no exception and signals no bus error (R260,
R64), and 93_implementation_defined.md treats no behaviour as a fault, so this closed type has no
constructor; nothing raises it, which is safe. -/
inductive Fault where
deriving DecidableEq, Repr

/-- Why an instruction is refused. -/
inductive Refusal where
  /-- Raised by an arm of `exec` whose instruction has no meaning yet; safe. No arm raises it now. -/
  | notModelled (mnemonic : String)
deriving DecidableEq, Repr

/-- A stage at reset: its cutoff, and +0.0 elsewhere (R27, R28). -/
def Stage.reset (cutoff : Word) : Stage := ⟨cutoff, F32.zero, F32.zero, F32.zero, F32.zero, F32.zero⟩

/-- The oscillator records at reset (R50): 440.0, 220.0 and 440.0 Hz, levels +0.0. -/
def Bank.reset (p : Params) : Bank where
  main  := ⟨p.mainKind.toKind, 0x43DC0000#32, F32.zero, F32.zero⟩
  sub   := ⟨p.subKind.toKind, 0x435C0000#32, F32.zero, F32.zero⟩
  noise := ⟨.noise, 0x43DC0000#32, F32.zero, F32.zero⟩

/-- The state after reset of the instance with parameters `p` (R50, R280). -/
def State.resetOf (p : Params) : State where
  bank      := Bank.reset p
  chain     := ⟨Stage.reset p.lpCutoffDefault, Stage.reset p.hpCutoff⟩
  active    := false
  noteFreq  := F32.zero
  gate      := true
  fs        := F32.zero
  hint      := 0#32
  prepared  := false
  arg0      := 0#32
  arg1      := 0#32
  queue     := []
  executing := false
  outbuf    := []
  par       := p
  freeIdx   := 0
  pending   := []
  turns     := []
  rdata     := 0#32

/-- The machine right after reset: R50 for the default instance of R8. -/
def State.reset : State := State.resetOf Config.defaultParams

end Sys2Proof.Machine
end

