-- ==== Sys2Proof/Machine/Ops.lean ====
section
/-! DEFINITION. The shared operations over the state: OUTBUF memory (spec/20_memory.md R61 to R66), the
command queue (R17, R68), reset (spec/70_reset_and_hazards.md R280), and the two ways a command ends that
changes nothing. The core takes no exception and returns from none (spec/60_exceptions.md R260, R264): what
a processor would trap on is a silent rejection (R261), which is `reject` below. -/

namespace Sys2Proof.Machine

/-! ### OUTBUF as bytes -/

namespace Memory

/-- What an unlisted byte reads as: every OUTBUF word resets to +0.0 (R35). -/
def unlisted : Byte := 0#8

/-- Addresses are strictly rising from `lo` on and no entry holds the unlisted byte. -/
def risingFrom (lo : Nat) : Memory → Bool
  | [] => true
  | (a, b) :: rest => decide (lo ≤ a) && b != unlisted && risingFrom (a + 1) rest

/-- The canonical form, in which equal memories are equal lists. -/
def wf (m : Memory) : Bool := risingFrom 0 m

/-- The byte at an address. -/
def readByte : Memory → Nat → Byte
  | [], _ => unlisted
  | (x, b) :: rest, a => if x = a then b else readByte rest a

/-- `v` put in front of the later cells, unless it is what an unlisted address reads as. -/
def putCell (a : Nat) (v : Byte) (rest : Memory) : Memory :=
  if v = unlisted then rest else (a, v) :: rest

/-- The memory with the byte at an address replaced, in canonical form. -/
def writeByte (m : Memory) (a : Nat) (v : Byte) : Memory :=
  match m with
  | [] => putCell a v []
  | (x, b) :: rest =>
    if a < x then putCell a v ((x, b) :: rest)
    else if a = x then putCell a v rest
    else (x, b) :: writeByte rest a v

/-- The bus word at a byte offset: lane j carries bits 8j+7 : 8j (R66). -/
def readWord (m : Memory) (a : Nat) : Word :=
  readByte m (a + 3) ++ readByte m (a + 2) ++ readByte m (a + 1) ++ readByte m a

/-- The memory with the bus word at a byte offset replaced, lane by lane (R66). -/
def writeWord (m : Memory) (a : Nat) (w : Word) : Memory :=
  writeByte (writeByte (writeByte (writeByte m a (w.extractLsb' 0 8)) (a + 1) (w.extractLsb' 8 8))
    (a + 2) (w.extractLsb' 16 8)) (a + 3) (w.extractLsb' 24 8)

end Memory

/-- The first offset of OUTBUF (R61). -/
def outbufBase : Nat := 0x80000

/-- The offset of sample `i` of channel `c` (R63). -/
def outAddr (nMax c i : Nat) : Nat := outbufBase + 4 * (c * nMax + i)

/-- The first offset past OUTBUF (R61). -/
def outbufEnd (p : Params) : Nat := outbufBase + 4 * (p.cMax.toNat * p.nMax.toNat)

/-- `S.out[c][i]` (R35). -/
def State.out (s : State) (c i : Nat) : Word := Memory.readWord s.outbuf (outAddr s.par.nMax.toNat c i)

/-- One channel's samples written from offset `a` on (R234). -/
def writeRow (m : Memory) (a : Nat) : List Word → Memory
  | [] => m
  | y :: ys => writeRow (Memory.writeWord m a y) (a + 4) ys

/-- The samples `ys` written to the first `c` channels, channel 0 first (R234). -/
def writeChannels (nMax : Nat) (m : Memory) (ys : List Word) : Nat → Memory
  | 0 => m
  | c + 1 => writeRow (writeChannels nMax m ys c) (outAddr nMax c 0) ys

/-- `zeroFill(N, C)` (R226): +0.0 in the first `n` samples of the first `c` channels. -/
def zeroFill (nMax : Nat) (m : Memory) (n c : Nat) : Memory :=
  writeChannels nMax m (List.replicate n F32.zero) c

/-! ### The oscillator a selector names (R13) -/

/-- `osc[k]`. -/
def Bank.get (b : Bank) : OscId → Osc
  | .main => b.main
  | .sub => b.sub
  | .noise => b.noise

/-- The records with `osc[k]` replaced. -/
def Bank.set (b : Bank) (k : OscId) (o : Osc) : Bank :=
  match k with
  | .main => { b with main := o }
  | .sub => { b with sub := o }
  | .noise => { b with noise := o }

/-! ### How a command ends without an effect -/

/-- A silent rejection (R261, R94): no state changes and nothing is signalled. -/
def reject (s : State) : Host.Outcome State Fault Refusal := .next s

/-- What an illegal command word executes as, NOP (R96, R236): no state changes. -/
def illegalAsNop (s : State) : Host.Outcome State Fault Refusal := .next s

/-! ### The command queue -/

/-- CMDQ_DEPTH as a count (R8). -/
def State.depth (s : State) : Nat := s.par.cmdqDepth.toNat

/-- Whether the queue has room for one more entry (R68). -/
def State.hasRoom (s : State) : Bool := s.queue.length < s.depth

/-- A write of `w` to CMD once there is room: the operands are captured at this write (R68). -/
def enqueue (s : State) (w : Word) : State := { s with queue := s.queue ++ [⟨w, s.arg0, s.arg1⟩] }

/-- The oldest entry and the state with it removed (R17, R34); none where the queue is empty. -/
def dequeue (s : State) : Option (CmdEntry × State) :=
  match s.queue with
  | [] => none
  | e :: rest => some (e, { s with queue := rest })

/-- The state with `e` as the queue's head in place of the present head, and the engine to move next. -/
def withHead (s : State) (e : CmdEntry) : State :=
  { s with queue := e :: s.queue.tail, turns := .engine :: s.turns }

/-! ### Whose turn it is (R17, R18) -/

/-- Who moves in this step: the one `turns` names; once `turns` is used up, the engine while a
command is queued, and the host otherwise. -/
def mover (s : State) : Agent :=
  match s.turns with
  | a :: _ => a
  | [] => if s.queue.isEmpty then .host else .engine

/-- The state with this step's turn used up. -/
def useTurn (s : State) : State := { s with turns := s.turns.tail }

/-! ### Reset -/

/-- A pulse of the reset input (R280): every piece of the core's state takes its value of R50 and the queue
is emptied. The host, the turns and the count of free values are outside the core and stay. -/
def hardReset (s : State) : State :=
  { State.resetOf s.par with
    freeIdx := s.freeIdx, pending := s.pending, turns := s.turns, rdata := s.rdata }

end Sys2Proof.Machine
end

