-- ==== Sys2Proof/Machine/Flags.lean ====
section
/-! DEFINITION. The five status values of spec/10_state.md R39 and the STATUS word of R42. -/

namespace Sys2Proof.Machine

/-- BUSY: the queue is non-empty or a command is executing (R42). -/
def State.busy (s : State) : Bool := !s.queue.isEmpty || s.executing

/-- FULL: the queue holds CMDQ_DEPTH entries (R42). -/
def State.full (s : State) : Bool := s.queue.length = s.depth

/-- One flag as the word with that flag's bit. -/
def flagBit (b : Bool) (i : Nat) : Word := BitVec.ofNat 32 (b.toNat * 2 ^ i)

/-- STATUS (R42): PREPARED bit 0, ACTIVE bit 1, GATE bit 2, BUSY bit 3, FULL bit 4, bits 31:5 zero. -/
def State.status (s : State) : Word :=
  flagBit s.prepared 0 ||| flagBit s.active 1 ||| flagBit s.gate 2 ||| flagBit s.busy 3 |||
    flagBit s.full 4

end Sys2Proof.Machine
end

