-- ==== Sys2Proof/Machine/Bus.lean ====
section
/-! DEFINITION. The register map (spec/10_state.md R40 to R49), the host's bus reads and writes
(spec/20_memory.md R61 to R70, spec/70_reset_and_hazards.md R285), and the host's step. -/

namespace Sys2Proof.Machine

/-- The readable fields of a FilterStage (R47). -/
inductive StageField where
  | b0
  | b1
  | a1
  | x1
  | y1
deriving DecidableEq, Repr

/-- The registers of the map (R41 to R48). -/
inductive Reg where
  | id
  | status
  | arg0
  | arg1
  | cmd
  | sampleRate
  | blockHint
  | noteFreq
  | lpCutoff
  | hpCutoff
  | oscKind (k : OscId)
  | oscFreq (k : OscId)
  | oscTarget (k : OscId)
  | oscCurrent (k : OscId)
  | stage (f : FilterKind) (x : StageField)
  | paramNMax
  | paramCMax
  | paramCmdqDepth
  | paramRampStep
  | paramRampEps
  | paramConfig
deriving DecidableEq, Repr

/-- The base of an oscillator's registers: 0x040 + 0x10*k (R46). -/
def oscBase : OscId → Nat
  | .main => 0x040
  | .sub => 0x050
  | .noise => 0x060

/-- The base of a stage's registers (R47). -/
def stageBase : FilterKind → Nat
  | .lowpass => 0x080
  | .highpass => 0x0A0

/-- A stage field's place in its block (R47). -/
def stageOffset : StageField → Nat
  | .b0 => 0x0
  | .b1 => 0x4
  | .a1 => 0x8
  | .x1 => 0xC
  | .y1 => 0x10

/-- The offset of a register (R41 to R48). -/
def Reg.offset : Reg → Nat
  | .id => 0x000
  | .status => 0x004
  | .arg0 => 0x010
  | .arg1 => 0x014
  | .cmd => 0x018
  | .sampleRate => 0x020
  | .blockHint => 0x024
  | .noteFreq => 0x028
  | .lpCutoff => 0x02C
  | .hpCutoff => 0x030
  | .oscKind k => oscBase k + 0x0
  | .oscFreq k => oscBase k + 0x4
  | .oscTarget k => oscBase k + 0x8
  | .oscCurrent k => oscBase k + 0xC
  | .stage f x => stageBase f + stageOffset x
  | .paramNMax => 0x0C0
  | .paramCMax => 0x0C4
  | .paramCmdqDepth => 0x0C8
  | .paramRampStep => 0x0CC
  | .paramRampEps => 0x0D0
  | .paramConfig => 0x0D4

/-- Every register, in the order of its offset's block. -/
def Reg.all : List Reg :=
  [.id, .status, .arg0, .arg1, .cmd, .sampleRate, .blockHint, .noteFreq, .lpCutoff, .hpCutoff] ++
  [OscId.main, .sub, .noise].flatMap
    (fun k => [.oscKind k, .oscFreq k, .oscTarget k, .oscCurrent k]) ++
  [FilterKind.lowpass, .highpass].flatMap
    (fun f => [.stage f .b0, .stage f .b1, .stage f .a1, .stage f .x1, .stage f .y1]) ++
  [.paramNMax, .paramCMax, .paramCmdqDepth, .paramRampStep, .paramRampEps, .paramConfig]

/-- The register at an offset; none where the offset is reserved (R49) or past the registers (R61). -/
def regAt (off : Nat) : Option Reg := Reg.all.find? (fun r => r.offset == off)

/-- Class B (R40): defined only while BUSY = 0 (R45 to R47). -/
def Reg.classB : Reg → Bool
  | .sampleRate | .blockHint | .noteFreq | .lpCutoff => true
  | .oscFreq _ | .oscTarget _ | .oscCurrent _ | .stage _ _ => true
  | .id | .status | .arg0 | .arg1 | .cmd | .hpCutoff | .oscKind _ => false
  | .paramNMax | .paramCMax | .paramCmdqDepth | .paramRampStep | .paramRampEps | .paramConfig => false

/-- The readback code of an oscillator kind (R21). -/
def kindCode : OscKind → Word
  | .saw => 0#32
  | .sqr => 1#32
  | .noise => 2#32

/-- A field of a stage (R47). -/
def Stage.field (f : Stage) : StageField → Word
  | .b0 => f.b0
  | .b1 => f.b1
  | .a1 => f.a1
  | .x1 => f.x1
  | .y1 => f.y1

/-- The stage of a type (R25). -/
def Chain.stage (ch : Chain) : FilterKind → Stage
  | .lowpass => ch.lp
  | .highpass => ch.hp

/-- PARAM_CONFIG (R48): bit 0 FILTER_RATE_MODE, bit 1 RESET_POLICY. -/
def configWord (p : Params) : Word :=
  flagBit (p.filterRate = .oversampled) 0 ||| flagBit (p.resetPolicy = .perPair) 1

/-- The field a register shows (R41 to R48); CMD reads 0 (R44). -/
def Reg.value (s : State) : Reg → Word
  | .id => 0x42474D01#32
  | .status => s.status
  | .arg0 => s.arg0
  | .arg1 => s.arg1
  | .cmd => 0#32
  | .sampleRate => s.fs
  | .blockHint => s.hint
  | .noteFreq => s.noteFreq
  | .lpCutoff => s.chain.lp.cutoff
  | .hpCutoff => s.chain.hp.cutoff
  | .oscKind k => kindCode (s.bank.get k).kind
  | .oscFreq k => (s.bank.get k).freq
  | .oscTarget k => (s.bank.get k).target
  | .oscCurrent k => (s.bank.get k).current
  | .stage f x => (s.chain.stage f).field x
  | .paramNMax => s.par.nMax
  | .paramCMax => s.par.cMax
  | .paramCmdqDepth => s.par.cmdqDepth
  | .paramRampStep => s.par.rampStep
  | .paramRampEps => s.par.rampEps
  | .paramConfig => configWord s.par

/-- An access the core acts on: 32 bits at a multiple of 4 (R62, R64). -/
def wordAccess (bytes : Nat) (off : Offset) : Bool := bytes = 4 && off.toNat % 4 = 0

/-- Whether an offset lies in OUTBUF (R61, R63). -/
def inOutbuf (p : Params) (off : Nat) : Bool := outbufBase ≤ off && off < outbufEnd p

/-- Whether a word access at an offset reads class B (R40, R63). -/
def readsClassB (p : Params) (off : Nat) : Bool :=
  match regAt off with
  | some r => r.classB
  | none => inOutbuf p off

/-- The word at a word-aligned offset: a register's field, an OUTBUF word, or 0 where it is reserved (R65). -/
def wordAt (s : State) (off : Nat) : Word :=
  match regAt off with
  | some r => r.value s
  | none => if inOutbuf s.par off then Memory.readWord s.outbuf off else 0#32

/-- A host read (R62, R64, R65, R285): the data, and the state, in which nothing has changed but the count of
free values where the data is one. -/
def busRead (s : State) (bytes : Nat) (off : Offset) : Word × State :=
  if wordAccess bytes off then
    if readsClassB s.par off.toNat && s.busy then
      (Config.busDraw s.freeIdx, { s with freeIdx := s.freeIdx + 1 })
    else (wordAt s off.toNat, s)
  else (0#32, s)

/-- A host write (R64, R65, R67, R68): none where it is held because the queue is full. -/
def busWrite (s : State) (bytes : Nat) (off : Offset) (w : Word) : Option State :=
  if wordAccess bytes off then
    match regAt off.toNat with
    | some .arg0 => some { s with arg0 := w }
    | some .arg1 => some { s with arg1 := w }
    | some .cmd => if s.hasRoom then some (enqueue s w) else none
    | _ => some s
  else some s

/-- The offset of STATUS (R42). -/
def statusOffset : Offset := 0x004#20

/-- The BUSY bit of a STATUS word (R42). -/
def busyBit (w : Word) : Bool := w.getLsbD 3

/-- The host's step: its next operation, in its own program order (R17, R70). A held write stays the next
operation (R68), and so does a `sync` that reads BUSY = 1 (R100). -/
def hostStep (s : State) : State :=
  match s.pending with
  | [] => s
  | .write bytes off w :: rest =>
    match busWrite s bytes off w with
    | some t => { t with pending := rest }
    | none => s
  | .read bytes off :: rest =>
    { (busRead s bytes off).2 with pending := rest, rdata := (busRead s bytes off).1 }
  | .sync :: rest =>
    let r := busRead s 4 statusOffset
    if busyBit r.1 then { r.2 with rdata := r.1 } else { r.2 with rdata := r.1, pending := rest }

end Sys2Proof.Machine
end

