-- ==== Sys2Proof/Machine/Operands.lean ====
section
/-! DEFINITION. How a command reads its operand words (spec/30_encoding.md R93), the range checks of the
parameter operations (R121, R122, R169, R220), and the block limits of RENDER (R101, R227). -/

namespace Sys2Proof.Machine

/-- An operand marked binary32: all 32 bits, no conversion (R93). -/
def asF32 (w : Word) : Word := w

/-- An operand marked u32, read as an unsigned integer (R93). -/
def asU32 (w : Word) : Nat := w.toNat

/-- SETMODE's gate, `arg0[0]` (R93, R225). -/
def gateBit (w : Word) : Bool := w.getLsbD 0

/-- `10.0 <= f <= 20000.0` (R121). -/
def freqAccepted (f : Word) : Bool := F32.inRange F32.ten F32.twentyThousand f

/-- `0.0 <= l <= 1.0` (R122). -/
def levelAccepted (l : Word) : Bool := F32.inRange F32.zero F32.one l

/-- `16.0 <= fc <= 20000.0` (R169). -/
def cutoffAccepted (fc : Word) : Bool := F32.inRange F32.sixteen F32.twentyThousand fc

/-- `isFinite(fs) and fs > 0.0` (R220). -/
def rateAccepted (fs : Word) : Bool := F32.isFinite fs && F32.lt F32.zero fs

/-- `N <= N_MAX` and `C <= C_MAX` (R101, R227). -/
def blockAccepted (p : Params) (n c : Nat) : Bool :=
  decide (n ≤ p.nMax.toNat) && decide (c ≤ p.cMax.toNat)

end Sys2Proof.Machine
end

