-- ==== Sys2Proof/Machine/Oscillator.lean ====
section
/-! DEFINITION. Oscillator and LevelRamp (spec/40_oscillator.md): setFrequency, setLevel, the ramp, the three
waveforms, the sample operation, and the commands SETLEVEL and SETFREQ. -/

namespace Sys2Proof.Machine

/-- `setFrequency` on one record (R121): accepted in range, otherwise no change. -/
def Osc.setFrequency (o : Osc) (f : Word) : Osc := if freqAccepted f then { o with freq := f } else o

/-- `setLevel` on one record (R122): accepted in range, otherwise no change; `current` is not touched. -/
def Osc.setLevel (o : Osc) (l : Word) : Osc := if levelAccepted l then { o with target := l } else o

/-- Whether the record makes no sound and no ramp step: `target <= 0.0` (R120, R123). -/
def Osc.muted (o : Osc) : Bool := F32.le o.target F32.zero

/-- The level the ramp leaves (R125): one clamped step up below the threshold, the target otherwise. -/
def rampLevel (p : Params) (target current : Word) : Word :=
  if F32.lt current (F32.sub p.nanValue target p.rampEps) then
    F32.minimum (F32.add p.nanValue current p.rampStep) target
  else target

/-- `ramp(k)` (R125). -/
def Osc.ramp (p : Params) (o : Osc) : Osc := { o with current := rampLevel p o.target o.current }

/-- `sawWave(c, f, t)` (R128); `free` stands for a remainder R12 does not define. -/
def sawWave (nan free c f t : Word) : Word :=
  let p := F32.div nan F32.one f
  let m := F32.fmod free t p
  let ph := F32.mul nan m f
  let v := F32.sub nan (F32.mul nan F32.two ph) F32.one
  F32.mul nan c v

/-- `squareWave(c, f, t)` (R129); `free` stands for a remainder R12 does not define. -/
def squareWave (nan free c f t : Word) : Word :=
  let p := F32.div nan F32.one f
  let h := F32.div nan p F32.two
  let m := F32.fmod free t p
  if F32.lt m h then c else F32.neg c

/-- `noiseWave(c)` (R131): the draw `v` where it lies in `[-c, c]` (a NaN does not), so that every value of
that interval is possible and no other; +0.0, a value of the interval, stands for a draw outside it. -/
def noiseWave (c v : Word) : Word := if F32.inRange (F32.neg c) c v then v else F32.zero

/-- The waveform of a record at its present level (R120), taking the `i`-th free values. -/
def Osc.wave (p : Params) (o : Osc) (t : Word) (i : Nat) : Word :=
  match o.kind with
  | .saw => sawWave p.nanValue (Config.fmodDraw i) o.current o.freq t
  | .sqr => squareWave p.nanValue (Config.fmodDraw i) o.current o.freq t
  | .noise => noiseWave o.current (Config.noiseDraw i)

/-- What one sample call returns: the amplitude, the record after its ramp step, the next free index. -/
structure Sampled where
  out  : Word
  osc  : Osc
  next : Nat
deriving DecidableEq, Repr

/-- `oscSample(k, t)` (R120): a muted record gives +0.0 and takes no ramp step (R123); otherwise the ramp
steps first and the waveform uses the level after it. -/
def Osc.sample (p : Params) (o : Osc) (t : Word) (i : Nat) : Sampled :=
  if o.muted then ⟨F32.zero, o, i⟩
  else ⟨(o.ramp p).wave p t i, o.ramp p, i + 1⟩

/-- SETLEVEL (R132). -/
def execSetLevel (k : OscId) (level : Word) (s : State) : Host.Outcome State Fault Refusal :=
  .next { s with bank := s.bank.set k ((s.bank.get k).setLevel (asF32 level)) }

/-- SETFREQ (R133). -/
def execSetFreq (k : OscId) (freq : Word) (s : State) : Host.Outcome State Fault Refusal :=
  .next { s with bank := s.bank.set k ((s.bank.get k).setFrequency (asF32 freq)) }

end Sys2Proof.Machine
end

