-- ==== Sys2Proof/Machine/Reference.lean ====
section
/-! DEFINITION. COEFF_FN (spec/41_filter.md R165, R170): the reference bilinear first-order design, computed
from n = tan(pi * fc / rate) in whole-number arithmetic, and what stands outside its domain.

With s = sin and c = cos of x = pi * fc / rate, 0 < x < pi/2, the coefficients of R165 are
n/(n+1) = s/(s+c), 1/(n+1) = c/(s+c) and (n-1)/(n+1) = (s-c)/(s+c). Sine and cosine are computed as whole
numbers of 2^-448 with an error far below `err`; each coefficient is rounded at both ends of the interval its
error leaves, and is taken only where the two ends round to the same word, which is then the exact value
rounded once. -/

namespace Sys2Proof.Machine

namespace Reference

/-- The scale of the computation: numbers are whole multiples of 2^-448. -/
def scaleBits : Nat := 448

/-- pi at that scale, rounded down. -/
def piScaled : Nat := 
  0x3243F6A8885A308D313198A2E03707344A4093822299F31D0082EFA98EC4E6C89452821E638D01377BE5466CF34E90C6CC0AC29B7C97C50DD

/-- A bound, at that scale, on the error of the computed sine and cosine. -/
def err : Nat := 2 ^ 20

/-- The partial sums of sine and cosine: `term` is x^k / k!, and every second pair of terms is subtracted. -/
def series (x : Nat) : Nat → Nat → Nat → Int → Int → Int × Int
  | 0, _, _, s, c => (s, c)
  | fuel + 1, k, term, s, c =>
    let next := term * x / 2 ^ scaleBits / (k + 1)
    if k % 4 = 0 then series x fuel (k + 1) next s (c + term)
    else if k % 4 = 1 then series x fuel (k + 1) next (s + term) c
    else if k % 4 = 2 then series x fuel (k + 1) next s (c - term)
    else series x fuel (k + 1) next (s - term) c

/-- Sine and cosine of pi * fc / rate for cutoff and rate in units of 2^-149. -/
def sinCos (fcUnits rateUnits : Nat) : Nat × Nat :=
  let r := series (piScaled * fcUnits / rateUnits) 160 0 (2 ^ scaleBits) 0 0
  (r.1.toNat, r.2.toNat)

/-- The magnitude pattern of `num / den`, where `num` is known within `e` and `den` within `2 * e`, if both
ends of that interval round to the same pattern. -/
def roundWithin (num den e : Nat) : Option Nat :=
  let lo := F32.roundMag ((num - e) * 2 ^ 149) (den + 2 * e)
  let hi := F32.roundMag ((num + e) * 2 ^ 149) (den - 2 * e)
  if lo = hi then some lo else none

/-- The three coefficients from sine and cosine known within `e` (R165). -/
def fromSinCos (kind : FilterKind) (s c e : Nat) : Option Coeffs := do
  let a ← roundWithin (if s < c then c - s else s - c) (s + c) (2 * e)
  let a1 := F32.pack (decide (s < c)) a
  match kind with
  | .lowpass =>
    let b ← roundWithin s (s + c) e
    pure ⟨F32.pack false b, F32.pack false b, a1⟩
  | .highpass =>
    let b ← roundWithin c (s + c) e
    pure ⟨F32.pack false b, F32.pack true b, a1⟩

/-- The domain of the reference design: 0 < fc < rate / 2, both finite (R170). -/
def inDomain (rate fc : Word) : Bool :=
  F32.isFinite rate && F32.isFinite fc && F32.lt F32.zero fc && !F32.sign rate &&
    decide (2 * F32.units fc < F32.units rate)

/-- The reference design inside its domain (R165): where fc = rate / 4 the sine and the cosine are equal and
the coefficients exact. -/
def design (kind : FilterKind) (rate fc : Word) : Option Coeffs :=
  if 4 * F32.units fc = F32.units rate then fromSinCos kind 1 1 0
  else
    let sc := sinCos (F32.units fc) (F32.units rate)
    fromSinCos kind sc.1 sc.2 err

end Reference

/-- COEFF_FN of the instance (R8, R165, R170): outside the reference design's domain, or where the interval
of the computation does not settle the rounding, the value is free. -/
def coeffFn (sel : CoeffSel) (kind : FilterKind) (rate fc : Word) : Coeffs :=
  match sel with
  | .other i => Config.coeffOther i kind rate fc
  | .reference =>
    if Reference.inDomain rate fc then
      (Reference.design kind rate fc).getD (Config.coeffOutside kind rate fc)
    else Config.coeffOutside kind rate fc

end Sys2Proof.Machine
end

