-- ==== Sys2Proof/Machine/Filter.lean ====
section
/-! DEFINITION. FilterStage and FilterChain (spec/41_filter.md): processSample, reset, snap, coefficient design,
their composition, and the command SETCUTOFF. -/

namespace Sys2Proof.Machine

/-- The output of the difference equation for input `x` (R160, R161), in the order of operations R161 gives. -/
def Stage.output (nan : Word) (f : Stage) (x : Word) : Word :=
  let p1 := F32.mul nan f.b0 x
  let p2 := F32.mul nan f.b1 f.x1
  let p3 := F32.mul nan f.a1 f.y1
  F32.sub nan (F32.add nan p1 p2) p3

/-- `processSample(F, x)` (R161): the output, and the stage with its delay state updated. -/
def Stage.process (nan : Word) (f : Stage) (x : Word) : Word × Stage :=
  (f.output nan x, { f with x1 := x, y1 := f.output nan x })

/-- `resetStage(F)` (R162). -/
def Stage.clear (f : Stage) : Stage := { f with x1 := F32.zero, y1 := F32.zero }

/-- A value with the subnormal range forced to +0.0 (R163). -/
def snapValue (v : Word) : Word := if F32.isSubnormal v then F32.zero else v

/-- `snapStage(F)` (R163). -/
def Stage.snap (f : Stage) : Stage := { f with x1 := snapValue f.x1, y1 := snapValue f.y1 }

/-- The design rate (R164). -/
def designRate (p : Params) (fs : Word) : Word :=
  match p.filterRate with
  | .base => fs
  | .oversampled => F32.mul p.nanValue F32.two fs

/-- The stage with its coefficients replaced. -/
def Stage.withCoeffs (f : Stage) (k : Coeffs) : Stage := { f with b0 := k.b0, b1 := k.b1, a1 := k.a1 }

/-- `design(F)` at sample rate `fs` (R166). -/
def Stage.design (p : Params) (kind : FilterKind) (fs : Word) (f : Stage) : Stage :=
  f.withCoeffs (coeffFn p.coeff kind (designRate p fs) f.cutoff)

/-- `chainProcess(x)` (R167): low-pass, then high-pass. -/
def Chain.process (nan : Word) (ch : Chain) (x : Word) : Word × Chain :=
  let u := ch.lp.process nan x
  let v := ch.hp.process nan u.1
  (v.1, ⟨u.2, v.2⟩)

/-- `chainReset()` (R168). -/
def Chain.clear (ch : Chain) : Chain := ⟨ch.lp.clear, ch.hp.clear⟩

/-- `chainSnap()` (R168). -/
def Chain.snap (ch : Chain) : Chain := ⟨ch.lp.snap, ch.hp.snap⟩

/-- `design(LP); design(HP)` at sample rate `fs` (R220). -/
def Chain.design (p : Params) (fs : Word) (ch : Chain) : Chain :=
  ⟨ch.lp.design p .lowpass fs, ch.hp.design p .highpass fs⟩

/-- The LP stage with a new cutoff, redesigned once prepared (R169). -/
def State.retuned (s : State) (fc : Word) : Stage :=
  if s.prepared then { s.chain.lp with cutoff := fc }.design s.par .lowpass s.fs
  else { s.chain.lp with cutoff := fc }

/-- SETCUTOFF (R169). -/
def execSetCutoff (hz : Word) (s : State) : Host.Outcome State Fault Refusal :=
  if cutoffAccepted (asF32 hz) then
    .next { s with chain := { s.chain with lp := s.retuned (asF32 hz) } }
  else reject s

end Sys2Proof.Machine
end

