-- ==== Sys2Proof/Machine/SoftClip.lean ====
section
/-! DEFINITION. The SoftClipper (spec/43_softclipper.md R210): stateless, and discontinuous at 1 and -1 as the
source states it (R211). -/

namespace Sys2Proof.Machine

/-- RNE(2/3) (R210). -/
def twoThirds : Word := 0x3F2AAAAB#32

/-- The cubic branch `x + x^3/3`, one rounding an operation (R210). -/
def cubic (nan x : Word) : Word :=
  let x2 := F32.mul nan x x
  let x3 := F32.mul nan x2 x
  let q := F32.div nan x3 F32.three
  F32.add nan x q

/-- `softClip(x)` (R210). -/
def softClip (nan x : Word) : Word :=
  if F32.lt F32.one x then twoThirds
  else if F32.lt x (F32.neg F32.one) then F32.neg twoThirds
  else cubic nan x

end Sys2Proof.Machine
end

