-- ==== Sys2Proof/Machine/Oversampler.lean ====
section
/-! DEFINITION. The 2x zero-stuffing Oversampler (spec/42_oversampler.md R190 to R193). -/

namespace Sys2Proof.Machine

/-- `zeroStuff(s)` (R190): each sample, then +0.0. -/
def zeroStuff : List Word → List Word
  | [] => []
  | x :: xs => x :: F32.zero :: zeroStuff xs

/-- One step of the loop of R191 at an even (`even = true`) or an odd index: under PER_PAIR the chain is reset
before an even index and snapped after an odd one. -/
def clipStep (p : Params) (even : Bool) (ch : Chain) (x : Word) : Word × Chain :=
  let before := if p.resetPolicy = .perPair ∧ even = true then ch.clear else ch
  let r := before.process p.nanValue x
  let after := if p.resetPolicy = .perPair ∧ even = false then r.2.snap else r.2
  (softClip p.nanValue r.1, after)

/-- The loop of R191 from an even or an odd index on. -/
def clipLoop (p : Params) (even : Bool) (ch : Chain) : List Word → List Word × Chain
  | [] => ([], ch)
  | x :: xs =>
    let z := clipStep p even ch x
    let rest := clipLoop p (!even) z.2 xs
    (z.1 :: rest.1, rest.2)

/-- `filterAndClip(X)` (R191): under PER_BLOCK the chain is reset once before and snapped once after. -/
def filterAndClip (p : Params) (ch : Chain) (xs : List Word) : List Word × Chain :=
  match p.resetPolicy with
  | .perBlock =>
    let r := clipLoop p true ch.clear xs
    (r.1, r.2.snap)
  | .perPair => clipLoop p true ch xs

/-- `decimate(Z)` (R192): the samples at even indices. -/
def decimate : List Word → List Word
  | [] => []
  | [z] => [z]
  | z :: _ :: rest => z :: decimate rest

/-- `oversampleBlock(s)` (R193): the output samples and the chain afterwards. -/
def oversampleBlock (p : Params) (ch : Chain) (xs : List Word) : List Word × Chain :=
  let r := filterAndClip p ch (zeroStuff xs)
  (decimate r.1, r.2)

end Sys2Proof.Machine
end

