-- ==== Sys2Proof/Machine/Voice.lean ====
section
/-! DEFINITION. The VoiceRenderer and the core commands (spec/44_voice.md): NOP, PREPARE, NOTEON, NOTEOFF,
SETMODE and RENDER, with the mixer and the block-local time cursor. -/

namespace Sys2Proof.Machine

/-- NOP (R221). -/
def execNop (s : State) : Host.Outcome State Fault Refusal := .next s

/-- PREPARE (R220). -/
def execPrepare (fs hint : Word) (s : State) : Host.Outcome State Fault Refusal :=
  if rateAccepted (asF32 fs) then
    .next { s with
      fs := asF32 fs, hint := hint, prepared := true,
      chain := s.chain.clear.design s.par (asF32 fs) }
  else reject s

/-- The sub oscillator's frequency for a note of frequency `f`: one octave below (R222). -/
def subFrequency (nan f : Word) : Word := F32.div nan f F32.two

/-- NOTEON (R222); the velocity has no effect (R93). -/
def execNoteOn (freq _velocity : Word) (s : State) : Host.Outcome State Fault Refusal :=
  .next { s with
    bank := { s.bank with
      main := s.bank.main.setFrequency (asF32 freq),
      sub := s.bank.sub.setFrequency (subFrequency s.par.nanValue (asF32 freq)) },
    noteFreq := asF32 freq, active := true }

/-- NOTEOFF (R223); note number and velocity have no effect (R93). -/
def execNoteOff (_note _velocity : Word) (s : State) : Host.Outcome State Fault Refusal :=
  .next { s with active := false }

/-- SETMODE (R225). -/
def execSetMode (gate : Word) (s : State) : Host.Outcome State Fault Refusal :=
  .next { s with gate := gateBit gate }

/-- The mix of one output sample: `(main + sub) + noise` (R232). -/
def mixSample (nan a b n : Word) : Word := F32.add nan (F32.add nan a b) n

/-- What `mixBlock` leaves: the mix samples, the oscillators after their ramp steps, the next free index. -/
structure Mixed where
  samples : List Word
  bank    : Bank
  next    : Nat
deriving DecidableEq, Repr

/-- The loop of `mixBlock` (R231): `n` more output samples from time `t` on; each samples MAIN, SUB and NOISE
once (R134) and then advances the cursor by `dt`. -/
def mixLoop (p : Params) (dt : Word) : Nat → Word → Bank → Nat → Mixed
  | 0, _, b, i => ⟨[], b, i⟩
  | n + 1, t, b, i =>
    let a := b.main.sample p t i
    let u := b.sub.sample p t a.next
    let w := b.noise.sample p t u.next
    let rest := mixLoop p dt n (F32.add p.nanValue t dt) ⟨a.osc, u.osc, w.osc⟩ w.next
    ⟨mixSample p.nanValue a.out u.out w.out :: rest.samples, rest.bank, rest.next⟩

/-- The time step `dt`: one over the base sample rate (R231). -/
def timeStep (p : Params) (fs : Word) : Word := F32.div p.nanValue F32.one fs

/-- `mixBlock(N)` (R231): the cursor starts at +0.0 in every block. -/
def mixBlock (p : Params) (fs : Word) (n : Nat) (b : Bank) (i : Nat) : Mixed :=
  mixLoop p (timeStep p fs) n F32.zero b i

/-- RENDER with its work done (R226, R230): mix, oversample, write the channels. -/
def State.rendered (s : State) (n c : Nat) : State :=
  let mix := mixBlock s.par s.fs n s.bank s.freeIdx
  let y := oversampleBlock s.par s.chain mix.samples
  { s with
    bank := mix.bank, freeIdx := mix.next, chain := y.2,
    outbuf := writeChannels s.par.nMax.toNat s.outbuf y.1 c }

/-- RENDER with zeros written and nothing else changed (R229, R233). -/
def State.zeroFilled (s : State) (n c : Nat) : State :=
  { s with outbuf := zeroFill s.par.nMax.toNat s.outbuf n c }

/-- RENDER (R226): the block limits, then prepared, then the gate (R263). -/
def execRender (n c : Word) (s : State) : Host.Outcome State Fault Refusal :=
  if blockAccepted s.par (asU32 n) (asU32 c) then
    if s.prepared then
      if s.gate && !s.active then .next (s.zeroFilled (asU32 n) (asU32 c))
      else .next (s.rendered (asU32 n) (asU32 c))
    else .next (s.zeroFilled (asU32 n) (asU32 c))
  else reject s

end Sys2Proof.Machine
end

