-- ==== Sys2Proof/Machine/Dispatch.lean ====
section
/-! DEFINITION. One arm per command: the meaning it calls. -/

namespace Sys2Proof.Machine

def exec (i : Instr) (s : State) : Host.Outcome State Fault Refusal :=
  match i with
  | .nop => Sys2Proof.Machine.execNop s
  | .prepare fs hint => Sys2Proof.Machine.execPrepare fs hint s
  | .noteon freq velocity => Sys2Proof.Machine.execNoteOn freq velocity s
  | .noteoff note velocity => Sys2Proof.Machine.execNoteOff note velocity s
  | .setlevel osc level => Sys2Proof.Machine.execSetLevel osc level s
  | .setfreq osc freq => Sys2Proof.Machine.execSetFreq osc freq s
  | .setcutoff hz => Sys2Proof.Machine.execSetCutoff hz s
  | .render n c => Sys2Proof.Machine.execRender n c s
  | .setmode gate => Sys2Proof.Machine.execSetMode gate s

end Sys2Proof.Machine
end

