-- ==== Sys2Proof/Machine/Step.lean ====
section
/-! DEFINITION. One step of the core and its host (spec/00_scope.md R17): the agent whose turn it is moves, or
the reset input is pulsed (spec/70_reset_and_hazards.md R280). -/

namespace Sys2Proof.Machine

/-- What a queue entry does when the engine executes it: its command, or NOP for an illegal word (R96). -/
def execEntry (e : CmdEntry) (s : State) : Host.Outcome State Fault Refusal :=
  match decode e with
  | .ok i => exec i s
  | .error _ => illegalAsNop s

/-- The engine's step (R17): the oldest entry is removed and executed as one atomic step; with an empty queue
the engine has no step and the state is kept (R269). -/
def engineStep (s : State) : Host.Outcome State Fault Refusal :=
  match dequeue s with
  | none => .next s
  | some (e, t) => execEntry e t

/-- One step. -/
def step (s : State) : Host.Outcome State Fault Refusal :=
  match mover s with
  | .engine => engineStep (useTurn s)
  | .host => .next (hostStep (useTurn s))
  | .resetInput => .next (hardReset (useTurn s))

/-- The state with a table word's instruction at the head of the queue and the engine to move, so that the
very next step executes it; its operand words are the bits above the command word. -/
def State.withFetchWord (s : State) (nbits w : Nat) : State := withHead s (tableEntry nbits w)

end Sys2Proof.Machine
end

