-- ==== Sys2Proof/Machine/Assembler.lean ====
section
/-! DEFINITION. The assembler of spec/30_encoding.md R98 to R100: literals, the text of a line, and the bus
accesses a line expands to. -/

namespace Sys2Proof.Machine

/-- The word of an f32 operand (R98): a decimal literal is rounded once, to nearest even. -/
def litWord : F32Lit → Word
  | .decimal neg digits scale => F32.rne neg (digits * 2 ^ 149) (10 ^ scale)
  | .pattern w => w

/-- A 32-bit bus write `MemWrite(off, 4, w)` (R98). -/
def wordWrite (off : Offset) (w : Word) : HostOp := .write 4 off w

/-- A 32-bit bus read `MemRead(off, 4)` (R98). -/
def wordRead (off : Offset) : HostOp := .read 4 off

def arg0Offset : Offset := 0x010#20
def arg1Offset : Offset := 0x014#20
def cmdOffset : Offset := 0x018#20

/-- How many operand writes a command line makes (R99): NOP none, a command that ignores ARG1 one. -/
def operandWrites (i : Instr) : List HostOp :=
  let e := encode i
  match i with
  | .nop => []
  | .setlevel _ _ | .setfreq _ _ | .setcutoff _ | .setmode _ => [wordWrite arg0Offset e.arg0]
  | .prepare _ _ | .noteon _ _ | .noteoff _ _ | .render _ _ =>
    [wordWrite arg0Offset e.arg0, wordWrite arg1Offset e.arg1]

/-- The bus writes of a command line (R99): the operands, and the write to CMD last. -/
def assemble (i : Instr) : List HostOp := operandWrites i ++ [wordWrite cmdOffset (encode i).cmd]

/-- The reads of `readout` after its `sync` (R100): channel by channel, sample by sample. DESIGN CHOICE, unsafe
(log entry 21): R100 bounds neither `n` nor `c`, and an offset of 2^20 or more, outside the window, is taken
modulo 2^20. -/
def readoutReads (nMax n c : Nat) : List HostOp :=
  (List.range c).flatMap (fun ch =>
    (List.range n).map (fun i => wordRead (BitVec.ofNat 20 (outAddr nMax ch i))))

/-- The bus accesses of a line (R99, R100). -/
def expandLine (nMax : Nat) : AsmLine → List HostOp
  | .nop => assemble .nop
  | .prepare fs hint => assemble (.prepare (litWord fs) hint)
  | .noteon freq velocity => assemble (.noteon (litWord freq) velocity)
  | .noteoff note velocity => assemble (.noteoff note velocity)
  | .setlevel k level => assemble (.setlevel k (litWord level))
  | .setfreq k freq => assemble (.setfreq k (litWord freq))
  | .setcutoff hz => assemble (.setcutoff (litWord hz))
  | .render n c => assemble (.render n c)
  | .setmode gate => assemble (.setmode gate)
  | .wr off w => [wordWrite off w]
  | .rd off => [wordRead off]
  | .sync => [.sync]
  | .mute k => assemble (.setlevel k F32.zero)
  | .gate => assemble (.setmode 1#32)
  | .always => assemble (.setmode 0#32)
  | .note freq => assemble (.noteon (litWord freq) 0#32)
  | .release => assemble (.noteoff 0#32 0#32)
  | .readout n c => .sync :: readoutReads nMax n c

/-- The bus accesses of a program (R98). -/
def expandProgram (nMax : Nat) (lines : List AsmLine) : List HostOp := lines.flatMap (expandLine nMax)

/-! ### The text of a line (R98) -/

namespace Text

/-- A character between tokens. -/
def isBlank (c : Char) : Bool := c = ' ' || c = '\t'

/-- The text without blanks at either end. -/
def trim (cs : List Char) : List Char := ((cs.dropWhile isBlank).reverse.dropWhile isBlank).reverse

/-- The text before a `; comment`. -/
def uncomment (cs : List Char) : List Char := cs.takeWhile (fun c => c ≠ ';')

/-- The pieces of a text between separators. -/
def splitAt (sep : Char) : List Char → List (List Char)
  | [] => [[]]
  | c :: cs =>
    if c = sep then [] :: splitAt sep cs
    else match splitAt sep cs with
      | [] => [[c]]
      | p :: ps => (c :: p) :: ps

/-- The value of a digit in a base. -/
def digit (base : Nat) (c : Char) : Option Nat :=
  let v :=
    if '0' ≤ c ∧ c ≤ '9' then c.toNat - '0'.toNat
    else if 'a' ≤ c ∧ c ≤ 'f' then c.toNat - 'a'.toNat + 10
    else if 'A' ≤ c ∧ c ≤ 'F' then c.toNat - 'A'.toNat + 10
    else base
  if v < base then some v else none

/-- The number that digits write, most significant first. -/
def digitsFrom (base : Nat) : Nat → List Char → Option Nat
  | acc, [] => some acc
  | acc, c :: cs => (digit base c).bind (fun d => digitsFrom base (acc * base + d) cs)

/-- A number of at least one digit. -/
def number (base : Nat) (cs : List Char) : Option Nat :=
  if cs.isEmpty then none else digitsFrom base 0 cs

/-- A u32 operand, decimal or `0x` hexadecimal. -/
def natural : List Char → Option Nat
  | '0' :: 'x' :: cs => number 16 cs
  | cs => number 10 cs

/-- A u32 operand in [0, 2^32 - 1]. -/
def word (cs : List Char) : Option Word :=
  (natural cs).bind (fun v => if v < 2 ^ 32 then some (BitVec.ofNat 32 v) else none)

/-- An offset in the window. -/
def offset (cs : List Char) : Option Offset :=
  (natural cs).bind (fun v => if v < 2 ^ 20 then some (BitVec.ofNat 20 v) else none)

/-- The digits of a decimal literal: whole part, then perhaps a point and a fraction. -/
def decimal (neg : Bool) (cs : List Char) : Option F32Lit :=
  match splitAt '.' cs with
  | [w] => (number 10 w).map (fun v => .decimal neg v 0)
  | [w, f] => if w.isEmpty ∨ f.isEmpty then none
    else (number 10 (w ++ f)).map (fun v => .decimal neg v f.length)
  | _ => none

/-- An f32 operand: `f32:0xHHHHHHHH`, or a decimal literal with an optional minus sign. -/
def f32 : List Char → Option F32Lit
  | 'f' :: '3' :: '2' :: ':' :: '0' :: 'x' :: cs =>
    if cs.length = 8 then (number 16 cs).map (fun v => .pattern (BitVec.ofNat 32 v)) else none
  | '-' :: cs => decimal true cs
  | cs => decimal false cs

/-- The oscillator a mnemonic's suffix names. -/
def oscillator (cs : List Char) : Option OscId :=
  if cs = "main".toList then some .main
  else if cs = "sub".toList then some .sub
  else if cs = "noise".toList then some .noise
  else none

/-- A line's operands: none, or the pieces between commas. -/
def operands (cs : List Char) : List (List Char) :=
  if (trim cs).isEmpty then [] else (splitAt ',' cs).map trim

/-- The line of a mnemonic without suffix and its operands. -/
def plainLine (name : List Char) (ops : List (List Char)) : Option AsmLine :=
  match ops with
  | [] =>
    if name = "nop".toList then some .nop
    else if name = "sync".toList then some .sync
    else if name = "gate".toList then some .gate
    else if name = "always".toList then some .always
    else if name = "release".toList then some .release
    else none
  | [a] =>
    if name = "setcutoff".toList then (f32 a).map .setcutoff
    else if name = "setmode".toList then (word a).map .setmode
    else if name = "rd".toList then (offset a).map .rd
    else if name = "note".toList then (f32 a).map .note
    else none
  | [a, b] =>
    if name = "prepare".toList then (f32 a).bind (fun x => (word b).map (.prepare x))
    else if name = "noteon".toList then (f32 a).bind (fun x => (word b).map (.noteon x))
    else if name = "noteoff".toList then (word a).bind (fun x => (word b).map (.noteoff x))
    else if name = "render".toList then (word a).bind (fun x => (word b).map (.render x))
    else if name = "wr".toList then (offset a).bind (fun x => (word b).map (.wr x))
    else if name = "readout".toList then (natural a).bind (fun x => (natural b).map (.readout x))
    else none
  | _ => none

/-- The line of a mnemonic with an oscillator suffix and its operands. -/
def oscLine (name : List Char) (k : OscId) (ops : List (List Char)) : Option AsmLine :=
  match ops with
  | [] => if name = "mute".toList then some (.mute k) else none
  | [a] =>
    if name = "setlevel".toList then (f32 a).map (.setlevel k)
    else if name = "setfreq".toList then (f32 a).map (.setfreq k)
    else none
  | _ => none

/-- The line a text writes; none where it writes none. -/
def parseLine (cs : List Char) : Option AsmLine :=
  let body := trim (uncomment cs)
  let name := body.takeWhile (fun c => !isBlank c)
  let ops := operands (body.dropWhile (fun c => !isBlank c))
  match splitAt '.' name with
  | [n] => plainLine n ops
  | [n, k] => (oscillator k).bind (fun x => oscLine n x ops)
  | _ => none

end Text

end Sys2Proof.Machine
end

