-- ==== Sys2Proof/Safety.lean ====
section
/-! DEFINITION. What a sound state is, in the terms the statements use: the invariants of spec/10_state.md R51
and R21 to R35, and what stays the same between two states. -/

namespace Sys2Proof.Machine

/-- An oscillator record of kind `k` in its legal ranges (R21 to R24, R51(a), R51(b)). -/
structure OscOk (k : OscKind) (o : Osc) : Prop where
  kind    : o.kind = k
  freq    : freqAccepted o.freq = true
  target  : levelAccepted o.target = true
  current : levelAccepted o.current = true

/-- The three records of the instance (R20, R21). -/
structure BankOk (p : Params) (b : Bank) : Prop where
  main  : OscOk p.mainKind.toKind b.main
  sub   : OscOk p.subKind.toKind b.sub
  noise : OscOk .noise b.noise

/-- LP.cutoff lies in [16, 20000] or equals its default (R26, R51(d)); HP.cutoff equals HP_CUTOFF (R26). -/
structure CutoffsOk (p : Params) (ch : Chain) : Prop where
  lp : cutoffAccepted ch.lp.cutoff = true ∨ ch.lp.cutoff = p.lpCutoffDefault
  hp : ch.hp.cutoff = p.hpCutoff

/-- OUTBUF in canonical form, with no cell outside its window (R61, R63). -/
structure OutbufOk (p : Params) (m : Memory) : Prop where
  wf     : Memory.wf m = true
  inside : ∀ cell ∈ m, inOutbuf p cell.1 = true

/-- A stage as it is before the first PREPARE (R27, R28). -/
def Stage.blank (f : Stage) : Prop := f = Stage.reset f.cutoff

/-- Before the first PREPARE the rate is +0.0 and both stages are blank; after it the rate is one PREPARE
accepts (R27, R28, R32). -/
structure PreparedOk (s : State) : Prop where
  yes : s.prepared = true → rateAccepted s.fs = true
  no  : s.prepared = false → s.fs = F32.zero ∧ s.hint = 0#32 ∧ s.chain.lp.blank ∧ s.chain.hp.blank

/-- A sound state of an instance with legal parameters. -/
structure Sound (s : State) : Prop where
  params    : s.par.legal = true
  bank      : BankOk s.par s.bank
  cutoffs   : CutoffsOk s.par s.chain
  outbuf    : OutbufOk s.par s.outbuf
  prepared  : PreparedOk s
  queue     : s.queue.length ≤ s.depth
  executing : s.executing = false

/-- The state but for the fields a command can write: what no command writes is equal in `s` and `t` (R33,
R76). -/
structure SameOutside (s t : State) : Prop where
  arg0      : t.arg0 = s.arg0
  arg1      : t.arg1 = s.arg1
  queue     : t.queue = s.queue
  executing : t.executing = s.executing
  par       : t.par = s.par
  pending   : t.pending = s.pending
  turns     : t.turns = s.turns
  rdata     : t.rdata = s.rdata

/-- Two stages that differ at most in their delay state (R161 to R163). -/
structure SameButDelay (f g : Stage) : Prop where
  cutoff : g.cutoff = f.cutoff
  b0     : g.b0 = f.b0
  b1     : g.b1 = f.b1
  a1     : g.a1 = f.a1

/-- Two oscillator records that differ at most in their current level (R24). -/
structure SameButCurrent (o u : Osc) : Prop where
  kind   : u.kind = o.kind
  freq   : u.freq = o.freq
  target : u.target = o.target

/-- Both stages of two chains differ at most in their delay state. -/
def ChainSameButDelay (a b : Chain) : Prop := SameButDelay a.lp b.lp ∧ SameButDelay a.hp b.hp

/-- The chain after the samples `xs`, one after another: each goes through the low-pass and what comes out of
it through the high-pass (R167). -/
def Chain.through (nan : Word) : Chain → List Word → Chain
  | ch, [] => ch
  | ch, x :: xs =>
    let u := ch.lp.process nan x
    Chain.through nan ⟨u.2, (ch.hp.process nan u.1).2⟩ xs

/-- `w` is `RNE` of the real value of sign `neg` and magnitude `n / d` units of 2^-149 (R11). -/
def IsRounding (w : Word) (neg : Bool) (n d : Nat) : Prop := F32.sign w = neg ∧ F32.mag w = F32.roundMag n d

/-- Every byte of OUTBUF reads in `t` as in `s`. -/
def SameBytes (s t : State) : Prop :=
  ∀ a, Memory.readByte t.outbuf a = Memory.readByte s.outbuf a

/-- The offset `a` is a byte of one of the first `n` samples of one of the first `c` channels, by the address
`outAddr` that RENDER stores a sample to (R63, R234). -/
def InBlock (nMax n c a : Nat) : Prop :=
  ∃ k < c, ∃ i < n, outAddr nMax k i ≤ a ∧ a < outAddr nMax k i + 4

/-- A block of `n` samples and `c` channels is within the limits (R101, R227). -/
def WithinLimits (p : Params) (n c : Word) : Prop :=
  n.toNat ≤ p.nMax.toNat ∧ c.toNat ≤ p.cMax.toNat

/-- The value of the time cursor at the `i`-th sample of a block (R231). -/
def timeAt (p : Params) (fs : Word) : Nat → Word
  | 0 => F32.zero
  | i + 1 => F32.add p.nanValue (timeAt p fs i) (F32.div p.nanValue F32.one fs)

/-- Queue entries executed one after another, each one completely before the next (R70(b)). -/
def execAll : List CmdEntry → State → Host.Outcome State Fault Refusal
  | [], s => .next s
  | e :: es, s =>
    match execEntry e s with
    | .next t => execAll es t
    | .fault r => .fault r
    | .refused r => .refused r

/-- The register map as R41 to R48 list it: the offset and the word a read returns. -/
def registerTable (s : State) : List (Nat × Word) :=
  [(0x000, 0x42474D01#32), (0x004, s.status), (0x010, s.arg0), (0x014, s.arg1), (0x018, 0#32),
    (0x020, s.fs), (0x024, s.hint), (0x028, s.noteFreq), (0x02C, s.chain.lp.cutoff),
    (0x030, s.chain.hp.cutoff)] ++
  [(0x040, kindCode s.bank.main.kind), (0x044, s.bank.main.freq), (0x048, s.bank.main.target),
    (0x04C, s.bank.main.current)] ++
  [(0x050, kindCode s.bank.sub.kind), (0x054, s.bank.sub.freq), (0x058, s.bank.sub.target),
    (0x05C, s.bank.sub.current)] ++
  [(0x060, kindCode s.bank.noise.kind), (0x064, s.bank.noise.freq), (0x068, s.bank.noise.target),
    (0x06C, s.bank.noise.current)] ++
  [(0x080, s.chain.lp.b0), (0x084, s.chain.lp.b1), (0x088, s.chain.lp.a1), (0x08C, s.chain.lp.x1),
    (0x090, s.chain.lp.y1)] ++
  [(0x0A0, s.chain.hp.b0), (0x0A4, s.chain.hp.b1), (0x0A8, s.chain.hp.a1), (0x0AC, s.chain.hp.x1),
    (0x0B0, s.chain.hp.y1)] ++
  [(0x0C0, s.par.nMax), (0x0C4, s.par.cMax), (0x0C8, s.par.cmdqDepth), (0x0CC, s.par.rampStep),
    (0x0D0, s.par.rampEps), (0x0D4, configWord s.par)]

/-- The offsets of the class A registers (R40 to R46, R48): defined at every read. -/
def classAOffsets : List Nat :=
  [0x000, 0x004, 0x010, 0x014, 0x018, 0x030, 0x040, 0x050, 0x060, 0x0C0, 0x0C4, 0x0C8, 0x0CC, 0x0D0, 0x0D4]

/-- The offsets of the class B registers (R40, R45 to R47): defined only while BUSY = 0. -/
def classBOffsets : List Nat :=
  [0x020, 0x024, 0x028, 0x02C] ++
  [0x044, 0x048, 0x04C, 0x054, 0x058, 0x05C, 0x064, 0x068, 0x06C] ++
  [0x080, 0x084, 0x088, 0x08C, 0x090, 0x0A0, 0x0A4, 0x0A8, 0x0AC, 0x0B0]

/-- The word offsets R49 and R61 reserve: no register's, and not in OUTBUF. -/
def Reserved (p : Params) (off : Nat) : Prop :=
  off % 4 = 0 ∧
    (off ∈ [0x008, 0x00C, 0x01C, 0x034, 0x038, 0x03C, 0x070, 0x074, 0x078, 0x07C, 0x094, 0x098, 0x09C,
        0x0B4, 0x0B8, 0x0BC] ∨
      (0x0D8 ≤ off ∧ off < 0x80000) ∨ (outbufEnd p ≤ off ∧ off < 0x100000))

end Sys2Proof.Machine
end

