-- ==== Sys2Proof/Certificates/Slice0/Obligations.lean ====
section
/-! DEFINITION. The statements for the provers. Each docstring names the rule of spec/ it formalises, and the
model's own choice where a statement rests on one. -/

open Sys2Proof Sys2Proof.Machine

/-! ### Encoding and decoding -/

/-- Decoding an encoded instruction gives it back, and the word of a decoded entry is the word its instruction
encodes to; exactly the legal words decode (R90, R92, R95, R96). -/
def Obligations.DecodeAndEncodeAgree : Prop :=
  (∀ i : Instr, i.wellFormed = true → decode (encode i) = .ok i) ∧
  (∀ e i, decode e = .ok i → (encode i).cmd = e.cmd ∧ decode { e with cmd := (encode i).cmd } = .ok i) ∧
  (∀ e, (∃ i, decode e = .ok i) ↔ CmdWord.legal e.cmd = true)

/-- The decode function of R95, line by line, on the fields w[31:10], w[9:8] and w[7:0]. -/
def Obligations.DecodeFollowsTheDecodeFunction : Prop :=
  ∀ (rsvd : BitVec 22) (sel : BitVec 2) (op : BitVec 8) (a b : Word),
    let e : CmdEntry := ⟨rsvd ++ sel ++ op, a, b⟩
    (rsvd ≠ 0#22 → ∃ r, decode e = .error r) ∧
    (rsvd = 0#22 →
      ((op = 0x04#8 ∨ op = 0x05#8) → sel = 3#2 → ∃ r, decode e = .error r) ∧
      (op = 0x04#8 → (sel = 0#2 → decode e = .ok (.setlevel .main a)) ∧
        (sel = 1#2 → decode e = .ok (.setlevel .sub a)) ∧
        (sel = 2#2 → decode e = .ok (.setlevel .noise a))) ∧
      (op = 0x05#8 → (sel = 0#2 → decode e = .ok (.setfreq .main a)) ∧
        (sel = 1#2 → decode e = .ok (.setfreq .sub a)) ∧
        (sel = 2#2 → decode e = .ok (.setfreq .noise a))) ∧
      (op ∈ [0x00#8, 0x01#8, 0x02#8, 0x03#8, 0x06#8, 0x07#8, 0x08#8] → sel ≠ 0#2 → ∃ r, decode e = .error r) ∧
      (sel = 0#2 →
        (op = 0x00#8 → decode e = .ok .nop) ∧ (op = 0x01#8 → decode e = .ok (.prepare a b)) ∧
        (op = 0x02#8 → decode e = .ok (.noteon a b)) ∧ (op = 0x03#8 → decode e = .ok (.noteoff a b)) ∧
        (op = 0x06#8 → decode e = .ok (.setcutoff a)) ∧ (op = 0x07#8 → decode e = .ok (.render a b)) ∧
        (op = 0x08#8 → decode e = .ok (.setmode a))) ∧
      (0x09 ≤ op.toNat → ∃ r, decode e = .error r))

/-- The illegal command words are the three groups of R96, and the engine executes one as NOP: its entry
leaves the queue and nothing else of the core changes (R96, R236). -/
def Obligations.IllegalWordsAreThreeGroupsAndRunAsNop : Prop :=
  (∀ e : CmdEntry, (∃ r, decode e = .error r) ↔
    (e.cmd.extractLsb' 10 22 ≠ 0#22 ∨ 0x09 ≤ (e.cmd.extractLsb' 0 8).toNat ∨
      (if e.cmd.extractLsb' 0 8 = 0x04#8 ∨ e.cmd.extractLsb' 0 8 = 0x05#8
        then e.cmd.extractLsb' 8 2 = 3#2 else e.cmd.extractLsb' 8 2 ≠ 0#2))) ∧
  (∀ s e rest r, mover s = .engine → s.queue = e :: rest → decode e = .error r →
    step s = .next { s with queue := rest, turns := s.turns.tail })

/-- Words written out from R90 and R92 (spec/95_test_vectors.md E1 to E11) decode as they should. -/
def Obligations.SampleWordsDecode : Prop :=
  decode ⟨0x00000000#32, 1#32, 2#32⟩ = .ok .nop ∧ decode ⟨0x00000001#32, 1#32, 2#32⟩ = .ok (.prepare 1#32 2#32) ∧
  decode ⟨0x00000104#32, 1#32, 2#32⟩ = .ok (.setlevel .sub 1#32) ∧
  decode ⟨0x00000205#32, 1#32, 2#32⟩ = .ok (.setfreq .noise 1#32) ∧
  decode ⟨0x00000304#32, 1#32, 2#32⟩ = .error .badSelector ∧ decode ⟨0x00000101#32, 1#32, 2#32⟩ = .error .badSelector ∧
  decode ⟨0x00000009#32, 1#32, 2#32⟩ = .error .reservedOpcode ∧
  decode ⟨0x00000407#32, 1#32, 2#32⟩ = .error .reservedBits ∧ decode ⟨0x80000007#32, 1#32, 2#32⟩ = .error .reservedBits ∧
  decode ⟨0x00000008#32, 1#32, 2#32⟩ = .ok (.setmode 1#32)

/-! ### The engine and its queue -/

/-- When the engine moves and the head of the queue decodes to `i`, the step is `exec i` on the state with
that entry removed and this step's turn used (R17, R36). -/
def Obligations.StepExecutesTheHeadOfTheQueue : Prop :=
  ∀ s e rest i, mover s = .engine → s.queue = e :: rest → decode e = .ok i →
    step s = exec i { s with queue := rest, turns := s.turns.tail }

/-- With an empty queue, a host that does nothing and no reset, all state is retained (R17, R269). That an
agent whose turn comes without a step leaves the state alone is the model's choice (log entry 3). -/
def Obligations.EmptyQueueRetainsAllState : Prop :=
  ∀ s, s.queue = [] → s.pending = [] → mover s ≠ .resetInput →
    step s = .next { s with turns := s.turns.tail }

/-- No step of the core ends in a fault or a refusal: whatever the state, a next state follows (R260, R261).
-/
def Obligations.EveryStepAnswersANextState : Prop := ∀ s, ∃ t, step s = .next t

/-- Left to itself (no turns named, so that the engine goes first: log entry 3) the engine empties the queue
in as many steps as it has entries, and leaves what executing the entries oldest first leaves (R17, R18,
R70(b)). -/
def Obligations.EngineDrainsTheQueueInOrder : Prop :=
  ∀ s, s.turns = [] → ∃ t, Host.Core.run Sys2Proof.core s.queue.length s = .next t ∧ t.queue = [] ∧
    execAll s.queue { s with queue := [] } = .next t

/-- No command touches ARG0, ARG1, the queue, the parameters or the host's side, whatever it does (R33, R76).
-/
def Obligations.CommandsLeaveTheHostInterfaceAlone : Prop :=
  ∀ i s, ∃ t, exec i s = .next t ∧ t.arg0 = s.arg0 ∧ t.arg1 = s.arg1 ∧ t.queue = s.queue ∧
    t.executing = s.executing ∧ t.par = s.par ∧ t.pending = s.pending ∧ t.turns = s.turns ∧
    t.rdata = s.rdata

/-- Each status value is written only as its own rule states: PREPARED by PREPARE, ACTIVE by NOTEON and
NOTEOFF, GATE by SETMODE, BUSY and FULL by the queue and so by no command (R39). -/
def Obligations.FlagsAreWrittenOnlyByTheirCommands : Prop :=
  ∀ i s t, exec i s = .next t →
    (t.prepared = s.prepared ∨ ∃ fs hint, i = .prepare fs hint) ∧
    (t.active = s.active ∨ (∃ f v, i = .noteon f v) ∨ ∃ n v, i = .noteoff n v) ∧
    (t.gate = s.gate ∨ ∃ g, i = .setmode g) ∧ t.busy = s.busy ∧ t.full = s.full

/-! ### Reset and invariants -/

/-- The state right after reset (R50), for every instance. -/
def Obligations.ResetGivesTheResetValues : Prop :=
  ∀ p, let s := State.resetOf p
    s.bank.main = ⟨p.mainKind.toKind, 0x43DC0000#32, 0#32, 0#32⟩ ∧
    s.bank.sub = ⟨p.subKind.toKind, 0x435C0000#32, 0#32, 0#32⟩ ∧
    s.bank.noise = ⟨.noise, 0x43DC0000#32, 0#32, 0#32⟩ ∧
    s.chain.lp = ⟨p.lpCutoffDefault, 0#32, 0#32, 0#32, 0#32, 0#32⟩ ∧ s.chain.hp = ⟨p.hpCutoff, 0#32, 0#32, 0#32, 0#32, 0#32⟩ ∧
    s.active = false ∧ s.noteFreq = 0#32 ∧ s.gate = true ∧ s.fs = 0#32 ∧ s.hint = 0#32 ∧ s.prepared = false ∧
    s.arg0 = 0#32 ∧ s.arg1 = 0#32 ∧ s.queue = [] ∧ s.executing = false ∧ (∀ c i, s.out c i = 0#32)

/-- A pulse of the reset input gives every piece of the core's state its reset value and empties the queue, in
whatever state it comes; the host, outside the core, goes on where it was (R280; log entry 4). -/
def Obligations.ResetPulseResetsTheCore : Prop :=
  ∀ s, mover s = .resetInput →
    step s = .next { State.resetOf s.par with
      freeIdx := s.freeIdx, pending := s.pending, turns := s.turns.tail, rdata := s.rdata }

/-- The machine right after reset is sound: legal parameters, levels and frequencies in range, OUTBUF in
canonical form, a queue within its depth (R50, R51). -/
def Obligations.ResetIsSound : Prop := Sound State.reset

/-- Every step keeps a sound state sound: frequencies stay in [10, 20000], levels in [0, 1], the low-pass
cutoff in [16, 20000] or at its default, kinds and the high-pass cutoff as the instance has them, OUTBUF in
canonical form inside its window, the queue within its depth (R21 to R28, R34, R51). -/
def Obligations.EveryStepKeepsTheStateSound : Prop :=
  ∀ s t, Sound s → step s = .next t → Sound t

/-! ### Commands -/

/-- NOP: the word 0x00000000 with any operands; it changes nothing (R221). -/
def Obligations.NopChangesNothing : Prop :=
  (∀ a b, decode ⟨0x00000000#32, a, b⟩ = .ok .nop) ∧ ∀ s, exec .nop s = .next s

/-- PREPARE, the word 0x00000001: an accepted rate is stored with the hint, sets PREPARED, clears both stages'
delay state and designs both at the design rate; any other rate changes nothing; nothing else is written
either way (R220, R162, R164, R166). -/
def Obligations.PrepareStoresTheRateAndDesignsBothStages : Prop :=
  (∀ fs hint, decode ⟨0x00000001#32, fs, hint⟩ = .ok (.prepare fs hint)) ∧ ∀ fs hint s,
    let ok := F32.isFinite fs = true ∧ F32.lt 0#32 fs = true
    let rate := match s.par.filterRate with
      | .base => fs
      | .oversampled => F32.mul s.par.nanValue 0x40000000#32 fs
    let lp := coeffFn s.par.coeff .lowpass rate s.chain.lp.cutoff
    let hp := coeffFn s.par.coeff .highpass rate s.chain.hp.cutoff
    (ok → exec (.prepare fs hint) s = .next { s with
      fs := fs, hint := hint, prepared := true,
      chain := ⟨⟨s.chain.lp.cutoff, lp.b0, lp.b1, lp.a1, 0#32, 0#32⟩,
                ⟨s.chain.hp.cutoff, hp.b0, hp.b1, hp.a1, 0#32, 0#32⟩⟩ }) ∧
    (¬ ok → exec (.prepare fs hint) s = .next s)

/-- NOTEON, the word 0x00000002: main takes the frequency and sub half of it, each only where it lies in [10,
20000]; the frequency is recorded and the voice becomes Active whatever it is; the velocity has no effect and
nothing else is written (R222). -/
def Obligations.NoteOnSetsBothFrequenciesAndActive : Prop :=
  (∀ f velocity, decode ⟨0x00000002#32, f, velocity⟩ = .ok (.noteon f velocity)) ∧ ∀ f velocity s,
    let half := F32.div s.par.nanValue f 0x40000000#32
    exec (.noteon f velocity) s = .next { s with
      bank := { s.bank with
        main := { s.bank.main with
          freq := if F32.le 0x41200000#32 f = true ∧ F32.le f 0x469C4000#32 = true
            then f else s.bank.main.freq },
        sub := { s.bank.sub with
          freq := if F32.le 0x41200000#32 half = true ∧ F32.le half 0x469C4000#32 = true
            then half else s.bank.sub.freq } },
      noteFreq := f, active := true }

/-- NOTEOFF, the word 0x00000003, clears the active flag and nothing else, whatever the note number and the
velocity (R223). -/
def Obligations.NoteOffClearsActiveOnly : Prop :=
  (∀ note velocity, decode ⟨0x00000003#32, note, velocity⟩ = .ok (.noteoff note velocity)) ∧
  ∀ note velocity s, exec (.noteoff note velocity) s = .next { s with active := false }

/-- SETLEVEL, the words 0x004, 0x104 and 0x204 with any ARG1, writes the target of the oscillator it names,
only where 0 <= level <= 1; the current level, the other oscillators and the rest of the state stay (R122,
R132). -/
def Obligations.SetLevelWritesTheTargetInRange : Prop :=
  (∀ a b, decode ⟨0x00000004#32, a, b⟩ = .ok (.setlevel .main a) ∧
    decode ⟨0x00000104#32, a, b⟩ = .ok (.setlevel .sub a) ∧
    decode ⟨0x00000204#32, a, b⟩ = .ok (.setlevel .noise a)) ∧
  ∀ k level s, ∃ t, exec (.setlevel k level) s = .next t ∧ t = { s with bank := t.bank } ∧
    t.bank.get k = { s.bank.get k with
      target := if F32.le 0#32 level = true ∧ F32.le level 0x3F800000#32 = true
        then level else (s.bank.get k).target } ∧
    ∀ j, j ≠ k → t.bank.get j = s.bank.get j

/-- SETFREQ, the words 0x005, 0x105 and 0x205 with any ARG1, writes the frequency of the oscillator it names,
only where 10 <= f <= 20000; the levels, the other oscillators and the rest of the state stay (R121, R133). -/
def Obligations.SetFreqWritesTheFrequencyInRange : Prop :=
  (∀ a b, decode ⟨0x00000005#32, a, b⟩ = .ok (.setfreq .main a) ∧
    decode ⟨0x00000105#32, a, b⟩ = .ok (.setfreq .sub a) ∧
    decode ⟨0x00000205#32, a, b⟩ = .ok (.setfreq .noise a)) ∧
  ∀ k f s, ∃ t, exec (.setfreq k f) s = .next t ∧ t = { s with bank := t.bank } ∧
    t.bank.get k = { s.bank.get k with
      freq := if F32.le 0x41200000#32 f = true ∧ F32.le f 0x469C4000#32 = true
        then f else (s.bank.get k).freq } ∧
    ∀ j, j ≠ k → t.bank.get j = s.bank.get j

/-- SETCUTOFF, the word 0x00000006 with any ARG1: a cutoff in [16, 20000] is stored and, once prepared, LP is
designed from it; x1, y1, HP and the rest of the state stay; any other cutoff changes nothing (R169, R166,
R164). -/
def Obligations.SetCutoffStoresAndRedesignsTheLowPass : Prop :=
  (∀ a b, decode ⟨0x00000006#32, a, b⟩ = .ok (.setcutoff a)) ∧ ∀ fc s,
    let ok := F32.le 0x41800000#32 fc = true ∧ F32.le fc 0x469C4000#32 = true
    let rate := match s.par.filterRate with
      | .base => s.fs
      | .oversampled => F32.mul s.par.nanValue 0x40000000#32 s.fs
    let k := coeffFn s.par.coeff .lowpass rate fc
    (ok → s.prepared = true → exec (.setcutoff fc) s = .next { s with
      chain := { s.chain with lp := ⟨fc, k.b0, k.b1, k.a1, s.chain.lp.x1, s.chain.lp.y1⟩ } }) ∧
    (ok → s.prepared = false → exec (.setcutoff fc) s = .next { s with
      chain := { s.chain with lp := { s.chain.lp with cutoff := fc } } }) ∧
    (¬ ok → exec (.setcutoff fc) s = .next s)

/-- SETMODE, the word 0x00000008 with any ARG1, writes bit 0 of its operand to the gate and nothing else
(R225). -/
def Obligations.SetModeWritesTheGateOnly : Prop :=
  (∀ a b, decode ⟨0x00000008#32, a, b⟩ = .ok (.setmode a)) ∧
  ∀ w : Word, ∀ s, exec (.setmode w) s = .next { s with gate := w.toNat % 2 = 1 }

/-- A RENDER past N_MAX or C_MAX changes no state (R227). -/
def Obligations.RenderPastTheLimitsChangesNothing : Prop :=
  ∀ n c s, ¬ WithinLimits s.par n c → exec (.render n c) s = .next s

/-- A gated RENDER (gate on, Idle) writes +0.0 to the samples it addresses and changes nothing else; with the
gate off the active flag has no effect on RENDER (R229). -/
def Obligations.GatedRenderWritesZerosOnly : Prop :=
  (∀ n c s, Memory.wf s.outbuf = true → WithinLimits s.par n c → s.prepared = true →
    s.gate = true → s.active = false →
    ∃ t, exec (.render n c) s = .next t ∧ t = { s with outbuf := t.outbuf } ∧
      (∀ k < c.toNat, ∀ i < n.toNat, t.out k i = 0#32) ∧
      (∀ a, ¬ InBlock s.par.nMax.toNat n.toNat c.toNat a →
        Memory.readByte t.outbuf a = Memory.readByte s.outbuf a)) ∧
  (∀ n c s b, s.gate = false →
    ∃ t, exec (.render n c) s = .next t ∧
      exec (.render n c) { s with active := b } = .next { t with active := b })

/-- RENDER before PREPARE, within the limits, writes +0.0 to the samples it addresses and changes nothing else
(R233). -/
def Obligations.RenderBeforePrepareWritesZerosOnly : Prop :=
  ∀ n c s, Memory.wf s.outbuf = true → WithinLimits s.par n c → s.prepared = false →
    ∃ t, exec (.render n c) s = .next t ∧ t = { s with outbuf := t.outbuf } ∧
      (∀ k < c.toNat, ∀ i < n.toNat, t.out k i = 0#32) ∧
      (∀ a, ¬ InBlock s.par.nMax.toNat n.toNat c.toNat a →
        Memory.readByte t.outbuf a = Memory.readByte s.outbuf a)

/-- RENDER, prepared, ungated and within the limits: it mixes N samples, oversamples them, and writes the N
output samples to each of the first C channels; oscillators and chain are left as that work leaves them and
everything else stays (R226, R234). -/
def Obligations.RenderMixesOversamplesAndWritesTheChannels : Prop :=
  ∀ n c s, Memory.wf s.outbuf = true → WithinLimits s.par n c → s.prepared = true →
    (s.gate = false ∨ s.active = true) →
    let mix := mixBlock s.par s.fs n.toNat s.bank s.freeIdx
    let y := oversampleBlock s.par s.chain mix.samples
    ∃ t, exec (.render n c) s = .next t ∧
      t = { s with bank := mix.bank, freeIdx := mix.next, chain := y.2, outbuf := t.outbuf } ∧
      y.1.length = n.toNat ∧
      (∀ k < c.toNat, ∀ i < n.toNat, y.1[i]? = some (t.out k i)) ∧
      (∀ a, ¬ InBlock s.par.nMax.toNat n.toNat c.toNat a →
        Memory.readByte t.outbuf a = Memory.readByte s.outbuf a)

/-- Each channel of a block receives an identical copy of the mono signal, and words past the block's channels
or samples keep their values, whatever kind of block it is (R234). -/
def Obligations.ChannelsReceiveIdenticalCopies : Prop :=
  ∀ n c s, Memory.wf s.outbuf = true → WithinLimits s.par n c →
    ∃ t, exec (.render n c) s = .next t ∧
      (∀ k < c.toNat, ∀ i < n.toNat, t.out k i = t.out 0 i) ∧
      (∀ k i, i < s.par.nMax.toNat → (c.toNat ≤ k ∨ n.toNat ≤ i) → t.out k i = s.out k i)

/-- Empty blocks (R235): N = 0 writes no word, samples no oscillator, and under PER_BLOCK leaves the delay
state zero; C = 0 writes no word but mixes and filters the whole block; in the gated and the unprepared case
neither changes anything. -/
def Obligations.EmptyBlocksFollowTheirRule : Prop :=
  ∀ n c s, WithinLimits s.par n c →
    (s.prepared = true → (s.gate = false ∨ s.active = true) → n = 0#32 →
      ∃ t, exec (.render n c) s = .next t ∧ t = { s with chain := t.chain } ∧
        (s.par.resetPolicy = .perBlock → t.chain.lp.x1 = 0#32 ∧ t.chain.lp.y1 = 0#32 ∧
          t.chain.hp.x1 = 0#32 ∧ t.chain.hp.y1 = 0#32)) ∧
    (s.prepared = true → (s.gate = false ∨ s.active = true) → c = 0#32 →
      ∃ t, exec (.render n c) s = .next t ∧ t.outbuf = s.outbuf ∧
        t.bank = (mixBlock s.par s.fs n.toNat s.bank s.freeIdx).bank ∧
        t.chain = (oversampleBlock s.par s.chain
          (mixBlock s.par s.fs n.toNat s.bank s.freeIdx).samples).2) ∧
    ((s.prepared = false ∨ (s.gate = true ∧ s.active = false)) → (n = 0#32 ∨ c = 0#32) →
      exec (.render n c) s = .next s)

/-- The frame of RENDER in every case: frequencies, targets, kinds, cutoffs, coefficients, the flags, the
rate, the hint and the note frequency are unchanged; a muted oscillator keeps its whole record; every OUTBUF
byte outside the addressed samples reads as before (R226, R124). -/
def Obligations.RenderFrame : Prop :=
  ∀ n c s t, Memory.wf s.outbuf = true → exec (.render n c) s = .next t →
    (∀ k, SameButCurrent (s.bank.get k) (t.bank.get k)) ∧
    (∀ k, F32.le (s.bank.get k).target 0#32 = true → t.bank.get k = s.bank.get k) ∧
    ChainSameButDelay s.chain t.chain ∧ SameOutside s t ∧
    t.active = s.active ∧ t.gate = s.gate ∧ t.prepared = s.prepared ∧ t.fs = s.fs ∧
    t.hint = s.hint ∧ t.noteFreq = s.noteFreq ∧
    (∀ a, ¬ InBlock s.par.nMax.toNat n.toNat c.toNat a →
      Memory.readByte t.outbuf a = Memory.readByte s.outbuf a)

/-- The frame of the commands that store nothing: every OUTBUF byte reads as before, and each command leaves
alone every field its rule does not name (R132, R133, R169, R220 to R225). -/
def Obligations.ParameterCommandsFrame : Prop :=
  ∀ i s t, exec i s = .next t → (∀ n c, i ≠ .render n c) →
    SameBytes s t ∧ SameOutside s t ∧ t.freeIdx = s.freeIdx ∧
    (∀ k, (t.bank.get k).kind = (s.bank.get k).kind ∧
      (t.bank.get k).current = (s.bank.get k).current) ∧
    (∀ k, (t.bank.get k).target = (s.bank.get k).target ∨ ∃ l, i = .setlevel k l) ∧
    (∀ k, (t.bank.get k).freq = (s.bank.get k).freq ∨ (∃ f, i = .setfreq k f) ∨
      (k ≠ .noise ∧ ∃ f v, i = .noteon f v)) ∧
    (t.chain.lp = s.chain.lp ∨ (∃ fs h, i = .prepare fs h) ∨ ∃ hz, i = .setcutoff hz) ∧
    (t.chain.hp = s.chain.hp ∨ ∃ fs h, i = .prepare fs h) ∧
    t.chain.hp.cutoff = s.chain.hp.cutoff ∧
    (t.chain.lp.cutoff = s.chain.lp.cutoff ∨ ∃ hz, i = .setcutoff hz) ∧
    ((t.fs = s.fs ∧ t.hint = s.hint) ∨ ∃ fs h, i = .prepare fs h) ∧
    (t.noteFreq = s.noteFreq ∨ ∃ f v, i = .noteon f v)

/-- The voice state machine (R224): NOTEON goes to Active and NOTEOFF to Idle from either state, and any other
command leaves the state unchanged; the reset state is Idle. -/
def Obligations.VoiceStateMachine : Prop :=
  State.reset.active = false ∧ ∀ i s, ∃ t, exec i s = .next t ∧
    ((∃ f v, i = .noteon f v) → t.active = true) ∧
    ((∃ n v, i = .noteoff n v) → t = { s with active := false }) ∧
    ((∀ f v, i ≠ .noteon f v) → (∀ n v, i ≠ .noteoff n v) → t.active = s.active)

/-! ### Oscillators and the ramp -/

/-- The gate on a zero target (R123): for a legal target, `target <= 0` holds exactly for +0.0 and -0.0; then
a sample call of any kind returns +0.0 and takes no ramp step. -/
def Obligations.MutedOscillatorReturnsZeroAndFreezes : Prop :=
  ∀ p (o : Osc) t i, levelAccepted o.target = true →
    (F32.le o.target 0#32 = true ↔ o.target = 0x00000000#32 ∨ o.target = 0x80000000#32) ∧
    (F32.le o.target 0#32 = true → (o.sample p t i).out = 0#32 ∧ (o.sample p t i).osc = o)

/-- One sample call of an oscillator with a positive target steps the ramp once (R125): below the threshold
RNE(L - RAMP_EPS) the level rises by RAMP_STEP but not past L, and otherwise it becomes L. It then outputs, at the
level after the step, the waveform of its kind (R120). A remainder that R12 does not define and the draw of the
noise source are the free values at the model's own count `i`, which the call advances (log entries 7, 8, 9). -/
def Obligations.SampleStepsTheRampThenSounds : Prop :=
  ∀ p (o : Osc) t i, F32.le o.target 0#32 = false →
    let thr := F32.sub p.nanValue o.target p.rampEps
    let up := F32.add p.nanValue o.current p.rampStep
    let r := o.sample p t i
    (F32.lt o.current thr = true → F32.le up o.target = true → r.osc = { o with current := up }) ∧
    (F32.lt o.current thr = true → F32.le up o.target = false → r.osc = { o with current := o.target }) ∧
    (F32.lt o.current thr = false → r.osc = { o with current := o.target }) ∧
    (o.kind = .saw → r.out = sawWave p.nanValue (Config.fmodDraw i) r.osc.current o.freq t) ∧
    (o.kind = .sqr → r.out = squareWave p.nanValue (Config.fmodDraw i) r.osc.current o.freq t) ∧
    (o.kind = .noise → r.out = noiseWave r.osc.current (Config.noiseDraw i)) ∧
    r.out = Osc.wave p r.osc t i ∧ r.next = i + 1

/-- A decrease is instant (R127): with 0 < L' < current the next sample call sets the level to L' and outputs
at L'; with L' = 0 the level is frozen. -/
def Obligations.LoweredTargetAppliesAtTheNextSample : Prop :=
  ∀ p (o : Osc) t i, p.legal = true → levelAccepted o.target = true → levelAccepted o.current = true →
    F32.lt o.target o.current = true →
    (F32.lt 0#32 o.target = true → (o.sample p t i).osc = { o with current := o.target } ∧
      (o.sample p t i).out = Osc.wave p { o with current := o.target } t i) ∧
    (F32.le o.target 0#32 = true → (o.sample p t i).osc.current = o.current)

/-- Rising levels never fall and never pass the target (R51(b), R51(c), R126): from a level at most its
target, a ramp step gives a level between the two. -/
def Obligations.RampRisesAndNeverOvershoots : Prop :=
  ∀ p (o : Osc), p.legal = true → levelAccepted o.target = true → levelAccepted o.current = true →
    F32.le o.current o.target = true →
    F32.le o.current (o.ramp p).current = true ∧ F32.le (o.ramp p).current o.target = true ∧
      levelAccepted (o.ramp p).current = true

/-- Convergence (R126), for a RAMP_STEP of 2^-q with q <= 24, where the sums are exact: from +0.0, call j
leaves j steps while that is below L, and call ceil(L / RAMP_STEP) and no earlier one leaves L. -/
def Obligations.RampReachesItsTargetInCeilCalls : Prop :=
  ∀ p (o : Osc) q, p.legal = true → levelAccepted o.target = true → F32.lt 0#32 o.target = true →
    o.current = 0#32 → q ≤ 24 → F32.units p.rampStep = 2 ^ (149 - q) →
    let n := (F32.units o.target + 2 ^ (149 - q) - 1) / 2 ^ (149 - q)
    (∀ j < n, F32.val (((Osc.ramp p)^[j] o).current) = j * 2 ^ (149 - q) ∧
      ((Osc.ramp p)^[j] o).current ≠ o.target) ∧
    ((Osc.ramp p)^[n] o).current = o.target

/-- Every block starts at phase 0 (R130, R289): at t = +0.0 a sawtooth gives -c and a square +c, for every
legal frequency and level. -/
def Obligations.WaveformsStartAtPhaseZero : Prop :=
  ∀ nan free c f, freqAccepted f = true → levelAccepted c = true →
    sawWave nan free c f 0#32 = F32.neg c ∧ squareWave nan free c f 0#32 = c

/-- The sawtooth (R128), for every legal frequency and level and every finite time: with p = RNE(1/f), m the exact
remainder of t by p, ph = RNE(m*f) and v = RNE(RNE(2*ph) - 1) it gives RNE(c*v), which stays in [-c, c]. -/
def Obligations.SawtoothStaysWithinItsLevel : Prop :=
  ∀ nan free c f t, freqAccepted f = true → levelAccepted c = true →
    F32.isFinite t = true → F32.le 0#32 t = true →
    let p := F32.div nan 0x3F800000#32 f
    let m := F32.fmod 0#32 t p
    let ph := F32.mul nan m f
    let v := F32.sub nan (F32.mul nan 0x40000000#32 ph) 0x3F800000#32
    F32.val m = F32.val t % F32.val p ∧ sawWave nan free c f t = F32.mul nan c v ∧
    F32.le (F32.neg c) (sawWave nan free c f t) = true ∧ F32.le (sawWave nan free c f t) c = true

/-- The square (R129): with p = RNE(1/f), h = RNE(p/2) and m the exact remainder of t by p, it gives c where m
< h and -c elsewhere, with no rounding of the level. -/
def Obligations.SquareIsPlusOrMinusItsLevel : Prop :=
  ∀ nan free c f t, freqAccepted f = true → F32.isFinite t = true → F32.le 0#32 t = true →
    let p := F32.div nan 0x3F800000#32 f
    let h := F32.div nan p 0x40000000#32
    let m := F32.fmod 0#32 t p
    (F32.val m = F32.val t % F32.val p) ∧ 2 * F32.val h = F32.val p ∧
    (F32.val m < F32.val h → squareWave nan free c f t = c) ∧
    (F32.val h ≤ F32.val m → squareWave nan free c f t = F32.neg c)

/-- The noise (R131): whatever the source draws, the output is no NaN and lies in [-c, c], and every value of
that closed interval is the output of some draw. What value the n-th draw has is free (log entry 9). -/
def Obligations.NoiseIsAnyValueWithinItsLevel : Prop :=
  ∀ c, levelAccepted c = true →
    (∀ v, F32.isNaN (noiseWave c v) = false ∧ F32.le (F32.neg c) (noiseWave c v) = true ∧
      F32.le (noiseWave c v) c = true) ∧
    (∀ v, F32.le (F32.neg c) v = true → F32.le v c = true → noiseWave c v = v)

/-- The mixer's loop (R231, R232, R134): a block has one mix sample for each of its N samples; sample i is
(main + sub) + noise, each oscillator sampled once at the cursor t_i, which starts at +0.0 and grows by
RNE(1/fs) a sample, in the state that the i samples before it left. -/
def Obligations.MixSamplesEachOscillatorOnceAtTheCursor : Prop :=
  ∀ p fs n b j, (mixBlock p fs n b j).samples.length = n ∧
    ∀ i < n,
      let m := mixBlock p fs i b j
      let a := m.bank.main.sample p (timeAt p fs i) m.next
      let u := m.bank.sub.sample p (timeAt p fs i) a.next
      let w := m.bank.noise.sample p (timeAt p fs i) u.next
      (mixBlock p fs n b j).samples[i]? =
          some (F32.add p.nanValue (F32.add p.nanValue a.out u.out) w.out) ∧
        (mixBlock p fs (i + 1) b j).bank = ⟨a.osc, u.osc, w.osc⟩

/-! ### Filters, oversampler and clipper -/

/-- processSample (R161): y = b0*x + b1*x1 - a1*y1 with one rounding an operation in that order; x becomes the
prior input and y the prior output, and coefficients and cutoff stay. -/
def Obligations.ProcessSampleIsTheDifferenceEquation : Prop :=
  ∀ nan (f : Stage) x,
    let y := F32.sub nan (F32.add nan (F32.mul nan f.b0 x) (F32.mul nan f.b1 f.x1))
      (F32.mul nan f.a1 f.y1)
    f.process nan x = (y, { f with x1 := x, y1 := y })

/-- Zero-stuffing and decimation (R190, R192): the stuffed buffer has the sample at each even index and +0.0
at each odd one, and the decimated block keeps the even indices. -/
def Obligations.EvenIndicesHoldTheSamples : Prop :=
  (∀ (xs : List Word), (zeroStuff xs).length = 2 * xs.length ∧
    ∀ i < xs.length, (zeroStuff xs)[2 * i]? = xs[i]? ∧ (zeroStuff xs)[2 * i + 1]? = some 0#32) ∧
  (∀ (zs : List Word) i, (decimate zs)[i]? = zs[2 * i]?)

/-- Filter state does not carry across blocks (R290, R194(a)): under either reset policy the output does not depend
on the delay state before the block, and the samples kept so far do not depend on later ones. Under PER_BLOCK
(R191, R162, R163, R167) kept output i is the clipper of what the zeroed chain, low-pass then high-pass, gives for
X[2i] after X[0] to X[2i-1], and the block leaves the state after X[2N-1] with its subnormal values set to +0.0. -/
def Obligations.FilterStateDoesNotCarryAcrossBlocks : Prop :=
  (∀ p (ch ch' : Chain) (xs ys : List Word), ChainSameButDelay ch ch' →
    (oversampleBlock p ch xs).1 = (oversampleBlock p ch' xs).1 ∧
    (oversampleBlock p ch (xs ++ ys)).1.take xs.length = (oversampleBlock p ch xs).1) ∧
  (∀ p (ch : Chain) (xs : List Word), p.resetPolicy = .perBlock →
    let nan := p.nanValue
    let zeroed : Chain := ⟨{ ch.lp with x1 := 0#32, y1 := 0#32 }, { ch.hp with x1 := 0#32, y1 := 0#32 }⟩
    let snapped := fun v : Word => if F32.isSubnormal v = true then 0#32 else v
    let e := zeroed.through nan (zeroStuff xs)
    (oversampleBlock p ch xs).1.length = xs.length ∧
    (∀ i x, xs[i]? = some x →
      let c := zeroed.through nan ((zeroStuff xs).take (2 * i))
      (oversampleBlock p ch xs).1[i]? =
        some (softClip nan (c.hp.process nan (c.lp.process nan x).1).1)) ∧
    (oversampleBlock p ch xs).2 =
      ⟨{ e.lp with x1 := snapped e.lp.x1, y1 := snapped e.lp.y1 },
        { e.hp with x1 := snapped e.hp.x1, y1 := snapped e.hp.y1 }⟩)

/-- Under PER_PAIR the chain is a pure gain (R194(b)): with finite coefficients, kept output i is
softClip(RNE(b0H * RNE(b0L * s[i]))) wherever both products are nonzero. -/
def Obligations.PerPairIsAPureGain : Prop :=
  ∀ p (ch : Chain) (xs : List Word) (i : Nat) x, p.resetPolicy = .perPair → F32.isNaN p.nanValue = true →
    F32.isFinite ch.lp.b1 = true → F32.isFinite ch.lp.a1 = true →
    F32.isFinite ch.hp.b1 = true → F32.isFinite ch.hp.a1 = true → xs[i]? = some x →
    let u := F32.mul p.nanValue ch.lp.b0 x
    let v := F32.mul p.nanValue ch.hp.b0 u
    F32.isZero u = false → F32.isZero v = false →
    (oversampleBlock p ch xs).1[i]? = some (softClip p.nanValue v)

/-- After a block no delay state is subnormal, and after a block of at least one sample the low-pass's prior
input is the stuffed +0.0 (R163, R191, R193); under PER_PAIR a block of no samples leaves the state as it was.
-/
def Obligations.DelayStateIsSnappedAfterABlock : Prop :=
  ∀ p (ch : Chain) (xs : List Word), (p.resetPolicy = .perBlock ∨ xs ≠ []) →
    let t := (oversampleBlock p ch xs).2
    F32.isSubnormal t.lp.x1 = false ∧ F32.isSubnormal t.lp.y1 = false ∧
    F32.isSubnormal t.hp.x1 = false ∧ F32.isSubnormal t.hp.y1 = false ∧ t.lp.x1 = 0#32

/-- The clipper's branches (R210): above 1 it gives 0x3F2AAAAB, below -1 its negation, and otherwise x + x^3/3
with one rounding an operation. -/
def Obligations.SoftClipBranches : Prop :=
  ∀ nan x,
    (F32.lt 0x3F800000#32 x = true → softClip nan x = 0x3F2AAAAB#32) ∧
    (F32.lt x 0xBF800000#32 = true → softClip nan x = 0xBF2AAAAB#32) ∧
    (F32.lt 0x3F800000#32 x = false → F32.lt x 0xBF800000#32 = false →
      softClip nan x =
        F32.add nan x (F32.div nan (F32.mul nan (F32.mul nan x x) x) 0x40400000#32))

/-- Special inputs of the clipper: the discontinuity at 1 and -1 as it stands (R211); the infinities, a NaN,
both zeros, and every subnormal, which passes through exactly (R213). -/
def Obligations.SoftClipSpecialInputs : Prop :=
  (∀ nan, softClip nan 0x3F800000#32 = 0x3FAAAAAB#32 ∧ softClip nan 0x3F800001#32 = 0x3F2AAAAB#32 ∧
    softClip nan 0xBF800000#32 = 0xBFAAAAAB#32 ∧ softClip nan 0xBF800001#32 = 0xBF2AAAAB#32) ∧
  (∀ nan, softClip nan 0x7F800000#32 = 0x3F2AAAAB#32 ∧ softClip nan 0xFF800000#32 = 0xBF2AAAAB#32 ∧
    softClip nan 0x00000000#32 = 0x00000000#32 ∧ softClip nan 0x80000000#32 = 0x80000000#32 ∧
    (∀ x, F32.isNaN x = true → softClip nan x = nan) ∧
    (∀ x, F32.isSubnormal x = true → softClip nan x = x))

/-- The clipper is odd, its output lies in [-4/3, 4/3] for every input that is no NaN, and on [-1, 1] it does
not fall (R212). -/
def Obligations.SoftClipIsOddBoundedAndRising : Prop :=
  (∀ nan x, F32.isNaN x = false → softClip nan (F32.neg x) = F32.neg (softClip nan x)) ∧
  (∀ nan x, F32.isNaN x = false →
    F32.le 0xBFAAAAAB#32 (softClip nan x) = true ∧ F32.le (softClip nan x) 0x3FAAAAAB#32 = true) ∧
  (∀ nan x y, F32.le 0xBF800000#32 x = true → F32.le x y = true → F32.le y 0x3F800000#32 = true →
    F32.le (softClip nan x) (softClip nan y) = true)

/-! ### binary32 -/

/-- Rounding is to the nearest value, ties to the even pattern, and overflows to infinity at the midpoint past the
largest finite value (R11): magnitudes are ratios n/d in units of 2^-149. The four operations (R12) are, of finite
operands, that rounding of the exact sum, difference, product and quotient, an exact zero sum being -0 only where
both terms are (log entry 15); a NaN operand gives NAN_VALUE, and infinities and division by zero give IEEE's
default results. -/
def Obligations.RoundingIsToNearestEven : Prop :=
  (∀ n d : Nat, 0 < d →
    (F32.roundMag n d = F32.infMag ↔ (2 ^ 25 - 1) * 2 ^ 252 * d ≤ n) ∧
    (F32.roundMag n d < F32.infMag → ∀ m < F32.infMag,
      ((n : Int) - F32.magUnits (F32.roundMag n d) * d).natAbs ≤ ((n : Int) - F32.magUnits m * d).natAbs ∧
      (((n : Int) - F32.magUnits (F32.roundMag n d) * d).natAbs = ((n : Int) - F32.magUnits m * d).natAbs →
        m ≠ F32.roundMag n d → F32.roundMag n d % 2 = 0))) ∧
  (∀ nan a b, F32.isFinite a = true → F32.isFinite b = true →
    let sum := F32.val a + F32.val b
    let diff := F32.val a - F32.val b
    let unlike := F32.sign a != F32.sign b
    (sum ≠ 0 → IsRounding (F32.add nan a b) (decide (sum < 0)) sum.natAbs 1) ∧
    (sum = 0 → F32.add nan a b = F32.pack (F32.sign a && F32.sign b) 0) ∧
    (diff ≠ 0 → IsRounding (F32.sub nan a b) (decide (diff < 0)) diff.natAbs 1) ∧
    (diff = 0 → F32.sub nan a b = F32.pack (F32.sign a && !F32.sign b) 0) ∧
    IsRounding (F32.mul nan a b) unlike (F32.units a * F32.units b) (2 ^ 149) ∧
    (F32.isZero b = false → IsRounding (F32.div nan a b) unlike (F32.units a * 2 ^ 149) (F32.units b)) ∧
    (F32.isZero b = true → F32.div nan a b = if F32.isZero a then nan else F32.pack unlike F32.infMag)) ∧
  (∀ nan a b, F32.isNaN a = true ∨ F32.isNaN b = true →
    F32.add nan a b = nan ∧ F32.sub nan a b = nan ∧ F32.mul nan a b = nan ∧ F32.div nan a b = nan) ∧
  (∀ nan a b, F32.isInf a = true → F32.isNaN b = false →
    let unlike := F32.sign a != F32.sign b
    F32.add nan a b = (if F32.isInf b && unlike then nan else a) ∧
    F32.add nan b a = (if F32.isInf b && unlike then nan else a) ∧
    F32.sub nan a b = (if F32.isInf b && !unlike then nan else a) ∧
    F32.sub nan b a = (if F32.isInf b && !unlike then nan else F32.neg a) ∧
    F32.mul nan a b = (if F32.isZero b then nan else F32.pack unlike F32.infMag) ∧
    F32.mul nan b a = (if F32.isZero b then nan else F32.pack unlike F32.infMag) ∧
    F32.div nan a b = (if F32.isInf b then nan else F32.pack unlike F32.infMag) ∧
    F32.div nan b a = (if F32.isInf b then nan else F32.pack unlike 0))

/-- Comparisons are those of the values (R12): of two finite operands by value, so that +0 equals -0, and
false with a NaN. -/
def Obligations.ComparisonsFollowTheValues : Prop :=
  (∀ a b, F32.isFinite a = true → F32.isFinite b = true →
    (F32.lt a b = true ↔ F32.val a < F32.val b) ∧ (F32.le a b = true ↔ F32.val a ≤ F32.val b)) ∧
  (∀ a b, F32.isNaN a = true ∨ F32.isNaN b = true → F32.lt a b = false ∧ F32.le a b = false)

/-- fmod is exact (R12): for finite a >= 0 and finite b > 0 it is the remainder of a by b, with no rounding.
-/
def Obligations.FmodIsTheExactRemainder : Prop :=
  ∀ free a b, F32.isFinite a = true → F32.le 0#32 a = true → F32.isFinite b = true → F32.lt 0#32 b = true →
    F32.isFinite (F32.fmod free a b) = true ∧ F32.val (F32.fmod free a b) = F32.val a % F32.val b

/-- The reference design at fc = rate/4, where n = 1 (R165): b0 = 0.5, b1 = 0.5 or -0.5, a1 = +0.0, at every
such cutoff and rate. -/
def Obligations.ReferenceDesignAtAQuarterOfTheRate : Prop :=
  ∀ rate fc, Reference.inDomain rate fc = true → 4 * F32.units fc = F32.units rate →
    coeffFn .reference .lowpass rate fc = ⟨0x3F000000#32, 0x3F000000#32, 0x00000000#32⟩ ∧
    coeffFn .reference .highpass rate fc = ⟨0x3F000000#32, 0xBF000000#32, 0x00000000#32⟩

/-! ### The bus -/

/-- While BUSY = 0 a 32-bit read at a register's offset returns its field, and one at word i of channel c of
OUTBUF returns `S.out[c][i]`; neither changes anything of the core (R41 to R48, R63, R67). -/
def Obligations.IdleReadsReturnTheDefinedState : Prop :=
  ∀ s off rest, mover s = .host → s.pending = .read 4 off :: rest → s.busy = false →
    (∀ v, (off.toNat, v) ∈ registerTable s →
      step s = .next { s with pending := rest, turns := s.turns.tail, rdata := v }) ∧
    (∀ c i, c < s.par.cMax.toNat → i < s.par.nMax.toNat →
      off.toNat = 0x80000 + 4 * (c * s.par.nMax.toNat + i) →
      step s = .next { s with pending := rest, turns := s.turns.tail, rdata := s.out c i })

/-- While BUSY = 1 a 32-bit read of a class B register (0x020 to 0x02C, the oscillators' frequency, target and
current, the filter fields) or of an OUTBUF word returns a free word and has no other effect, and a class A register
returns its field as ever (R285, R40). The free word is the draw at the model's own count, which the read advances
(log entries 7 and 10). -/
def Obligations.BusyReadsOfClassBAreFree : Prop :=
  ∀ s off rest, mover s = .host → s.pending = .read 4 off :: rest → s.busy = true →
    (∀ v, (off.toNat, v) ∈ registerTable s → off.toNat ∈ classAOffsets →
      step s = .next { s with pending := rest, turns := s.turns.tail, rdata := v }) ∧
    ((off.toNat ∈ classBOffsets ∨ ∃ c i, c < s.par.cMax.toNat ∧ i < s.par.nMax.toNat ∧
        off.toNat = 0x80000 + 4 * (c * s.par.nMax.toNat + i)) →
      step s = .next { s with
        pending := rest, turns := s.turns.tail, rdata := Config.busDraw s.freeIdx, freeIdx := s.freeIdx + 1 })

/-- STATUS, at 0x004 and read-only (R42): its five bits, the others zero, and its value after reset. -/
def Obligations.StatusShowsTheFiveFlags : Prop :=
  (∀ s : State, s.status.getLsbD 0 = s.prepared ∧ s.status.getLsbD 1 = s.active ∧
    s.status.getLsbD 2 = s.gate ∧
    (s.status.getLsbD 3 = true ↔ s.queue ≠ [] ∨ s.executing = true) ∧
    (s.status.getLsbD 4 = true ↔ s.queue.length = s.par.cmdqDepth.toNat) ∧
    (∀ i, 5 ≤ i → s.status.getLsbD i = false) ∧
    busRead s 4 0x004#20 = (s.status, s) ∧ ∀ w, busWrite s 4 0x004#20 w = some s) ∧
  (∀ p : Params, p.legal = true → (State.resetOf p).status = 0x00000004#32)

/-- An access that is not 32 bits wide or not at a multiple of 4 has no effect on the core, and a read of that
kind returns zero data (R64). -/
def Obligations.MisfitAccessesHaveNoEffect : Prop :=
  ∀ s bytes off rest, mover s = .host → (bytes ≠ 4 ∨ off.toNat % 4 ≠ 0) →
    (s.pending = .read bytes off :: rest →
      step s = .next { s with pending := rest, turns := s.turns.tail, rdata := 0#32 }) ∧
    (∀ w, s.pending = .write bytes off w :: rest →
      step s = .next { s with pending := rest, turns := s.turns.tail })

/-- A read of a reserved offset returns 0 and has no side effect, busy or not; a write to a reserved offset,
to a read-only register or to OUTBUF has no effect (R65). -/
def Obligations.ReservedAndReadOnlyOffsets : Prop :=
  ∀ s off rest, mover s = .host →
    (Reserved s.par off.toNat → s.pending = .read 4 off :: rest →
      step s = .next { s with pending := rest, turns := s.turns.tail, rdata := 0#32 }) ∧
    (∀ w, s.pending = .write 4 off w :: rest →
      off.toNat ≠ 0x010 → off.toNat ≠ 0x014 → off.toNat ≠ 0x018 →
      step s = .next { s with pending := rest, turns := s.turns.tail })

/-- Writes to ARG0 and ARG1 set their register and change nothing else, so that commands already queued keep
their operands; a write to CMD appends the word with the operands held at that write (R67, R68, R74). While the
queue is full the write is held, which R68 gives no step: that the step then uses up the host's turn and the write
stays first in `pending` is the model's choice (DESIGN CHOICE, log entries 18 and 3). -/
def Obligations.OperandAndCommandWrites : Prop :=
  ∀ s off w rest, mover s = .host → s.pending = .write 4 off w :: rest →
    (off = 0x010#20 →
      step s = .next { s with arg0 := w, pending := rest, turns := s.turns.tail }) ∧
    (off = 0x014#20 →
      step s = .next { s with arg1 := w, pending := rest, turns := s.turns.tail }) ∧
    (off = 0x018#20 → s.queue.length < s.par.cmdqDepth.toNat → step s = .next { s with
      queue := s.queue ++ [⟨w, s.arg0, s.arg1⟩], pending := rest, turns := s.turns.tail }) ∧
    (off = 0x018#20 → ¬ s.queue.length < s.par.cmdqDepth.toNat →
      step s = .next { s with turns := s.turns.tail })

/-- The bus writes a command line expands to queue that command (R99): carried out by the host one after another
with room in the queue, they append one entry, which decodes to the command, and change nothing else but the
operand registers. The pseudo-command `sync` (R100, R70(c)) reads STATUS, and is used up where the BUSY it reads is
0; where it is 1 it stays the host's next operation, which is how the model repeats the read (its own choice, log
entry 18), in the turn the model gives the host (log entry 3). -/
def Obligations.AssembledLineQueuesItsCommand : Prop :=
  (∀ i s rest ts, s.pending = assemble i ++ rest →
    s.turns = List.replicate (assemble i).length .host ++ ts →
    s.queue.length < s.par.cmdqDepth.toNat →
    ∃ t e, Host.Core.run Sys2Proof.core (assemble i).length s = .next t ∧ decode e = .ok i ∧
      t = { s with arg0 := e.arg0, arg1 := e.arg1, queue := s.queue ++ [e], pending := rest, turns := ts }) ∧
  (∀ s rest, mover s = .host → s.pending = .sync :: rest →
    ((s.queue ≠ [] ∨ s.executing = true) →
      step s = .next { s with turns := s.turns.tail, rdata := s.status }) ∧
    (s.queue = [] → s.executing = false →
      step s = .next { s with pending := rest, turns := s.turns.tail, rdata := s.status }))
end

