-- ==== Sys2Proof/Laws/State.lean ====
section
/-! SUPPORT. One lemma a field for every named update of the state, so that no later proof unfolds a record
update; and the fields of the updates of the smaller records. -/

namespace Sys2Proof.Machine

/-! ### This step's turn used up -/

@[simp] theorem useTurn_bank (s : State) :
    (useTurn s).bank = s.bank := rfl
@[simp] theorem useTurn_chain (s : State) :
    (useTurn s).chain = s.chain := rfl
@[simp] theorem useTurn_active (s : State) :
    (useTurn s).active = s.active := rfl
@[simp] theorem useTurn_noteFreq (s : State) :
    (useTurn s).noteFreq = s.noteFreq := rfl
@[simp] theorem useTurn_gate (s : State) :
    (useTurn s).gate = s.gate := rfl
@[simp] theorem useTurn_fs (s : State) :
    (useTurn s).fs = s.fs := rfl
@[simp] theorem useTurn_hint (s : State) :
    (useTurn s).hint = s.hint := rfl
@[simp] theorem useTurn_prepared (s : State) :
    (useTurn s).prepared = s.prepared := rfl
@[simp] theorem useTurn_arg0 (s : State) :
    (useTurn s).arg0 = s.arg0 := rfl
@[simp] theorem useTurn_arg1 (s : State) :
    (useTurn s).arg1 = s.arg1 := rfl
@[simp] theorem useTurn_queue (s : State) :
    (useTurn s).queue = s.queue := rfl
@[simp] theorem useTurn_executing (s : State) :
    (useTurn s).executing = s.executing := rfl
@[simp] theorem useTurn_outbuf (s : State) :
    (useTurn s).outbuf = s.outbuf := rfl
@[simp] theorem useTurn_par (s : State) :
    (useTurn s).par = s.par := rfl
@[simp] theorem useTurn_freeIdx (s : State) :
    (useTurn s).freeIdx = s.freeIdx := rfl
@[simp] theorem useTurn_pending (s : State) :
    (useTurn s).pending = s.pending := rfl
@[simp] theorem useTurn_turns (s : State) :
    (useTurn s).turns = s.turns.tail := rfl
@[simp] theorem useTurn_rdata (s : State) :
    (useTurn s).rdata = s.rdata := rfl

/-! ### A command enqueued -/

@[simp] theorem enqueue_bank (s : State) (w : Word) :
    (enqueue s w).bank = s.bank := rfl
@[simp] theorem enqueue_chain (s : State) (w : Word) :
    (enqueue s w).chain = s.chain := rfl
@[simp] theorem enqueue_active (s : State) (w : Word) :
    (enqueue s w).active = s.active := rfl
@[simp] theorem enqueue_noteFreq (s : State) (w : Word) :
    (enqueue s w).noteFreq = s.noteFreq := rfl
@[simp] theorem enqueue_gate (s : State) (w : Word) :
    (enqueue s w).gate = s.gate := rfl
@[simp] theorem enqueue_fs (s : State) (w : Word) :
    (enqueue s w).fs = s.fs := rfl
@[simp] theorem enqueue_hint (s : State) (w : Word) :
    (enqueue s w).hint = s.hint := rfl
@[simp] theorem enqueue_prepared (s : State) (w : Word) :
    (enqueue s w).prepared = s.prepared := rfl
@[simp] theorem enqueue_arg0 (s : State) (w : Word) :
    (enqueue s w).arg0 = s.arg0 := rfl
@[simp] theorem enqueue_arg1 (s : State) (w : Word) :
    (enqueue s w).arg1 = s.arg1 := rfl
@[simp] theorem enqueue_queue (s : State) (w : Word) :
    (enqueue s w).queue = s.queue ++ [⟨w, s.arg0, s.arg1⟩] := rfl
@[simp] theorem enqueue_executing (s : State) (w : Word) :
    (enqueue s w).executing = s.executing := rfl
@[simp] theorem enqueue_outbuf (s : State) (w : Word) :
    (enqueue s w).outbuf = s.outbuf := rfl
@[simp] theorem enqueue_par (s : State) (w : Word) :
    (enqueue s w).par = s.par := rfl
@[simp] theorem enqueue_freeIdx (s : State) (w : Word) :
    (enqueue s w).freeIdx = s.freeIdx := rfl
@[simp] theorem enqueue_pending (s : State) (w : Word) :
    (enqueue s w).pending = s.pending := rfl
@[simp] theorem enqueue_turns (s : State) (w : Word) :
    (enqueue s w).turns = s.turns := rfl
@[simp] theorem enqueue_rdata (s : State) (w : Word) :
    (enqueue s w).rdata = s.rdata := rfl

/-! ### The queue's head replaced -/

@[simp] theorem withHead_bank (s : State) (e : CmdEntry) :
    (withHead s e).bank = s.bank := rfl
@[simp] theorem withHead_chain (s : State) (e : CmdEntry) :
    (withHead s e).chain = s.chain := rfl
@[simp] theorem withHead_active (s : State) (e : CmdEntry) :
    (withHead s e).active = s.active := rfl
@[simp] theorem withHead_noteFreq (s : State) (e : CmdEntry) :
    (withHead s e).noteFreq = s.noteFreq := rfl
@[simp] theorem withHead_gate (s : State) (e : CmdEntry) :
    (withHead s e).gate = s.gate := rfl
@[simp] theorem withHead_fs (s : State) (e : CmdEntry) :
    (withHead s e).fs = s.fs := rfl
@[simp] theorem withHead_hint (s : State) (e : CmdEntry) :
    (withHead s e).hint = s.hint := rfl
@[simp] theorem withHead_prepared (s : State) (e : CmdEntry) :
    (withHead s e).prepared = s.prepared := rfl
@[simp] theorem withHead_arg0 (s : State) (e : CmdEntry) :
    (withHead s e).arg0 = s.arg0 := rfl
@[simp] theorem withHead_arg1 (s : State) (e : CmdEntry) :
    (withHead s e).arg1 = s.arg1 := rfl
@[simp] theorem withHead_queue (s : State) (e : CmdEntry) :
    (withHead s e).queue = e :: s.queue.tail := rfl
@[simp] theorem withHead_executing (s : State) (e : CmdEntry) :
    (withHead s e).executing = s.executing := rfl
@[simp] theorem withHead_outbuf (s : State) (e : CmdEntry) :
    (withHead s e).outbuf = s.outbuf := rfl
@[simp] theorem withHead_par (s : State) (e : CmdEntry) :
    (withHead s e).par = s.par := rfl
@[simp] theorem withHead_freeIdx (s : State) (e : CmdEntry) :
    (withHead s e).freeIdx = s.freeIdx := rfl
@[simp] theorem withHead_pending (s : State) (e : CmdEntry) :
    (withHead s e).pending = s.pending := rfl
@[simp] theorem withHead_turns (s : State) (e : CmdEntry) :
    (withHead s e).turns = .engine :: s.turns := rfl
@[simp] theorem withHead_rdata (s : State) (e : CmdEntry) :
    (withHead s e).rdata = s.rdata := rfl

/-! ### Hardware reset -/

@[simp] theorem hardReset_bank (s : State) :
    (hardReset s).bank = (State.resetOf s.par).bank := rfl
@[simp] theorem hardReset_chain (s : State) :
    (hardReset s).chain = (State.resetOf s.par).chain := rfl
@[simp] theorem hardReset_active (s : State) :
    (hardReset s).active = (State.resetOf s.par).active := rfl
@[simp] theorem hardReset_noteFreq (s : State) :
    (hardReset s).noteFreq = (State.resetOf s.par).noteFreq := rfl
@[simp] theorem hardReset_gate (s : State) :
    (hardReset s).gate = (State.resetOf s.par).gate := rfl
@[simp] theorem hardReset_fs (s : State) :
    (hardReset s).fs = (State.resetOf s.par).fs := rfl
@[simp] theorem hardReset_hint (s : State) :
    (hardReset s).hint = (State.resetOf s.par).hint := rfl
@[simp] theorem hardReset_prepared (s : State) :
    (hardReset s).prepared = (State.resetOf s.par).prepared := rfl
@[simp] theorem hardReset_arg0 (s : State) :
    (hardReset s).arg0 = (State.resetOf s.par).arg0 := rfl
@[simp] theorem hardReset_arg1 (s : State) :
    (hardReset s).arg1 = (State.resetOf s.par).arg1 := rfl
@[simp] theorem hardReset_queue (s : State) :
    (hardReset s).queue = (State.resetOf s.par).queue := rfl
@[simp] theorem hardReset_executing (s : State) :
    (hardReset s).executing = (State.resetOf s.par).executing := rfl
@[simp] theorem hardReset_outbuf (s : State) :
    (hardReset s).outbuf = (State.resetOf s.par).outbuf := rfl
@[simp] theorem hardReset_par (s : State) :
    (hardReset s).par = s.par := rfl
@[simp] theorem hardReset_freeIdx (s : State) :
    (hardReset s).freeIdx = s.freeIdx := rfl
@[simp] theorem hardReset_pending (s : State) :
    (hardReset s).pending = s.pending := rfl
@[simp] theorem hardReset_turns (s : State) :
    (hardReset s).turns = s.turns := rfl
@[simp] theorem hardReset_rdata (s : State) :
    (hardReset s).rdata = s.rdata := rfl

/-! ### A block of zeros -/

@[simp] theorem zeroFilled_bank (s : State) (n c : Nat) :
    (s.zeroFilled n c).bank = s.bank := rfl
@[simp] theorem zeroFilled_chain (s : State) (n c : Nat) :
    (s.zeroFilled n c).chain = s.chain := rfl
@[simp] theorem zeroFilled_active (s : State) (n c : Nat) :
    (s.zeroFilled n c).active = s.active := rfl
@[simp] theorem zeroFilled_noteFreq (s : State) (n c : Nat) :
    (s.zeroFilled n c).noteFreq = s.noteFreq := rfl
@[simp] theorem zeroFilled_gate (s : State) (n c : Nat) :
    (s.zeroFilled n c).gate = s.gate := rfl
@[simp] theorem zeroFilled_fs (s : State) (n c : Nat) :
    (s.zeroFilled n c).fs = s.fs := rfl
@[simp] theorem zeroFilled_hint (s : State) (n c : Nat) :
    (s.zeroFilled n c).hint = s.hint := rfl
@[simp] theorem zeroFilled_prepared (s : State) (n c : Nat) :
    (s.zeroFilled n c).prepared = s.prepared := rfl
@[simp] theorem zeroFilled_arg0 (s : State) (n c : Nat) :
    (s.zeroFilled n c).arg0 = s.arg0 := rfl
@[simp] theorem zeroFilled_arg1 (s : State) (n c : Nat) :
    (s.zeroFilled n c).arg1 = s.arg1 := rfl
@[simp] theorem zeroFilled_queue (s : State) (n c : Nat) :
    (s.zeroFilled n c).queue = s.queue := rfl
@[simp] theorem zeroFilled_executing (s : State) (n c : Nat) :
    (s.zeroFilled n c).executing = s.executing := rfl
@[simp] theorem zeroFilled_outbuf (s : State) (n c : Nat) :
    (s.zeroFilled n c).outbuf = zeroFill s.par.nMax.toNat s.outbuf n c := rfl
@[simp] theorem zeroFilled_par (s : State) (n c : Nat) :
    (s.zeroFilled n c).par = s.par := rfl
@[simp] theorem zeroFilled_freeIdx (s : State) (n c : Nat) :
    (s.zeroFilled n c).freeIdx = s.freeIdx := rfl
@[simp] theorem zeroFilled_pending (s : State) (n c : Nat) :
    (s.zeroFilled n c).pending = s.pending := rfl
@[simp] theorem zeroFilled_turns (s : State) (n c : Nat) :
    (s.zeroFilled n c).turns = s.turns := rfl
@[simp] theorem zeroFilled_rdata (s : State) (n c : Nat) :
    (s.zeroFilled n c).rdata = s.rdata := rfl

/-! ### A rendered block -/

@[simp] theorem rendered_bank (s : State) (n c : Nat) :
    (s.rendered n c).bank = (mixBlock s.par s.fs n s.bank s.freeIdx).bank := rfl
@[simp] theorem rendered_chain (s : State) (n c : Nat) :
    (s.rendered n c).chain = (oversampleBlock s.par s.chain (mixBlock s.par s.fs n s.bank s.freeIdx).samples).2 := rfl
@[simp] theorem rendered_active (s : State) (n c : Nat) :
    (s.rendered n c).active = s.active := rfl
@[simp] theorem rendered_noteFreq (s : State) (n c : Nat) :
    (s.rendered n c).noteFreq = s.noteFreq := rfl
@[simp] theorem rendered_gate (s : State) (n c : Nat) :
    (s.rendered n c).gate = s.gate := rfl
@[simp] theorem rendered_fs (s : State) (n c : Nat) :
    (s.rendered n c).fs = s.fs := rfl
@[simp] theorem rendered_hint (s : State) (n c : Nat) :
    (s.rendered n c).hint = s.hint := rfl
@[simp] theorem rendered_prepared (s : State) (n c : Nat) :
    (s.rendered n c).prepared = s.prepared := rfl
@[simp] theorem rendered_arg0 (s : State) (n c : Nat) :
    (s.rendered n c).arg0 = s.arg0 := rfl
@[simp] theorem rendered_arg1 (s : State) (n c : Nat) :
    (s.rendered n c).arg1 = s.arg1 := rfl
@[simp] theorem rendered_queue (s : State) (n c : Nat) :
    (s.rendered n c).queue = s.queue := rfl
@[simp] theorem rendered_executing (s : State) (n c : Nat) :
    (s.rendered n c).executing = s.executing := rfl
@[simp] theorem rendered_outbuf (s : State) (n c : Nat) :
    (s.rendered n c).outbuf = writeChannels s.par.nMax.toNat s.outbuf
      (oversampleBlock s.par s.chain (mixBlock s.par s.fs n s.bank s.freeIdx).samples).1 c := rfl
@[simp] theorem rendered_par (s : State) (n c : Nat) :
    (s.rendered n c).par = s.par := rfl
@[simp] theorem rendered_freeIdx (s : State) (n c : Nat) :
    (s.rendered n c).freeIdx = (mixBlock s.par s.fs n s.bank s.freeIdx).next := rfl
@[simp] theorem rendered_pending (s : State) (n c : Nat) :
    (s.rendered n c).pending = s.pending := rfl
@[simp] theorem rendered_turns (s : State) (n c : Nat) :
    (s.rendered n c).turns = s.turns := rfl
@[simp] theorem rendered_rdata (s : State) (n c : Nat) :
    (s.rendered n c).rdata = s.rdata := rfl

/-! ### The oscillator a selector names -/

@[simp] theorem Bank.get_set_same (b : Bank) (k : OscId) (o : Osc) : (b.set k o).get k = o := by
  cases k <;> rfl

theorem Bank.get_set_other (b : Bank) {k j : OscId} (o : Osc) (h : j ≠ k) :
    (b.set k o).get j = b.get j := by
  cases k <;> cases j <;> first | rfl | exact absurd rfl h

/-! ### Oscillator records -/

@[simp] theorem Osc.ramp_kind (p : Params) (o : Osc) : (o.ramp p).kind = o.kind := rfl
@[simp] theorem Osc.ramp_freq (p : Params) (o : Osc) : (o.ramp p).freq = o.freq := rfl
@[simp] theorem Osc.ramp_target (p : Params) (o : Osc) : (o.ramp p).target = o.target := rfl
@[simp] theorem Osc.ramp_current (p : Params) (o : Osc) :
    (o.ramp p).current = rampLevel p o.target o.current := rfl

@[simp] theorem Osc.setFrequency_kind (o : Osc) (f : Word) : (o.setFrequency f).kind = o.kind := by
  unfold Osc.setFrequency; split <;> rfl
@[simp] theorem Osc.setFrequency_target (o : Osc) (f : Word) :
    (o.setFrequency f).target = o.target := by
  unfold Osc.setFrequency; split <;> rfl
@[simp] theorem Osc.setFrequency_current (o : Osc) (f : Word) :
    (o.setFrequency f).current = o.current := by
  unfold Osc.setFrequency; split <;> rfl
theorem Osc.setFrequency_freq (o : Osc) (f : Word) :
    (o.setFrequency f).freq = if freqAccepted f then f else o.freq := by
  unfold Osc.setFrequency; split <;> rfl

@[simp] theorem Osc.setLevel_kind (o : Osc) (l : Word) : (o.setLevel l).kind = o.kind := by
  unfold Osc.setLevel; split <;> rfl
@[simp] theorem Osc.setLevel_freq (o : Osc) (l : Word) : (o.setLevel l).freq = o.freq := by
  unfold Osc.setLevel; split <;> rfl
@[simp] theorem Osc.setLevel_current (o : Osc) (l : Word) : (o.setLevel l).current = o.current := by
  unfold Osc.setLevel; split <;> rfl
theorem Osc.setLevel_target (o : Osc) (l : Word) :
    (o.setLevel l).target = if levelAccepted l then l else o.target := by
  unfold Osc.setLevel; split <;> rfl

/-! ### Filter records -/

@[simp] theorem Stage.process_cutoff (nan : Word) (f : Stage) (x : Word) :
    (f.process nan x).2.cutoff = f.cutoff := rfl
@[simp] theorem Stage.process_b0 (nan : Word) (f : Stage) (x : Word) :
    (f.process nan x).2.b0 = f.b0 := rfl
@[simp] theorem Stage.process_b1 (nan : Word) (f : Stage) (x : Word) :
    (f.process nan x).2.b1 = f.b1 := rfl
@[simp] theorem Stage.process_a1 (nan : Word) (f : Stage) (x : Word) :
    (f.process nan x).2.a1 = f.a1 := rfl
@[simp] theorem Stage.process_x1 (nan : Word) (f : Stage) (x : Word) :
    (f.process nan x).2.x1 = x := rfl
@[simp] theorem Stage.process_y1 (nan : Word) (f : Stage) (x : Word) :
    (f.process nan x).2.y1 = (f.process nan x).1 := rfl

@[simp] theorem Stage.clear_cutoff (f : Stage) : f.clear.cutoff = f.cutoff := rfl
@[simp] theorem Stage.clear_b0 (f : Stage) : f.clear.b0 = f.b0 := rfl
@[simp] theorem Stage.clear_b1 (f : Stage) : f.clear.b1 = f.b1 := rfl
@[simp] theorem Stage.clear_a1 (f : Stage) : f.clear.a1 = f.a1 := rfl
@[simp] theorem Stage.clear_x1 (f : Stage) : f.clear.x1 = F32.zero := rfl
@[simp] theorem Stage.clear_y1 (f : Stage) : f.clear.y1 = F32.zero := rfl

@[simp] theorem Stage.snap_cutoff (f : Stage) : f.snap.cutoff = f.cutoff := rfl
@[simp] theorem Stage.snap_b0 (f : Stage) : f.snap.b0 = f.b0 := rfl
@[simp] theorem Stage.snap_b1 (f : Stage) : f.snap.b1 = f.b1 := rfl
@[simp] theorem Stage.snap_a1 (f : Stage) : f.snap.a1 = f.a1 := rfl
@[simp] theorem Stage.snap_x1 (f : Stage) : f.snap.x1 = snapValue f.x1 := rfl
@[simp] theorem Stage.snap_y1 (f : Stage) : f.snap.y1 = snapValue f.y1 := rfl

@[simp] theorem Stage.design_cutoff (p : Params) (k : FilterKind) (fs : Word) (f : Stage) :
    (f.design p k fs).cutoff = f.cutoff := rfl
@[simp] theorem Stage.design_x1 (p : Params) (k : FilterKind) (fs : Word) (f : Stage) :
    (f.design p k fs).x1 = f.x1 := rfl
@[simp] theorem Stage.design_y1 (p : Params) (k : FilterKind) (fs : Word) (f : Stage) :
    (f.design p k fs).y1 = f.y1 := rfl

end Sys2Proof.Machine
end

