-- ==== Sys2Proof/Laws/Filter.lean ====
section
/-! SUPPORT. What the filter and oversampler operations can do: they change nothing of a stage but its delay
state, and give one output sample for each input sample. -/

namespace Sys2Proof.Machine

theorem SameButDelay.refl (f : Stage) : SameButDelay f f := ⟨rfl, rfl, rfl, rfl⟩

theorem SameButDelay.trans {f g h : Stage} (a : SameButDelay f g) (b : SameButDelay g h) :
    SameButDelay f h :=
  ⟨b.cutoff.trans a.cutoff, b.b0.trans a.b0, b.b1.trans a.b1, b.a1.trans a.a1⟩

theorem SameButDelay.symm {f g : Stage} (a : SameButDelay f g) : SameButDelay g f :=
  ⟨a.cutoff.symm, a.b0.symm, a.b1.symm, a.a1.symm⟩

theorem ChainSameButDelay.refl (ch : Chain) : ChainSameButDelay ch ch := ⟨.refl _, .refl _⟩

theorem ChainSameButDelay.trans {a b c : Chain} (h : ChainSameButDelay a b) (h' : ChainSameButDelay b c) :
    ChainSameButDelay a c := ⟨h.1.trans h'.1, h.2.trans h'.2⟩

theorem Stage.process_sameButDelay (nan : Word) (f : Stage) (x : Word) :
    SameButDelay f (f.process nan x).2 := ⟨rfl, rfl, rfl, rfl⟩

theorem Chain.process_sameButDelay (nan : Word) (ch : Chain) (x : Word) :
    ChainSameButDelay ch (ch.process nan x).2 := ⟨⟨rfl, rfl, rfl, rfl⟩, ⟨rfl, rfl, rfl, rfl⟩⟩

theorem Chain.clear_sameButDelay (ch : Chain) : ChainSameButDelay ch ch.clear :=
  ⟨⟨rfl, rfl, rfl, rfl⟩, ⟨rfl, rfl, rfl, rfl⟩⟩

theorem Chain.snap_sameButDelay (ch : Chain) : ChainSameButDelay ch ch.snap :=
  ⟨⟨rfl, rfl, rfl, rfl⟩, ⟨rfl, rfl, rfl, rfl⟩⟩

theorem clipStep_sameButDelay (p : Params) (even : Bool) (ch : Chain) (x : Word) :
    ChainSameButDelay ch (clipStep p even ch x).2 := by
  have h1 : ChainSameButDelay ch (if p.resetPolicy = .perPair ∧ even = true then ch.clear else ch) := by
    split
    · exact ch.clear_sameButDelay
    · exact .refl ch
  refine (h1.trans (Chain.process_sameButDelay p.nanValue _ x)).trans ?_
  unfold clipStep
  by_cases hodd : p.resetPolicy = .perPair ∧ even = false
  · simp only [if_pos hodd]; exact Chain.snap_sameButDelay _
  · simp only [if_neg hodd]; exact .refl _

theorem clipLoop_sameButDelay (p : Params) (even : Bool) (ch : Chain) (xs : List Word) :
    ChainSameButDelay ch (clipLoop p even ch xs).2 := by
  induction xs generalizing even ch with
  | nil => exact .refl ch
  | cons x xs ih => exact (clipStep_sameButDelay p even ch x).trans (ih _ _)

/-- `filterAndClip` changes only delay state (R161 to R163, R191). -/
theorem filterAndClip_sameButDelay (p : Params) (ch : Chain) (xs : List Word) :
    ChainSameButDelay ch (filterAndClip p ch xs).2 := by
  unfold filterAndClip
  cases p.resetPolicy with
  | perBlock =>
    exact (ch.clear_sameButDelay.trans (clipLoop_sameButDelay p true _ xs)).trans
      (Chain.snap_sameButDelay _)
  | perPair => exact clipLoop_sameButDelay p true ch xs

theorem oversampleBlock_sameButDelay (p : Params) (ch : Chain) (xs : List Word) :
    ChainSameButDelay ch (oversampleBlock p ch xs).2 := filterAndClip_sameButDelay p ch _

@[simp] theorem Chain.through_nil (nan : Word) (ch : Chain) : ch.through nan [] = ch := rfl

/-- One more sample first is `chainProcess` of it first (R167). -/
@[simp] theorem Chain.through_cons (nan : Word) (ch : Chain) (x : Word) (xs : List Word) :
    ch.through nan (x :: xs) = (ch.process nan x).2.through nan xs := rfl

theorem Chain.through_append (nan : Word) (ch : Chain) (xs ys : List Word) :
    ch.through nan (xs ++ ys) = (ch.through nan xs).through nan ys := by
  induction xs generalizing ch with
  | nil => rfl
  | cons x xs ih => exact ih _

theorem Chain.through_sameButDelay (nan : Word) (ch : Chain) (xs : List Word) :
    ChainSameButDelay ch (ch.through nan xs) := by
  induction xs generalizing ch with
  | nil => exact .refl ch
  | cons x xs ih => exact (Chain.process_sameButDelay nan ch x).trans (ih _)

theorem length_zeroStuff (xs : List Word) : (zeroStuff xs).length = 2 * xs.length := by
  induction xs with
  | nil => rfl
  | cons x xs ih => simp [zeroStuff, ih]; omega

theorem length_clipLoop (p : Params) (even : Bool) (ch : Chain) (xs : List Word) :
    (clipLoop p even ch xs).1.length = xs.length := by
  induction xs generalizing even ch with
  | nil => rfl
  | cons x xs ih => simp [clipLoop, ih]

theorem length_filterAndClip (p : Params) (ch : Chain) (xs : List Word) :
    (filterAndClip p ch xs).1.length = xs.length := by
  unfold filterAndClip
  cases p.resetPolicy <;> exact length_clipLoop p true _ xs

theorem length_decimate (n : Nat) (zs : List Word) (h : zs.length = 2 * n) :
    (decimate zs).length = n := by
  induction n generalizing zs with
  | zero =>
    have : zs = [] := List.length_eq_zero_iff.mp (by omega)
    subst this; rfl
  | succ n ih =>
    match zs, h with
    | [], h => simp at h
    | [z], h => simp at h; omega
    | z :: y :: rest, h =>
      simp only [List.length_cons] at h
      simp [decimate, ih rest (by omega)]

/-- A block has one output sample for each mix sample (R192, R193). -/
theorem length_oversampleBlock (p : Params) (ch : Chain) (xs : List Word) :
    (oversampleBlock p ch xs).1.length = xs.length :=
  length_decimate _ _ (by rw [length_filterAndClip, length_zeroStuff])

end Sys2Proof.Machine
end

