-- ==== Sys2Proof/Laws/Float.lean ====
section
/-! SUPPORT. The laws of the binary32 arithmetic: a word is its sign and its magnitude pattern, rounding is
exact on representable values and monotone, the pattern order is the order of values. -/

namespace Sys2Proof.F32

theorem mag_lt (w : Word) : mag w < 2 ^ 31 := Nat.mod_lt _ (by decide)

theorem sign_eq (w : Word) : sign w = decide (2 ^ 31 ≤ w.toNat) := BitVec.msb_eq_decide w

theorem toNat_pack {n : Bool} {m : Nat} (h : m < 2 ^ 31) :
    (pack n m).toNat = if n then 2 ^ 31 + m else m := by
  unfold pack
  rw [BitVec.toNat_ofNat]
  cases n
  · exact Nat.mod_eq_of_lt (by simpa using h.trans (by decide))
  · exact Nat.mod_eq_of_lt (by simp; omega)

@[simp] theorem mag_pack {n : Bool} {m : Nat} (h : m < 2 ^ 31) : mag (pack n m) = m := by
  unfold mag
  rw [toNat_pack h]
  cases n
  · exact Nat.mod_eq_of_lt h
  · simpa using Nat.mod_eq_of_lt h

@[simp] theorem sign_pack {n : Bool} {m : Nat} (h : m < 2 ^ 31) : sign (pack n m) = n := by
  rw [sign_eq, toNat_pack h]
  cases n
  · simpa using h
  · simp

/-- A word is its sign and its magnitude pattern. -/
theorem pack_sign_mag (w : Word) : pack (sign w) (mag w) = w := by
  apply BitVec.eq_of_toNat_eq
  have hw := w.isLt
  rw [toNat_pack (mag_lt w), sign_eq]
  unfold mag
  by_cases h : 2 ^ 31 ≤ w.toNat
  · rw [if_pos (by simpa using h)]; omega
  · rw [if_neg (by simpa using h)]; omega

theorem ext_word {a b : Word} (hs : sign a = sign b) (hm : mag a = mag b) : a = b := by
  rw [← pack_sign_mag a, ← pack_sign_mag b, hs, hm]

@[simp] theorem sign_neg (w : Word) : sign (neg w) = !sign w := by
  unfold sign neg
  rw [BitVec.msb_xor, show (0x80000000#32).msb = true by decide, Bool.xor_true]

@[simp] theorem mag_neg (w : Word) : mag (neg w) = mag w := by
  have h : ∀ x : Word, mag x = (x &&& 0x7FFFFFFF#32).toNat := by
    intro x
    rw [BitVec.toNat_and]
    exact (Nat.and_two_pow_sub_one_eq_mod x.toNat 31).symm
  rw [h, h]
  congr 1
  unfold neg
  ext i hi
  interval_cases i <;> simp

@[simp] theorem neg_neg (w : Word) : neg (neg w) = w := ext_word (by simp) (by simp)

@[simp] theorem isNaN_neg (w : Word) : isNaN (neg w) = isNaN w := by simp [isNaN]
@[simp] theorem isInf_neg (w : Word) : isInf (neg w) = isInf w := by simp [isInf]
@[simp] theorem isFinite_neg (w : Word) : isFinite (neg w) = isFinite w := by simp [isFinite]
@[simp] theorem isZero_neg (w : Word) : isZero (neg w) = isZero w := by simp [isZero]
@[simp] theorem units_neg (w : Word) : units (neg w) = units w := by simp [units]

@[simp] theorem key_neg (w : Word) : key (neg w) = -key w := by
  unfold key
  rw [sign_neg, mag_neg]
  cases sign w <;> simp

@[simp] theorem val_neg (w : Word) : val (neg w) = -val w := by
  unfold val
  rw [sign_neg, units_neg]
  cases sign w <;> simp

/-- A value is finite, infinite or a NaN. -/
theorem finite_or_inf_or_nan (w : Word) :
    isFinite w = true ∨ isInf w = true ∨ isNaN w = true := by
  simp only [isFinite, isInf, isNaN, decide_eq_true_eq]
  omega

theorem not_nan_of_finite {w : Word} (h : isFinite w = true) : isNaN w = false := by
  simp only [isFinite, isNaN, decide_eq_true_eq, decide_eq_false_iff_not] at h ⊢
  omega

theorem not_inf_of_finite {w : Word} (h : isFinite w = true) : isInf w = false := by
  simp only [isFinite, isInf, decide_eq_true_eq, decide_eq_false_iff_not] at h ⊢
  omega

/-! ### Comparisons -/

theorem lt_iff {a b : Word} : lt a b = true ↔ isNaN a = false ∧ isNaN b = false ∧ key a < key b := by
  simp [lt, and_assoc]

theorem le_iff {a b : Word} : le a b = true ↔ isNaN a = false ∧ isNaN b = false ∧ key a ≤ key b := by
  simp [le, and_assoc]

theorem le_chain {a b c : Word} (h : le a b = true) (h' : le b c = true) : le a c = true := by
  rw [le_iff] at *
  exact ⟨h.1, h'.2.1, h.2.2.trans h'.2.2⟩

theorem le_of_lt {a b : Word} (h : lt a b = true) : le a b = true := by
  rw [lt_iff] at h
  rw [le_iff]
  exact ⟨h.1, h.2.1, h.2.2.le⟩

theorem le_self {a : Word} (h : isNaN a = false) : le a a = true := le_iff.mpr ⟨h, h, Int.le_refl _⟩

/-- `min(a, b)` is at most `b` when `b` is no NaN (R12). -/
theorem minimum_le_right {a b : Word} (hb : isNaN b = false) : le (minimum a b) b = true := by
  unfold minimum
  split
  · assumption
  · exact le_self hb

/-! ### Rounding to the nearest whole number -/

/-- The nearest whole number is within a half, and a tie gives an even one. -/
theorem roundNearest_spec (n : Nat) {d : Nat} (hd : 0 < d) :
    (2 * n ≤ (2 * roundNearest n d + 1) * d ∧
      (2 * n = (2 * roundNearest n d + 1) * d → roundNearest n d % 2 = 0)) ∧
    (2 * roundNearest n d * d ≤ 2 * n + d ∧
      (2 * roundNearest n d * d = 2 * n + d → roundNearest n d % 2 = 0)) := by
  have hdiv := Nat.div_add_mod n d
  have hmod := Nat.mod_lt n hd
  generalize hq : n / d = q at *
  generalize hr : n % d = r at *
  have hn : n = q * d + r := by rw [← hdiv, Nat.mul_comm]
  subst hn
  simp only [roundNearest, hq, hr]
  split
  · rename_i h
    refine ⟨⟨by ring_nf; omega, fun h' => ?_⟩, by ring_nf; omega, fun h' => ?_⟩ <;>
      ring_nf at h' <;> omega
  · rename_i h
    refine ⟨⟨by ring_nf; omega, fun h' => ?_⟩, by ring_nf; omega, fun h' => ?_⟩ <;>
      ring_nf at h' <;> omega

/-- A whole number is its own nearest. -/
theorem roundNearest_exact (q : Nat) {d : Nat} (hd : 0 < d) : roundNearest (q * d) d = q := by
  unfold roundNearest
  rw [Nat.mul_div_cancel q hd, Nat.mul_mod_left]
  simp
  omega

theorem div_le_roundNearest (n d : Nat) : n / d ≤ roundNearest n d := by
  unfold roundNearest
  simp only
  split <;> omega

theorem roundNearest_le (n d : Nat) : roundNearest n d ≤ n / d + 1 := by
  unfold roundNearest
  simp only
  split <;> omega

/-- Rounding a larger ratio gives no smaller whole number. -/
theorem roundNearest_mono {n d n' d' : Nat} (hd : 0 < d) (hd' : 0 < d') (h : n * d' ≤ n' * d) :
    roundNearest n d ≤ roundNearest n' d' := by
  obtain ⟨-, hlo, hlo'⟩ := roundNearest_spec n hd
  obtain ⟨⟨hhi, hhi'⟩, -⟩ := roundNearest_spec n' hd'
  generalize roundNearest n d = r at *
  generalize roundNearest n' d' = r' at *
  by_contra hlt
  push Not at hlt
  have h1 : 2 * r * d * d' ≤ (2 * n + d) * d' := Nat.mul_le_mul_right d' hlo
  have h2 : 2 * n' * d ≤ (2 * r' + 1) * d' * d := Nat.mul_le_mul_right d hhi
  have h3 : (2 * (r' + 1)) * (d * d') ≤ 2 * r * (d * d') := Nat.mul_le_mul_right _ (by omega)
  have hpos : 0 < d * d' := Nat.mul_pos hd hd'
  have e1 : 2 * r * (d * d') = 2 * r * d * d' := by ring
  have e2 : (2 * n + d) * d' = 2 * (n * d') + d * d' := by ring
  have e3 : (2 * r' + 1) * d' * d = (2 * r' + 1) * (d * d') := by ring
  have e4 : (2 * (r' + 1)) * (d * d') = (2 * r' + 1) * (d * d') + d * d' := by ring
  have e5 : 2 * n' * d = 2 * (n' * d) := by ring
  have eqr : 2 * r * (d * d') = (2 * (r' + 1)) * (d * d') := by omega
  have hr : r = r' + 1 := by
    have := Nat.eq_of_mul_eq_mul_right hpos eqr
    omega
  have t1 : 2 * r * d * d' = (2 * n + d) * d' := by omega
  have t2 : 2 * n' * d = (2 * r' + 1) * d' * d := by omega
  have p1 := hlo' (Nat.eq_of_mul_eq_mul_right hd' t1)
  have p2 := hhi' (Nat.eq_of_mul_eq_mul_right hd t2)
  omega

/-! ### Rounding to a magnitude pattern -/

theorem roundMag_le (n d : Nat) : roundMag n d ≤ infMag := Nat.min_le_right _ _

theorem roundMag_lt (n d : Nat) : roundMag n d < 2 ^ 31 :=
  Nat.lt_of_le_of_lt (roundMag_le n d) (by decide)

@[simp] theorem mag_rne (s : Bool) (n d : Nat) : mag (rne s n d) = roundMag n d :=
  mag_pack (roundMag_lt n d)

@[simp] theorem sign_rne (s : Bool) (n d : Nat) : sign (rne s n d) = s := sign_pack (roundMag_lt n d)

/-- A rounded value is never a NaN (R11). -/
@[simp] theorem isNaN_rne (s : Bool) (n d : Nat) : isNaN (rne s n d) = false := by
  simp [isNaN, roundMag_le]

theorem log2_mono {a b : Nat} (h : a ≤ b) : a.log2 ≤ b.log2 := by
  rcases Nat.eq_zero_or_pos a with rfl | ha
  · simp
  · exact (Nat.le_log2 (by omega)).mpr ((Nat.log2_self_le (by omega)).trans h)

/-- The significand of a rounded magnitude is at most 2^24. -/
theorem roundNearest_shift_le (n d : Nat) :
    roundNearest n (d * 2 ^ roundShift n d) ≤ 2 ^ 24 := by
  have h1 : n / d < 2 ^ 24 * 2 ^ roundShift n d := by
    rcases Nat.eq_zero_or_pos (n / d) with h | h
    · rw [h]; positivity
    · have := Nat.lt_log2_self (n := n / d)
      refine this.trans_le ?_
      rw [← Nat.pow_add]
      exact Nat.pow_le_pow_right (by decide) (by unfold roundShift; omega)
  have h2 : n / (d * 2 ^ roundShift n d) < 2 ^ 24 := by
    rw [← Nat.div_div_eq_div_mul]
    exact Nat.div_lt_of_lt_mul (by rw [Nat.mul_comm]; exact h1)
  exact (roundNearest_le _ _).trans h2

/-- Above the lowest binade the significand of a rounded magnitude is at least 2^23. -/
theorem le_roundNearest_shift {n d : Nat} (h : 0 < roundShift n d) :
    2 ^ 23 ≤ roundNearest n (d * 2 ^ roundShift n d) := by
  have h0 : n / d ≠ 0 := by
    intro h0
    simp [roundShift, h0] at h
  have h1 : 2 ^ 23 * 2 ^ roundShift n d ≤ n / d := by
    rw [← Nat.pow_add]
    refine Nat.le_trans (Nat.pow_le_pow_right (by decide) ?_) (Nat.log2_self_le h0)
    unfold roundShift at *
    omega
  have h2 : 2 ^ 23 ≤ n / (d * 2 ^ roundShift n d) := by
    rw [← Nat.div_div_eq_div_mul]
    exact (Nat.le_div_iff_mul_le (by positivity)).mpr h1
  exact h2.trans (div_le_roundNearest _ _)

/-- Rounding is monotone (R11): a larger ratio of units gives no smaller magnitude pattern. -/
theorem roundMag_mono {n d n' d' : Nat} (hd : 0 < d) (hd' : 0 < d') (h : n * d' ≤ n' * d) :
    roundMag n d ≤ roundMag n' d' := by
  have hq : n / d ≤ n' / d' := by
    rw [Nat.le_div_iff_mul_le hd']
    refine Nat.le_of_mul_le_mul_right (?_ : n / d * d' * d ≤ n' * d) hd
    refine Nat.le_trans ?_ h
    calc n / d * d' * d = n / d * d * d' := by ring
      _ ≤ n * d' := Nat.mul_le_mul_right d' (Nat.div_mul_le_self n d)
  have hk : roundShift n d ≤ roundShift n' d' := Nat.sub_le_sub_right (log2_mono hq) 23
  refine min_le_min_right infMag ?_
  rcases Nat.lt_or_ge (roundShift n d) (roundShift n' d') with hlt | hge
  · have h1 := roundNearest_shift_le n d
    have h2 := le_roundNearest_shift (n := n') (d := d') (by omega)
    have h3 : (roundShift n d + 1) * 2 ^ 23 ≤ roundShift n' d' * 2 ^ 23 :=
      Nat.mul_le_mul_right _ hlt
    omega
  · have hk' : roundShift n d = roundShift n' d' := by omega
    have hr : roundNearest n (d * 2 ^ roundShift n d) ≤ roundNearest n' (d' * 2 ^ roundShift n' d') := by
      rw [hk']
      refine roundNearest_mono (by positivity) (by positivity) ?_
      calc n * (d' * 2 ^ roundShift n' d') = n * d' * 2 ^ roundShift n' d' := by ring
        _ ≤ n' * d * 2 ^ roundShift n' d' := Nat.mul_le_mul_right _ h
        _ = n' * (d * 2 ^ roundShift n' d') := by ring
    omega

/-- A representable magnitude is its own rounding (R11, R12): rounding is exact on binary32 values. -/
theorem roundMag_exact {m : Nat} (h : m ≤ infMag) : roundMag (magUnits m) 1 = m := by
  have key : ∀ k f, f < 2 ^ 23 → roundMag ((2 ^ 23 + f) * 2 ^ k) 1 = min (k * 2 ^ 23 + (2 ^ 23 + f)) infMag := by
    intro k f hf
    have hlog : ((2 ^ 23 + f) * 2 ^ k).log2 = 23 + k := by
      rw [Nat.log2_eq_iff (by positivity)]
      constructor
      · rw [Nat.pow_add]; exact Nat.mul_le_mul_right _ (by omega)
      · rw [show 23 + k + 1 = 24 + k by omega, Nat.pow_add]
        exact Nat.mul_lt_mul_of_pos_right (by omega) (by positivity)
    have hs : roundShift ((2 ^ 23 + f) * 2 ^ k) 1 = k := by
      unfold roundShift
      rw [Nat.div_one, hlog]
      omega
    unfold roundMag
    rw [hs, Nat.one_mul, roundNearest_exact _ (by positivity)]
  unfold magUnits
  split
  · rename_i h0
    have hm : m < 2 ^ 23 := by omega
    have hs : roundShift m 1 = 0 := by
      unfold roundShift
      rw [Nat.div_one]
      rcases Nat.eq_zero_or_pos m with rfl | hp
      · rfl
      · have : m.log2 < 23 := (Nat.log2_lt (by omega)).mpr hm
        omega
    have he : roundNearest m 1 = m := by simpa using roundNearest_exact m (d := 1) (by decide)
    unfold roundMag
    rw [hs, Nat.pow_zero, Nat.mul_one, he]
    unfold infMag at *
    omega
  · rename_i h0
    rw [key _ _ (Nat.mod_lt _ (by decide))]
    have hd := Nat.div_add_mod m (2 ^ 23)
    have h1 : (m / 2 ^ 23 - 1) * 2 ^ 23 + 2 ^ 23 = m / 2 ^ 23 * 2 ^ 23 := by
      rw [← Nat.succ_mul]
      congr 1
      omega
    omega

/-- A finite value is the rounding of its own units. -/
theorem rne_self {w : Word} (h : isFinite w = true) : rne (sign w) (units w) 1 = w := by
  simp only [isFinite, decide_eq_true_eq] at h
  unfold rne units
  rw [roundMag_exact h.le, pack_sign_mag]

/-- Larger magnitude patterns are larger magnitudes. -/
theorem magUnits_strictMono : StrictMono magUnits := by
  refine strictMono_nat_of_lt_succ (fun m => ?_)
  unfold magUnits
  have hd := Nat.div_add_mod m (2 ^ 23)
  have hm := Nat.mod_lt m (show 0 < 2 ^ 23 by decide)
  rcases Nat.lt_or_ge (m % 2 ^ 23 + 1) (2 ^ 23) with h | h
  · have h1 : (m + 1) / 2 ^ 23 = m / 2 ^ 23 := by omega
    have h2 : (m + 1) % 2 ^ 23 = m % 2 ^ 23 + 1 := by omega
    rw [h1, h2]
    split
    · omega
    · exact Nat.mul_lt_mul_of_pos_right (by omega) (by positivity)
  · have h1 : (m + 1) / 2 ^ 23 = m / 2 ^ 23 + 1 := by omega
    have h2 : (m + 1) % 2 ^ 23 = 0 := by omega
    have h3 : m % 2 ^ 23 = 2 ^ 23 - 1 := by omega
    rw [h1, h2, h3]
    split
    · rename_i h0
      rw [if_neg (by omega), h0]
      omega
    · rename_i h0
      rw [if_neg (by omega)]
      obtain ⟨e, he⟩ := Nat.exists_eq_succ_of_ne_zero h0
      rw [he]
      simp only [Nat.succ_eq_add_one, Nat.add_sub_cancel]
      rw [Nat.pow_succ]
      have hp : 0 < 2 ^ e := by positivity
      omega

/-- The order of finite values is the order of their keys (R12). -/
theorem key_lt_iff_val_lt (a b : Word) : key a < key b ↔ val a < val b := by
  have hz : ∀ m : Nat, magUnits m = 0 ↔ m = 0 := by
    intro m
    constructor
    · intro h
      by_contra hne
      have := magUnits_strictMono (Nat.pos_of_ne_zero hne)
      rw [h] at this
      omega
    · rintro rfl; rfl
  have hlt := magUnits_strictMono.lt_iff_lt (a := mag a) (b := mag b)
  have hlt' := magUnits_strictMono.lt_iff_lt (a := mag b) (b := mag a)
  have ha := hz (mag a)
  have hb := hz (mag b)
  unfold key val units
  cases sign a <;> cases sign b <;> simp <;> omega

end Sys2Proof.F32
end

