-- ==== Sys2Proof/Laws/Oscillator.lean ====
section
/-! SUPPORT. What the oscillator operations can do: the ramp's level stays legal and never passes its target,
a sample call changes nothing but the current level, a note keeps a record's other fields. -/

namespace Sys2Proof.F32

/-- A key is not negative exactly where the value is positive or a zero. -/
theorem key_nonneg_iff {w : Word} : 0 ≤ key w ↔ sign w = false ∨ mag w = 0 := by
  unfold key
  cases sign w <;> simp

theorem val_nonneg_of_key {w : Word} (h : 0 ≤ key w) : 0 ≤ val w := by
  have h0 := key_lt_iff_val_lt w zero
  have k0 : key zero = 0 := rfl
  have v0 : val zero = 0 := rfl
  omega

/-- The sum of two values that are not negative is not negative (R12). -/
theorem key_add_nonneg {nan a b : Word} (hnan : isNaN nan = true) (ha : 0 ≤ key a) (hb : 0 ≤ key b)
    (h : isNaN (add nan a b) = false) : 0 ≤ key (add nan a b) := by
  unfold add at h ⊢
  split
  · simp_all
  split
  · split
    · simp_all
    · exact ha
  split
  · exact hb
  split
  · rw [key_nonneg_iff]; right; simp
  · rw [key_nonneg_iff]
    left
    have := val_nonneg_of_key ha
    have := val_nonneg_of_key hb
    simp
    omega

end Sys2Proof.F32

namespace Sys2Proof.Machine

theorem levelAccepted_iff {l : Word} :
    levelAccepted l = true ↔ F32.le F32.zero l = true ∧ F32.le l F32.one = true := by
  simp [levelAccepted, F32.inRange]

theorem isNaN_of_levelAccepted {l : Word} (h : levelAccepted l = true) : F32.isNaN l = false :=
  (F32.le_iff.mp (levelAccepted_iff.mp h).1).2.1

/-- The ramp never passes its target from below, and snaps to it otherwise (R125). -/
theorem rampLevel_le_target {p : Params} {target current : Word} (h : F32.isNaN target = false) :
    F32.le (rampLevel p target current) target = true := by
  unfold rampLevel
  split
  · exact F32.minimum_le_right h
  · exact F32.le_self h

/-- The ramp's level is a legal level (R51(b)). -/
theorem levelAccepted_rampLevel {p : Params} (hp : p.legal = true) {target current : Word}
    (ht : levelAccepted target = true) (hc : levelAccepted current = true) :
    levelAccepted (rampLevel p target current) = true := by
  simp only [Params.legal, Bool.and_eq_true] at hp
  obtain ⟨⟨⟨⟨⟨⟨hstep, -⟩, -⟩, -⟩, -⟩, -⟩, hnan⟩ := hp
  have hle := rampLevel_le_target (p := p) (current := current) (isNaN_of_levelAccepted ht)
  rw [levelAccepted_iff]
  refine ⟨?_, F32.le_chain hle (levelAccepted_iff.mp ht).2⟩
  have hn := (F32.le_iff.mp hle).1
  unfold rampLevel at hn ⊢
  split
  · rename_i hlt
    rw [if_pos hlt] at hn
    unfold F32.minimum at hn ⊢
    split
    · rename_i hmin
      rw [if_pos hmin] at hn
      refine F32.le_iff.mpr ⟨by decide, hn, ?_⟩
      refine F32.key_add_nonneg hnan ?_ ?_ hn
      · exact (F32.le_iff.mp (levelAccepted_iff.mp hc).1).2.2
      · simp only [Params.rampStepLegal, Bool.and_eq_true] at hstep
        exact (F32.lt_iff.mp hstep.1).2.2.le
    · exact (levelAccepted_iff.mp ht).1
  · exact (levelAccepted_iff.mp ht).1

/-- A sample call returns the record with at most its current level changed, by one ramp step (R120). -/
theorem Osc.sample_osc (p : Params) (o : Osc) (t : Word) (i : Nat) :
    (o.sample p t i).osc = if o.muted then o else o.ramp p := by
  unfold Osc.sample; split <;> rfl

theorem Osc.sample_sameButCurrent (p : Params) (o : Osc) (t : Word) (i : Nat) :
    SameButCurrent o (o.sample p t i).osc := by
  rw [Osc.sample_osc]; split <;> exact ⟨rfl, rfl, rfl⟩

/-- A sample call keeps a sound record sound (R51). -/
theorem OscOk.sample {p : Params} (hp : p.legal = true) {k : OscKind} {o : Osc} (h : OscOk k o)
    (t : Word) (i : Nat) : OscOk k (o.sample p t i).osc := by
  rw [Osc.sample_osc]
  split
  · exact h
  · exact ⟨h.kind, h.freq, h.target, levelAccepted_rampLevel hp h.target h.current⟩

theorem OscOk.setFrequency {k : OscKind} {o : Osc} (h : OscOk k o) (f : Word) :
    OscOk k (o.setFrequency f) := by
  unfold Osc.setFrequency
  split
  · exact ⟨h.kind, ‹_›, h.target, h.current⟩
  · exact h

theorem OscOk.setLevel {k : OscKind} {o : Osc} (h : OscOk k o) (l : Word) : OscOk k (o.setLevel l) := by
  unfold Osc.setLevel
  split
  · exact ⟨h.kind, h.freq, ‹_›, h.current⟩
  · exact h

/-- The kind the instance gives an oscillator (R21). -/
def kindOf (p : Params) : OscId → OscKind
  | .main => p.mainKind.toKind
  | .sub => p.subKind.toKind
  | .noise => .noise

theorem BankOk.get {p : Params} {b : Bank} (h : BankOk p b) (k : OscId) : OscOk (kindOf p k) (b.get k) := by
  cases k
  · exact h.main
  · exact h.sub
  · exact h.noise

theorem BankOk.set {p : Params} {b : Bank} (h : BankOk p b) {k : OscId} {o : Osc}
    (ho : OscOk (kindOf p k) o) : BankOk p (b.set k o) := by
  cases k
  · exact ⟨ho, h.sub, h.noise⟩
  · exact ⟨h.main, ho, h.noise⟩
  · exact ⟨h.main, h.sub, ho⟩

theorem SameButCurrent.refl (o : Osc) : SameButCurrent o o := ⟨rfl, rfl, rfl⟩

theorem SameButCurrent.trans {o u v : Osc} (h : SameButCurrent o u) (h' : SameButCurrent u v) :
    SameButCurrent o v :=
  ⟨h'.kind.trans h.kind, h'.freq.trans h.freq, h'.target.trans h.target⟩

/-! ### The mixer's loop (R231) -/

/-- `mixLoop` gives one mix sample for each output sample (R134). -/
theorem length_mixLoop (p : Params) (dt : Word) (n : Nat) (t : Word) (b : Bank) (i : Nat) :
    (mixLoop p dt n t b i).samples.length = n := by
  induction n generalizing t b i with
  | zero => rfl
  | succ n ih => simp [mixLoop, ih]

theorem mixLoop_sameButCurrent (p : Params) (dt : Word) (n : Nat) (t : Word) (b : Bank) (i : Nat) :
    SameButCurrent b.main (mixLoop p dt n t b i).bank.main ∧
      SameButCurrent b.sub (mixLoop p dt n t b i).bank.sub ∧
      SameButCurrent b.noise (mixLoop p dt n t b i).bank.noise := by
  induction n generalizing t b i with
  | zero => exact ⟨.refl _, .refl _, .refl _⟩
  | succ n ih =>
    obtain ⟨h1, h2, h3⟩ := ih (F32.add p.nanValue t dt)
      ⟨(b.main.sample p t i).osc, (b.sub.sample p t (b.main.sample p t i).next).osc,
        (b.noise.sample p t (b.sub.sample p t (b.main.sample p t i).next).next).osc⟩
      (b.noise.sample p t (b.sub.sample p t (b.main.sample p t i).next).next).next
    exact ⟨(Osc.sample_sameButCurrent p b.main t _).trans h1,
      (Osc.sample_sameButCurrent p b.sub t _).trans h2,
      (Osc.sample_sameButCurrent p b.noise t _).trans h3⟩

/-- The mixer keeps sound records sound (R51). -/
theorem BankOk.mixLoop {p : Params} (hp : p.legal = true) {b : Bank} (h : BankOk p b) (dt : Word)
    (n : Nat) (t : Word) (i : Nat) : BankOk p (mixLoop p dt n t b i).bank := by
  induction n generalizing t b i with
  | zero => exact h
  | succ n ih => exact ih ⟨h.main.sample hp t _, h.sub.sample hp t _, h.noise.sample hp t _⟩ _ _

end Sys2Proof.Machine
end

