-- ==== Sys2Proof/Laws/Exec.lean ====
section
/-! SUPPORT. What a command can do: each meaning's answer as an equation, and, once for all of them, that a
command answers a next state and leaves what lies outside the engine alone (R33, R76). -/

namespace Sys2Proof.Machine

theorem SameOutside.refl (s : State) : SameOutside s s := ⟨rfl, rfl, rfl, rfl, rfl, rfl, rfl, rfl⟩

theorem execPrepare_accepted {fs : Word} (h : rateAccepted fs = true) (hint : Word) (s : State) :
    execPrepare fs hint s =
      .next { s with fs := fs, hint := hint, prepared := true,
                     chain := s.chain.clear.design s.par fs } := if_pos h

theorem execPrepare_rejected {fs : Word} (h : rateAccepted fs = false) (hint : Word) (s : State) :
    execPrepare fs hint s = .next s := if_neg (by simpa [asF32] using h)

theorem execSetCutoff_accepted {hz : Word} (h : cutoffAccepted hz = true) (s : State) :
    execSetCutoff hz s = .next { s with chain := { s.chain with lp := s.retuned hz } } := if_pos h

theorem execSetCutoff_rejected {hz : Word} (h : cutoffAccepted hz = false) (s : State) :
    execSetCutoff hz s = .next s := if_neg (by simpa [asF32] using h)

/-- RENDER past the block limits (R227). -/
theorem execRender_rejected {n c : Word} {s : State}
    (h : blockAccepted s.par n.toNat c.toNat = false) : execRender n c s = .next s :=
  if_neg (by simpa [asU32] using h)

/-- RENDER before PREPARE, or gated (R229, R233). -/
theorem execRender_zeroFilled {n c : Word} {s : State}
    (h : blockAccepted s.par n.toNat c.toNat = true)
    (hz : s.prepared = false ∨ (s.gate = true ∧ s.active = false)) :
    execRender n c s = .next (s.zeroFilled n.toNat c.toNat) := by
  unfold execRender asU32
  rw [if_pos h]
  rcases hz with hp | ⟨hg, ha⟩
  · simp [hp]
  · simp [hg, ha]

/-- RENDER with its work done (R226). -/
theorem execRender_rendered {n c : Word} {s : State}
    (h : blockAccepted s.par n.toNat c.toNat = true) (hp : s.prepared = true)
    (hg : s.gate = false ∨ s.active = true) :
    execRender n c s = .next (s.rendered n.toNat c.toNat) := by
  unfold execRender asU32
  rw [if_pos h, if_pos hp]
  rcases hg with hg | hg <;> simp [hg]

/-- The three ways RENDER ends (R226). -/
theorem execRender_cases (n c : Word) (s : State) :
    execRender n c s = .next s ∨
    (blockAccepted s.par n.toNat c.toNat = true ∧
      execRender n c s = .next (s.zeroFilled n.toNat c.toNat)) ∨
    (blockAccepted s.par n.toNat c.toNat = true ∧ s.prepared = true ∧
      execRender n c s = .next (s.rendered n.toNat c.toNat)) := by
  cases hb : blockAccepted s.par n.toNat c.toNat with
  | false => exact .inl (execRender_rejected hb)
  | true =>
    cases hp : s.prepared with
    | false => exact .inr (.inl ⟨rfl, execRender_zeroFilled hb (.inl hp)⟩)
    | true =>
      by_cases hg : s.gate = true ∧ s.active = false
      · exact .inr (.inl ⟨rfl, execRender_zeroFilled hb (.inr hg)⟩)
      · refine .inr (.inr ⟨rfl, rfl, execRender_rendered hb hp ?_⟩)
        cases hg' : s.gate <;> cases ha : s.active <;> simp_all

/-- A command answers a next state and leaves the operand registers, the queue, the parameters and the host's
side alone (R33, R76, R260). -/
theorem exec_next (i : Instr) (s : State) : ∃ t, exec i s = .next t ∧ SameOutside s t := by
  cases i with
  | nop => exact ⟨s, rfl, .refl s⟩
  | prepare fs hint =>
    cases h : rateAccepted fs with
    | true => exact ⟨_, execPrepare_accepted h hint s, ⟨rfl, rfl, rfl, rfl, rfl, rfl, rfl, rfl⟩⟩
    | false => exact ⟨s, execPrepare_rejected h hint s, .refl s⟩
  | noteon f v => exact ⟨_, rfl, ⟨rfl, rfl, rfl, rfl, rfl, rfl, rfl, rfl⟩⟩
  | noteoff n v => exact ⟨_, rfl, ⟨rfl, rfl, rfl, rfl, rfl, rfl, rfl, rfl⟩⟩
  | setlevel k l => exact ⟨_, rfl, ⟨rfl, rfl, rfl, rfl, rfl, rfl, rfl, rfl⟩⟩
  | setfreq k f => exact ⟨_, rfl, ⟨rfl, rfl, rfl, rfl, rfl, rfl, rfl, rfl⟩⟩
  | setcutoff hz =>
    cases h : cutoffAccepted hz with
    | true => exact ⟨_, execSetCutoff_accepted h s, ⟨rfl, rfl, rfl, rfl, rfl, rfl, rfl, rfl⟩⟩
    | false => exact ⟨s, execSetCutoff_rejected h s, .refl s⟩
  | render n c =>
    rcases execRender_cases n c s with h | ⟨-, h⟩ | ⟨-, -, h⟩
    · exact ⟨s, h, .refl s⟩
    · exact ⟨_, h, ⟨rfl, rfl, rfl, rfl, rfl, rfl, rfl, rfl⟩⟩
    · exact ⟨_, h, ⟨rfl, rfl, rfl, rfl, rfl, rfl, rfl, rfl⟩⟩
  | setmode g => exact ⟨_, rfl, ⟨rfl, rfl, rfl, rfl, rfl, rfl, rfl, rfl⟩⟩

end Sys2Proof.Machine
end

