-- ==== Sys2Proof/Laws/Memory.lean ====
section
/-! SUPPORT. The laws of OUTBUF's memory: every write keeps the canonical form, a read after a write to the same
place gives the value written, and a write leaves every other place alone; for one byte, one bus word, one
channel and a block of channels. -/

namespace Sys2Proof.Machine

namespace Memory

theorem risingFrom_mono {lo hi : Nat} (h : lo ≤ hi) {m : Memory} (hm : risingFrom hi m = true) :
    risingFrom lo m = true := by
  cases m with
  | nil => rfl
  | cons c rest =>
    simp only [risingFrom, Bool.and_eq_true, decide_eq_true_eq] at hm ⊢
    exact ⟨⟨by omega, hm.1.2⟩, hm.2⟩

theorem risingFrom_putCell {a lo : Nat} (h : lo ≤ a) (v : Byte) {m : Memory}
    (hm : risingFrom (a + 1) m = true) : risingFrom lo (putCell a v m) = true := by
  unfold putCell
  split
  · exact risingFrom_mono (by omega) hm
  · simp_all [risingFrom]

theorem risingFrom_writeByte {lo : Nat} (m : Memory) (hm : risingFrom lo m = true) (a : Nat)
    (ha : lo ≤ a) (v : Byte) : risingFrom lo (writeByte m a v) = true := by
  induction m generalizing lo with
  | nil => exact risingFrom_putCell ha v rfl
  | cons c rest ih =>
    obtain ⟨x, b⟩ := c
    simp only [risingFrom, Bool.and_eq_true, decide_eq_true_eq] at hm
    obtain ⟨⟨hx, hb⟩, hr⟩ := hm
    simp only [writeByte]
    split
    · refine risingFrom_putCell ha v ?_
      simp only [risingFrom, Bool.and_eq_true, decide_eq_true_eq]
      exact ⟨⟨by omega, hb⟩, hr⟩
    · split
      · subst x; exact risingFrom_putCell ha v hr
      · simp only [risingFrom, Bool.and_eq_true, decide_eq_true_eq]
        exact ⟨⟨hx, hb⟩, ih hr (by omega)⟩

/-- A byte write keeps the canonical form. -/
theorem wf_writeByte {m : Memory} (hm : wf m = true) (a : Nat) (v : Byte) :
    wf (writeByte m a v) = true := risingFrom_writeByte m hm a (Nat.zero_le a) v

/-- A word write keeps the canonical form. -/
theorem wf_writeWord {m : Memory} (hm : wf m = true) (a : Nat) (w : Word) :
    wf (writeWord m a w) = true :=
  wf_writeByte (wf_writeByte (wf_writeByte (wf_writeByte hm _ _) _ _) _ _) _ _

theorem readByte_of_risingFrom {lo a : Nat} (h : a < lo) {m : Memory} (hm : risingFrom lo m = true) :
    readByte m a = unlisted := by
  induction m generalizing lo with
  | nil => rfl
  | cons c rest ih =>
    obtain ⟨x, b⟩ := c
    simp only [risingFrom, Bool.and_eq_true, decide_eq_true_eq] at hm
    simp only [readByte]
    rw [if_neg (by omega)]
    exact ih (by omega) hm.2

theorem readByte_putCell (a : Nat) (v : Byte) {m : Memory} (hm : risingFrom (a + 1) m = true)
    (x : Nat) : readByte (putCell a v m) x = if x = a then v else readByte m x := by
  unfold putCell
  by_cases hv : v = unlisted
  · rw [if_pos hv]
    split
    · subst x; rw [readByte_of_risingFrom (by omega) hm, hv]
    · rfl
  · rw [if_neg hv]
    simp only [readByte, eq_comm]

theorem readByte_writeByte_of_rising {lo : Nat} (m : Memory) (hm : risingFrom lo m = true) (a : Nat)
    (v : Byte) (x : Nat) : readByte (writeByte m a v) x = if x = a then v else readByte m x := by
  induction m generalizing lo with
  | nil => exact readByte_putCell a v (m := []) rfl x
  | cons c rest ih =>
    obtain ⟨y, b⟩ := c
    simp only [risingFrom, Bool.and_eq_true, decide_eq_true_eq] at hm
    obtain ⟨⟨hy, hb⟩, hr⟩ := hm
    simp only [writeByte]
    split
    · rename_i hlt
      refine readByte_putCell a v ?_ x
      simp only [risingFrom, Bool.and_eq_true, decide_eq_true_eq]
      exact ⟨⟨by omega, hb⟩, hr⟩
    · split
      · subst a
        rw [readByte_putCell _ _ hr]
        simp only [readByte]
        split
        · rfl
        · rw [if_neg (by omega)]
      · simp only [readByte]
        split
        · rw [if_neg (by omega)]
        · exact ih hr

/-- Reading a byte after a byte write. -/
theorem readByte_writeByte {m : Memory} (hm : wf m = true) (a : Nat) (v : Byte) (x : Nat) :
    readByte (writeByte m a v) x = if x = a then v else readByte m x :=
  readByte_writeByte_of_rising m hm a v x

/-- Reading a byte after a word write: one of the four lanes, or as before. -/
theorem readByte_writeWord {m : Memory} (hm : wf m = true) (a : Nat) (w : Word) (x : Nat) :
    readByte (writeWord m a w) x =
      if x = a + 3 then w.extractLsb' 24 8
      else if x = a + 2 then w.extractLsb' 16 8
      else if x = a + 1 then w.extractLsb' 8 8
      else if x = a then w.extractLsb' 0 8
      else readByte m x := by
  unfold writeWord
  rw [readByte_writeByte (wf_writeByte (wf_writeByte (wf_writeByte hm _ _) _ _) _ _),
    readByte_writeByte (wf_writeByte (wf_writeByte hm _ _) _ _),
    readByte_writeByte (wf_writeByte hm _ _), readByte_writeByte hm]

/-- A word write leaves the bytes outside its word alone. -/
theorem readByte_writeWord_outside {m : Memory} (hm : wf m = true) {a x : Nat} (w : Word)
    (hx : x < a ∨ a + 4 ≤ x) : readByte (writeWord m a w) x = readByte m x := by
  rw [readByte_writeWord hm, if_neg (by omega), if_neg (by omega), if_neg (by omega), if_neg (by omega)]

/-- The four lanes of a word put back together. -/
theorem lanes (w : Word) :
    w.extractLsb' 24 8 ++ w.extractLsb' 16 8 ++ w.extractLsb' 8 8 ++ w.extractLsb' 0 8 = w := by
  ext i hi
  simp only [BitVec.getElem_append, BitVec.getElem_extractLsb']
  split
  · simp [BitVec.getLsbD_eq_getElem hi]
  · split
    · simp only [BitVec.getLsbD]; rw [show 8 + (i - 8) = i by omega]; rfl
    · split
      · simp only [BitVec.getLsbD]; rw [show 16 + (i - 8 - 8) = i by omega]; rfl
      · simp only [BitVec.getLsbD]; rw [show 24 + (i - 8 - 8 - 8) = i by omega]; rfl

/-- Reading the word just written. -/
theorem readWord_writeWord_same {m : Memory} (hm : wf m = true) (a : Nat) (w : Word) :
    readWord (writeWord m a w) a = w := by
  unfold readWord
  simp only [readByte_writeWord hm]
  simp [lanes]

/-- Reading a word that does not meet the word just written. -/
theorem readWord_writeWord_other {m : Memory} (hm : wf m = true) {a b : Nat} (w : Word)
    (h : b + 4 ≤ a ∨ a + 4 ≤ b) : readWord (writeWord m a w) b = readWord m b := by
  unfold readWord
  rw [readByte_writeWord_outside hm w (by omega), readByte_writeWord_outside hm w (by omega),
    readByte_writeWord_outside hm w (by omega), readByte_writeWord_outside hm w (by omega)]

end Memory

/-! ### A channel and a block of channels -/

theorem wf_writeRow {m : Memory} (hm : Memory.wf m = true) (a : Nat) (ys : List Word) :
    Memory.wf (writeRow m a ys) = true := by
  induction ys generalizing m a with
  | nil => exact hm
  | cons y ys ih => exact ih (Memory.wf_writeWord hm a y) (a + 4)

/-- A channel's write leaves the bytes outside its samples alone. -/
theorem readByte_writeRow_outside {m : Memory} (hm : Memory.wf m = true) {a x : Nat} (ys : List Word)
    (hx : x < a ∨ a + 4 * ys.length ≤ x) :
    Memory.readByte (writeRow m a ys) x = Memory.readByte m x := by
  induction ys generalizing m a with
  | nil => rfl
  | cons y ys ih =>
    simp only [List.length_cons] at hx
    rw [writeRow, ih (Memory.wf_writeWord hm a y) (by omega),
      Memory.readByte_writeWord_outside hm y (by omega)]

/-- A channel's write leaves a word before it or after it alone. -/
theorem readWord_writeRow_outside {m : Memory} (hm : Memory.wf m = true) {a b : Nat} (ys : List Word)
    (hb : b + 4 ≤ a ∨ a + 4 * ys.length ≤ b) :
    Memory.readWord (writeRow m a ys) b = Memory.readWord m b := by
  unfold Memory.readWord
  rw [readByte_writeRow_outside hm ys (by omega), readByte_writeRow_outside hm ys (by omega),
    readByte_writeRow_outside hm ys (by omega), readByte_writeRow_outside hm ys (by omega)]

/-- Sample `i` of a channel just written. -/
theorem readWord_writeRow {m : Memory} (hm : Memory.wf m = true) (a : Nat) (ys : List Word) (i : Nat)
    (hi : i < ys.length) : Memory.readWord (writeRow m a ys) (a + 4 * i) = ys[i] := by
  induction ys generalizing m a i with
  | nil => exact absurd hi (Nat.not_lt_zero i)
  | cons y ys ih =>
    cases i with
    | zero =>
      rw [writeRow, readWord_writeRow_outside (Memory.wf_writeWord hm a y) ys (by omega)]
      exact Memory.readWord_writeWord_same hm a y
    | succ i =>
      have h := ih (Memory.wf_writeWord hm a y) (a + 4) i (by simpa using hi)
      rw [show a + 4 * (i + 1) = a + 4 + 4 * i by omega]
      simpa [writeRow] using h

theorem wf_writeChannels (nMax : Nat) {m : Memory} (hm : Memory.wf m = true) (ys : List Word) (c : Nat) :
    Memory.wf (writeChannels nMax m ys c) = true := by
  induction c with
  | zero => exact hm
  | succ c ih => exact wf_writeRow ih _ ys

/-- A block's write leaves every byte alone that is in no sample it writes. -/
theorem readByte_writeChannels_outside (nMax : Nat) {m : Memory} (hm : Memory.wf m = true)
    (ys : List Word) (c x : Nat)
    (hx : ∀ k < c, x < outAddr nMax k 0 ∨ outAddr nMax k 0 + 4 * ys.length ≤ x) :
    Memory.readByte (writeChannels nMax m ys c) x = Memory.readByte m x := by
  induction c with
  | zero => rfl
  | succ c ih =>
    rw [writeChannels, readByte_writeRow_outside (wf_writeChannels nMax hm ys c) ys (hx c (by omega))]
    exact ih (fun k hk => hx k (by omega))

theorem outAddr_eq (nMax k i : Nat) : outAddr nMax k i = outAddr nMax k 0 + 4 * i := by
  unfold outAddr; omega

/-- A later channel begins past an earlier one. -/
theorem outAddr_lt {nMax k c : Nat} (h : k < c) : outAddr nMax k 0 + 4 * nMax ≤ outAddr nMax c 0 := by
  unfold outAddr
  have h1 : (k + 1) * nMax ≤ c * nMax := Nat.mul_le_mul_right nMax h
  rw [Nat.add_mul] at h1
  omega

/-- Sample `i` of any channel of a block just written (R234). -/
theorem readWord_writeChannels {nMax : Nat} {m : Memory} (hm : Memory.wf m = true) {ys : List Word}
    (hy : ys.length ≤ nMax) {c k i : Nat} (hk : k < c) (hi : i < ys.length) :
    Memory.readWord (writeChannels nMax m ys c) (outAddr nMax k i) = ys[i] := by
  induction c with
  | zero => exact absurd hk (Nat.not_lt_zero k)
  | succ c ih =>
    rcases Nat.lt_succ_iff_lt_or_eq.mp hk with h | h
    · have hlt := outAddr_lt (nMax := nMax) h
      have hword := outAddr_eq nMax k i
      rw [writeChannels, readWord_writeRow_outside (wf_writeChannels nMax hm ys c) ys (by omega)]
      exact ih h
    · subst h
      rw [writeChannels, outAddr_eq nMax k i]
      exact readWord_writeRow (wf_writeChannels nMax hm ys k) _ ys i hi

theorem wf_zeroFill (nMax : Nat) {m : Memory} (hm : Memory.wf m = true) (n c : Nat) :
    Memory.wf (zeroFill nMax m n c) = true := wf_writeChannels nMax hm _ c

/-- Every sample a zero fill addresses reads +0.0. -/
theorem readWord_zeroFill {nMax : Nat} {m : Memory} (hm : Memory.wf m = true) {n c k i : Nat}
    (hn : n ≤ nMax) (hk : k < c) (hi : i < n) :
    Memory.readWord (zeroFill nMax m n c) (outAddr nMax k i) = F32.zero := by
  unfold zeroFill
  rw [readWord_writeChannels hm (by simpa using hn) hk (by simpa using hi)]
  simp

/-! ### Where the listed cells of a written memory lie -/

theorem mem_putCell {a : Nat} {v : Byte} {m : Memory} {cell : Host.Cell}
    (h : cell ∈ Memory.putCell a v m) : cell.1 = a ∨ cell ∈ m := by
  unfold Memory.putCell at h
  split at h
  · exact .inr h
  · rcases List.mem_cons.mp h with h | h
    · exact .inl (by rw [h])
    · exact .inr h

theorem mem_writeByte {a : Nat} {v : Byte} {m : Memory} {cell : Host.Cell}
    (h : cell ∈ Memory.writeByte m a v) : cell.1 = a ∨ cell ∈ m := by
  induction m with
  | nil => exact mem_putCell h
  | cons c rest ih =>
    obtain ⟨x, b⟩ := c
    simp only [Memory.writeByte] at h
    split at h
    · exact mem_putCell h
    · split at h
      · rcases mem_putCell h with h | h
        · exact .inl h
        · exact .inr (List.mem_cons_of_mem _ h)
      · rcases List.mem_cons.mp h with h | h
        · exact .inr (h ▸ List.mem_cons_self)
        · rcases ih h with h | h
          · exact .inl h
          · exact .inr (List.mem_cons_of_mem _ h)

/-- A cell of a memory after a word write is one of the word's four or was there before. -/
theorem mem_writeWord {a : Nat} {w : Word} {m : Memory} {cell : Host.Cell}
    (h : cell ∈ Memory.writeWord m a w) : (a ≤ cell.1 ∧ cell.1 < a + 4) ∨ cell ∈ m := by
  rcases mem_writeByte h with h | h
  · exact .inl (by omega)
  rcases mem_writeByte h with h | h
  · exact .inl (by omega)
  rcases mem_writeByte h with h | h
  · exact .inl (by omega)
  rcases mem_writeByte h with h | h
  · exact .inl (by omega)
  · exact .inr h

theorem mem_writeRow {a : Nat} {ys : List Word} {m : Memory} {cell : Host.Cell}
    (h : cell ∈ writeRow m a ys) : (a ≤ cell.1 ∧ cell.1 < a + 4 * ys.length) ∨ cell ∈ m := by
  induction ys generalizing m a with
  | nil => exact .inr h
  | cons y ys ih =>
    simp only [List.length_cons]
    rcases ih h with h | h
    · exact .inl (by omega)
    · rcases mem_writeWord h with h | h
      · exact .inl (by omega)
      · exact .inr h

/-- A cell of a memory after a block's write lies in a channel's row or was there before. -/
theorem mem_writeChannels {nMax : Nat} {ys : List Word} {m : Memory} {c : Nat} {cell : Host.Cell}
    (h : cell ∈ writeChannels nMax m ys c) :
    (∃ k < c, outAddr nMax k 0 ≤ cell.1 ∧ cell.1 < outAddr nMax k 0 + 4 * ys.length) ∨ cell ∈ m := by
  induction c with
  | zero => exact .inr h
  | succ c ih =>
    rcases mem_writeRow h with h | h
    · exact .inl ⟨c, by omega, h⟩
    · rcases ih h with ⟨k, hk, h⟩ | h
      · exact .inl ⟨k, by omega, h⟩
      · exact .inr h

end Sys2Proof.Machine
end

