-- ==== Sys2Proof/Laws/PerInstr.lean ====
section
/-! SUPPORT. Statements about every instruction, one lemma a constructor. `EncodedWord`: the command word the
encoder writes is a legal one (R90, R96). -/

namespace Sys2Proof.Laws.EncodedWord

def Statement (i : Instr) : Prop := CmdWord.legal (encode i).cmd = true

theorem nop : Statement .nop := by
  show CmdWord.legal (cmdWord 0#2 0x00#8) = true; decide
theorem prepare (fs hint : Word) : Statement (.prepare fs hint) := by
  show CmdWord.legal (cmdWord 0#2 0x01#8) = true; decide
theorem noteon (freq velocity : Word) : Statement (.noteon freq velocity) := by
  show CmdWord.legal (cmdWord 0#2 0x02#8) = true; decide
theorem noteoff (note velocity : Word) : Statement (.noteoff note velocity) := by
  show CmdWord.legal (cmdWord 0#2 0x03#8) = true; decide
theorem setlevel (osc : OscId) (level : Word) : Statement (.setlevel osc level) := by
  show CmdWord.legal (cmdWord (encodeSel osc) 0x04#8) = true; cases osc <;> decide
theorem setfreq (osc : OscId) (freq : Word) : Statement (.setfreq osc freq) := by
  show CmdWord.legal (cmdWord (encodeSel osc) 0x05#8) = true; cases osc <;> decide
theorem setcutoff (hz : Word) : Statement (.setcutoff hz) := by
  show CmdWord.legal (cmdWord 0#2 0x06#8) = true; decide
theorem render (n c : Word) : Statement (.render n c) := by
  show CmdWord.legal (cmdWord 0#2 0x07#8) = true; decide
theorem setmode (gate : Word) : Statement (.setmode gate) := by
  show CmdWord.legal (cmdWord 0#2 0x08#8) = true; decide

end Sys2Proof.Laws.EncodedWord
end

