-- ==== Sys2Proof/Laws/Step.lean ====
section
/-! SUPPORT. What one step can do, said once: the cases of the engine's step, of the host's step and of a bus
access, which later proofs cite instead of unfolding `step`. -/

namespace Sys2Proof.Machine

/-- The head of the queue removed, as the engine sees the state when it executes it. -/
def popped (s : State) : State := { useTurn s with queue := s.queue.tail }

theorem engineStep_nil {s : State} (h : s.queue = []) : engineStep s = .next s := by
  simp [engineStep, dequeue, h]

theorem engineStep_cons {s : State} {e : CmdEntry} {rest : List CmdEntry} (h : s.queue = e :: rest) :
    engineStep s = execEntry e { s with queue := rest } := by
  simp [engineStep, dequeue, h]

theorem execEntry_ok {e : CmdEntry} {i : Instr} (h : decode e = .ok i) (s : State) :
    execEntry e s = exec i s := by simp [execEntry, h]

theorem execEntry_error {e : CmdEntry} {r : DecodeError} (h : decode e = .error r) (s : State) :
    execEntry e s = .next s := by simp [execEntry, h, illegalAsNop]

/-- An entry answers a next state and leaves what lies outside the engine alone. -/
theorem execEntry_next (e : CmdEntry) (s : State) :
    ∃ t, execEntry e s = .next t ∧ SameOutside s t := by
  cases h : decode e with
  | ok i => rw [execEntry_ok h]; exact exec_next i s
  | error r => exact ⟨s, execEntry_error h s, .refl s⟩

/-- The cases of a step: the host moves; the reset input is pulsed; the engine has nothing to do; the engine executes the oldest entry as
a command, or as NOP where its word is illegal (R17, R96, R280). -/
theorem step_cases (s : State) :
    (mover s = .host ∧ step s = .next (hostStep (useTurn s))) ∨
    (mover s = .resetInput ∧ step s = .next (hardReset (useTurn s))) ∨
    (mover s = .engine ∧ s.queue = [] ∧ step s = .next (useTurn s)) ∨
    (∃ e rest i, mover s = .engine ∧ s.queue = e :: rest ∧ decode e = .ok i ∧
      step s = exec i (popped s)) ∨
    (∃ e rest r, mover s = .engine ∧ s.queue = e :: rest ∧ decode e = .error r ∧
      step s = .next (popped s)) := by
  cases hm : mover s with
  | host => exact .inl ⟨rfl, by simp [step, hm]⟩
  | resetInput => exact .inr (.inl ⟨rfl, by simp [step, hm]⟩)
  | engine =>
    right; right
    have hs : step s = engineStep (useTurn s) := by simp [step, hm]
    cases hq : s.queue with
    | nil => exact .inl ⟨rfl, rfl, hs.trans (engineStep_nil hq)⟩
    | cons e rest =>
      right
      have hp : popped s = { useTurn s with queue := rest } := by simp [popped, hq]
      have he : step s = execEntry e (popped s) := by rw [hs, hp]; exact engineStep_cons hq
      cases hd : decode e with
      | ok i => exact .inl ⟨e, rest, i, rfl, rfl, hd, he.trans (execEntry_ok hd _)⟩
      | error r => exact .inr ⟨e, rest, r, rfl, rfl, hd, he.trans (execEntry_error hd _)⟩

/-- What a host write leaves (R64, R65, R67, R68). -/
theorem busWrite_cases (s : State) (bytes : Nat) (off : Offset) (w : Word) :
    busWrite s bytes off w = some s ∨
    busWrite s bytes off w = some { s with arg0 := w } ∨
    busWrite s bytes off w = some { s with arg1 := w } ∨
    (s.hasRoom = true ∧ busWrite s bytes off w = some (enqueue s w)) ∨
    (s.hasRoom = false ∧ busWrite s bytes off w = none) := by
  unfold busWrite
  split
  · split
    · exact .inr (.inl rfl)
    · exact .inr (.inr (.inl rfl))
    · split
      · exact .inr (.inr (.inr (.inl ⟨‹_›, rfl⟩)))
      · rename_i hroom
        exact .inr (.inr (.inr (.inr ⟨by simpa using hroom, rfl⟩)))
    · exact .inl rfl
  · exact .inl rfl

/-- A host read changes nothing but the count of free values (R67, R285). -/
theorem busRead_state (s : State) (bytes : Nat) (off : Offset) :
    (busRead s bytes off).2 = s ∨ (busRead s bytes off).2 = { s with freeIdx := s.freeIdx + 1 } := by
  unfold busRead
  split
  · split
    · exact .inr rfl
    · exact .inl rfl
  · exact .inl rfl

/-- The cases of the host's step (R17, R70): nothing the core holds changes but an operand register or the
queue by one entry. -/
theorem hostStep_cases (s : State) :
    (∃ n l d, hostStep s = { s with freeIdx := n, pending := l, rdata := d }) ∨
    (∃ w l, hostStep s = { s with arg0 := w, pending := l }) ∨
    (∃ w l, hostStep s = { s with arg1 := w, pending := l }) ∨
    (∃ w l, s.hasRoom = true ∧ hostStep s = { enqueue s w with pending := l }) := by
  cases hp : s.pending with
  | nil => exact .inl ⟨s.freeIdx, s.pending, s.rdata, by simp only [hostStep, hp]; rw [← hp]⟩
  | cons op rest =>
    cases op with
    | write bytes off w =>
      rcases busWrite_cases s bytes off w with h | h | h | ⟨hr, h⟩ | ⟨hr, h⟩
      · exact .inl ⟨s.freeIdx, rest, s.rdata, by simp [hostStep, hp, h]⟩
      · exact .inr (.inl ⟨w, rest, by simp [hostStep, hp, h]⟩)
      · exact .inr (.inr (.inl ⟨w, rest, by simp [hostStep, hp, h]⟩))
      · exact .inr (.inr (.inr ⟨w, rest, hr, by simp [hostStep, hp, h]⟩))
      · exact .inl ⟨s.freeIdx, s.pending, s.rdata, by simp [hostStep, hp, h]; rw [← hp]⟩
    | read bytes off =>
      rcases busRead_state s bytes off with h | h
      · exact .inl ⟨s.freeIdx, rest, _, by simp [hostStep, hp, h]; rfl⟩
      · exact .inl ⟨s.freeIdx + 1, rest, _, by simp [hostStep, hp, h]; rfl⟩
    | sync =>
      cases hb : busyBit (busRead s 4 statusOffset).1 with
      | true =>
        rcases busRead_state s 4 statusOffset with h | h
        · exact .inl ⟨s.freeIdx, .sync :: rest, (busRead s 4 statusOffset).1, by simp [hostStep, hp, h, hb]⟩
        · exact .inl ⟨s.freeIdx + 1, .sync :: rest, (busRead s 4 statusOffset).1, by simp [hostStep, hp, h, hb]⟩
      | false =>
        rcases busRead_state s 4 statusOffset with h | h
        · exact .inl ⟨s.freeIdx, rest, _, by simp [hostStep, hp, h, hb]; rfl⟩
        · exact .inl ⟨s.freeIdx + 1, rest, _, by simp [hostStep, hp, h, hb]; rfl⟩

end Sys2Proof.Machine
end

