-- ==== Sys2Proof/Tests/Slice0.lean ====
section
/-! SUPPORT. The model's own tests. Every expected value stands in spec/95_test_vectors.md under the id the
test's comment names (E, B, F, V, R, O, T, L, K, X, P, N, M, G, S, W and the programs P1 to P5), or in the rule it
names. The `witness_` theorems show concrete states and operands that meet the hypotheses of the obligation
they are named after, one for each clause, at the ends of its ranges. -/

namespace Sys2Proof.Tests

open Sys2Proof.Machine

set_option Elab.async false

/-! ### Helpers -/

/-- Config T (95_test_vectors.md section 0). -/
def paramsT : Params where
  rampStep        := 0x3E800000#32
  rampEps         := 0x00000000#32
  mainKind        := .saw
  subKind         := .sqr
  lpCutoffDefault := 0x447A0000#32
  hpCutoff        := 0x41800000#32
  coeff           := .reference
  filterRate      := .base
  resetPolicy     := .perBlock
  nMax            := 1024#32
  cMax            := 2#32
  cmdqDepth       := 16#32
  nanValue        := 0x7FC00000#32

/-- Config D, with the NaN of Config T. -/
def paramsD : Params :=
  { paramsT with rampStep := 0x3F800000#32, hpCutoff := 0x42C80000#32 }

/-- Config T-PP and Config T-OS. -/
def paramsTPP : Params := { paramsT with resetPolicy := .perPair }
def paramsTOS : Params := { paramsT with filterRate := .oversampled }

def nan : Word := 0x7FC00000#32

/-- Reset under Config T and under Config D. -/
def coreT : State := State.resetOf paramsT
def coreD : State := State.resetOf paramsD

/-- The stages of vectors L1 and L2. -/
def chainT : Chain :=
  ⟨⟨0x41800000#32, 0x3F000000#32, 0x3F000000#32, 0#32, 0#32, 0#32⟩,
    ⟨0x41800000#32, 0x3F000000#32, 0xBF000000#32, 0#32, 0#32, 0#32⟩⟩

/-- Config T, prepared at 64 Hz with the cutoff at 16 Hz. -/
def readyT : State := { coreT with fs := 0x42800000#32, hint := 4#32, prepared := true, chain := chainT }

/-- Program P1 before its RENDER. -/
def soundingT : State :=
  { readyT with
    bank := { readyT.bank with main := ⟨.saw, 0x41800000#32, 0x3F800000#32, 0#32⟩ }
    noteFreq := 0x41800000#32
    active := true }

/-- The state after an outcome; the reset state where there is none. -/
def after : Host.Outcome State Fault Refusal → State
  | .next t => t
  | .fault _ => coreT
  | .refused _ => coreT

/-- Config T with one queue entry and the engine to move. -/
def queued (e : CmdEntry) : State := { coreT with queue := [e], turns := [.engine] }

/-- Config T with one operation of the host's and the host to move. -/
def hosted (op : HostOp) : State := { coreT with pending := [op], turns := [.host] }

/-- As `hosted`, with a command in the queue. -/
def hostedBusy (op : HostOp) : State := { hosted op with queue := [⟨0#32, 0#32, 0#32⟩] }

/-- A queue of sixteen NOPs, which is full. -/
def sixteen : List CmdEntry := List.replicate 16 ⟨0#32, 0#32, 0#32⟩

/-- A decoder's answer as an Option, so that two answers can be compared. -/
def decoded (cmd a b : Word) : Option Instr := (decode ⟨cmd, a, b⟩).toOption

/-- The word of main's frequency, target and level. -/
def mainOf (s : State) : Word × Word × Word := (s.bank.main.freq, s.bank.main.target, s.bank.main.current)

/-- The first samples of a channel. -/
def samplesOf (s : State) (c n : Nat) : List Word := (List.range n).map (s.out c)

/-! ### WellFormed: every check refuses an ill-formed term -/

theorem test_rsvd_refused : CmdWord.rsvdZero 0x00000407#32 = false ∧ CmdWord.legal 0x00000407#32 = false := by decide
theorem test_opcode_refused :
    CmdWord.opcodeAssigned 0x00000009#32 = false ∧ CmdWord.legal 0x000000FF#32 = false := by decide
theorem test_sel_refused :
    CmdWord.selAdmitted 0x00000304#32 = false ∧ CmdWord.selAdmitted 0x00000101#32 = false ∧
      CmdWord.legal 0x00000305#32 = false := by decide
theorem test_rampStep_refused :
    { paramsT with rampStep := 0x00000000#32 }.rampStepLegal = false ∧
    { paramsT with rampStep := 0x3F800001#32 }.rampStepLegal = false := by decide +kernel
theorem test_rampEps_refused :
    { paramsT with rampEps := 0x3E800000#32 }.rampEpsLegal = false ∧
    { paramsT with rampEps := 0x7FC00000#32 }.legal = false := by decide +kernel
theorem test_lpCutoff_refused :
    { paramsT with lpCutoffDefault := 0x4479FFFF#32 }.lpCutoffLegal = false ∧
    { paramsT with lpCutoffDefault := 0x44FA0001#32 }.legal = false := by decide +kernel
theorem test_hpCutoff_refused : { paramsT with hpCutoff := 0x80000000#32 }.hpCutoffLegal = false := by decide +kernel
theorem test_counts_refused :
    { paramsT with nMax := 0#32 }.countsPositive = false ∧ { paramsT with cMax := 0#32 }.countsPositive = false ∧
    { paramsT with cmdqDepth := 0#32 }.countsPositive = false := by decide
theorem test_outbuf_refused : { paramsT with nMax := 0x10001#32 }.outbufFits = false := by decide
theorem test_nan_refused : { paramsT with nanValue := 0x7F800000#32 }.nanLegal = false := by decide
theorem test_paramsT_legal : paramsT.legal = true ∧ paramsD.legal = true := by decide +kernel

/-! ### Decoding (E1 to E11, and the words R92 lists) -/

theorem test_decode_nop : decoded 0x00000000#32 1#32 2#32 = some .nop := by decide
theorem test_decode_prepare : decoded 0x00000001#32 1#32 2#32 = some (.prepare 1#32 2#32) := by decide
theorem test_decode_noteon : decoded 0x00000002#32 1#32 2#32 = some (.noteon 1#32 2#32) := by decide
theorem test_decode_noteoff : decoded 0x00000003#32 1#32 2#32 = some (.noteoff 1#32 2#32) := by decide
theorem test_decode_setlevel :
    decoded 0x00000004#32 1#32 2#32 = some (.setlevel .main 1#32) ∧
    decoded 0x00000104#32 1#32 2#32 = some (.setlevel .sub 1#32) ∧
    decoded 0x00000204#32 1#32 2#32 = some (.setlevel .noise 1#32) := by decide
theorem test_decode_setfreq :
    decoded 0x00000005#32 1#32 2#32 = some (.setfreq .main 1#32) ∧
    decoded 0x00000105#32 1#32 2#32 = some (.setfreq .sub 1#32) ∧
    decoded 0x00000205#32 1#32 2#32 = some (.setfreq .noise 1#32) := by decide
theorem test_decode_setcutoff : decoded 0x00000006#32 1#32 2#32 = some (.setcutoff 1#32) := by decide
theorem test_decode_render : decoded 0x00000007#32 1#32 2#32 = some (.render 1#32 2#32) := by decide
theorem test_decode_setmode : decoded 0x00000008#32 1#32 2#32 = some (.setmode 1#32) := by decide
theorem test_decode_illegal :
    decoded 0x00000304#32 0#32 0#32 = none ∧ decoded 0x00000101#32 0#32 0#32 = none ∧
    decoded 0x00000009#32 0#32 0#32 = none ∧ decoded 0x000000FF#32 0#32 0#32 = none ∧
    decoded 0x00000407#32 0#32 0#32 = none ∧ decoded 0x80000007#32 0#32 0#32 = none := by decide
/-- The table's numbering: the command word alone, and the three words of an entry together. -/
theorem test_decodeTableWord :
    decodeTableWord 32 0x00000104 = some (.setlevel .sub 0#32) ∧
    decodeTableWord 96 0x000000020000000400000007 = some (.render 4#32 2#32) ∧
    decodeTableWord 32 0x00000304 = none := by decide
/-- The words R92 lists are the words the encoder writes. -/
theorem test_encode_words :
    (encode (.setlevel .sub 0x3F400000#32)).cmd = 0x00000104#32 ∧ (encode (.setfreq .noise 0#32)).cmd = 0x00000205#32 ∧
    (encode (.render 4#32 2#32)).cmd = 0x00000007#32 ∧ (encode (.setmode 1#32)).cmd = 0x00000008#32 := by decide

/-! ### The assembler (R98 to R100, and the examples of section 2.1) -/

theorem test_assemble_setlevel :
    expandLine 1024 (.setlevel .sub (.decimal false 75 2)) =
      [.write 4 0x010#20 0x3F400000#32, .write 4 0x018#20 0x00000104#32] := by decide +kernel
theorem test_assemble_render :
    expandLine 1024 (.render 4#32 2#32) = [.write 4 0x010#20 4#32, .write 4 0x014#20 2#32, .write 4 0x018#20 7#32] := by
  decide +kernel
theorem test_assemble_readout :
    expandLine 1024 (.readout 2 2) =
      [.sync, .read 4 0x80000#20, .read 4 0x80004#20, .read 4 0x81000#20, .read 4 0x81004#20] := by decide +kernel
theorem test_parse_setlevel :
    Text.parseLine "setlevel.sub 0.75 ; half up".toList = some (.setlevel .sub (.decimal false 75 2)) := by
  decide +kernel
theorem test_parse_prepare :
    Text.parseLine "prepare f32:0x7FC00000, 8".toList = some (.prepare (.pattern 0x7FC00000#32) 8#32) := by
  decide +kernel
/-- 0.6 and 48000.0 as programs P2 and P5 write them. -/
theorem test_literals :
    litWord (.decimal false 6 1) = 0x3F19999A#32 ∧ litWord (.decimal false 480000 1) = 0x473B8000#32 := by
  decide +kernel

/-! ### binary32 -/

/-- 1/48000, 1/440 and 1/64 (O3, section 2.6, T1). -/
theorem test_reciprocals :
    F32.div nan 0x3F800000#32 0x473B8000#32 = 0x37AEC33E#32 ∧ F32.div nan 0x3F800000#32 0x43DC0000#32 = 0x3B14F209#32 ∧
    F32.div nan 0x3F800000#32 0x42800000#32 = 0x3C800000#32 := by decide +kernel
/-- 1 / 2^-149 overflows (P-3); infinity - infinity is NAN_VALUE (R161). -/
theorem test_overflow_and_nan :
    F32.div nan 0x3F800000#32 0x00000001#32 = 0x7F800000#32 ∧
    F32.sub nan 0x7F800000#32 0x7F800000#32 = nan := by decide +kernel

/-! ### Reset and the bus (B1 to B14) -/

/-- B1, B2 and B7: ID, STATUS, a reserved offset, CMD. -/
theorem test_read_registers :
    (busRead coreD 4 0x000#20).1 = 0x42474D01#32 ∧ (busRead coreD 4 0x004#20).1 = 0x00000004#32 ∧
    (busRead coreD 4 0x008#20).1 = 0#32 ∧ (busRead coreD 4 0x018#20).1 = 0#32 := by decide +kernel
/-- B3 to B5. -/
theorem test_read_cutoffs_and_oscillators :
    (busRead coreD 4 0x02C#20).1 = 0x447A0000#32 ∧ (busRead coreD 4 0x030#20).1 = 0x42C80000#32 ∧
    (busRead coreD 4 0x044#20).1 = 0x43DC0000#32 ∧ (busRead coreD 4 0x054#20).1 = 0x435C0000#32 ∧
    (busRead coreD 4 0x040#20).1 = 0#32 ∧ (busRead coreD 4 0x050#20).1 = 1#32 ∧
    (busRead coreD 4 0x060#20).1 = 2#32 := by decide +kernel
/-- B6. -/
theorem test_read_parameters :
    (busRead coreD 4 0x0C0#20).1 = 0x00000400#32 ∧ (busRead coreD 4 0x0C4#20).1 = 0x00000002#32 ∧
    (busRead coreD 4 0x0C8#20).1 = 0x00000010#32 ∧ (busRead coreD 4 0x0D4#20).1 = 0#32 := by decide +kernel
/-- B8 and B9: a write to a read-only register, a 16-bit write, a misaligned write, a misaligned read. -/
theorem test_ignored_accesses :
    busWrite coreT 4 0x030#20 0x3F800000#32 = some coreT ∧ busWrite coreT 2 0x010#20 1#32 = some coreT ∧
    busWrite coreT 4 0x012#20 1#32 = some coreT ∧ (busRead coreD 4 0x012#20).1 = 0#32 := by decide +kernel
/-- B10 and B11: where `S.out[1][3]` is, and the word just past OUTBUF. -/
theorem test_outbuf_offsets :
    outAddr 1024 1 3 = 0x8100C ∧ (busRead coreT 4 0x82000#20).1 = 0#32 ∧ inOutbuf paramsT 0x82000 = false := by
  decide +kernel
/-- B12: the operand is captured at the CMD write. -/
theorem test_operand_capture :
    (after (step { hosted (.write 4 0x018#20 0x00000004#32) with arg0 := 0x3F800000#32 })).queue =
      [⟨0x00000004#32, 0x3F800000#32, 0#32⟩] := by decide +kernel
/-- B13 and B14: FULL and BUSY, and the write that is held. -/
theorem test_full_queue :
    ({ coreT with queue := sixteen }).status = 0x0000001C#32 ∧
    busWrite { coreT with queue := sixteen } 4 0x018#20 0#32 = none := by decide +kernel
/-- R66: the lowest byte lane at the lowest offset. -/
theorem test_byte_lanes :
    Memory.writeWord [] 0x80000 0x12345600#32 = [(0x80001, 0x56#8), (0x80002, 0x34#8), (0x80003, 0x12#8)] := by
  decide +kernel

/-! ### SETFREQ and SETLEVEL (F1 to F8, V1 to V7) -/

def freqAfter (w : Word) : Word := (after (exec (.setfreq .main w) coreT)).bank.main.freq
theorem test_setfreq_accepts :
    freqAfter 0x41200000#32 = 0x41200000#32 ∧ freqAfter 0x469C4000#32 = 0x469C4000#32 := by decide +kernel
theorem test_setfreq_rejects :
    freqAfter 0x411FFFFF#32 = 0x43DC0000#32 ∧ freqAfter 0x469C4001#32 = 0x43DC0000#32 ∧
    freqAfter 0x7FC00000#32 = 0x43DC0000#32 ∧ freqAfter 0xFF800000#32 = 0x43DC0000#32 ∧
    freqAfter 0x00000000#32 = 0x43DC0000#32 := by decide +kernel

/-- The state before each vector V. -/
def levelled : State :=
  { coreT with bank := { coreT.bank with main := ⟨.saw, 0x43DC0000#32, 0x3F000000#32, 0x3E800000#32⟩ } }
def levelsAfter (w : Word) : Word × Word × Word := mainOf (after (exec (.setlevel .main w) levelled))
theorem test_setlevel_accepts :
    levelsAfter 0x80000000#32 = (0x43DC0000#32, 0x80000000#32, 0x3E800000#32) ∧
    levelsAfter 0x3F800000#32 = (0x43DC0000#32, 0x3F800000#32, 0x3E800000#32) := by decide +kernel
theorem test_setlevel_rejects :
    levelsAfter 0x3F800001#32 = (0x43DC0000#32, 0x3F000000#32, 0x3E800000#32) ∧
    levelsAfter 0x80000001#32 = (0x43DC0000#32, 0x3F000000#32, 0x3E800000#32) ∧
    levelsAfter 0x7FC00000#32 = (0x43DC0000#32, 0x3F000000#32, 0x3E800000#32) := by decide +kernel

/-! ### The ramp and the waveforms (R1 to R11, W1 to W3, O1 to O10) -/

/-- Levels after each of `n` ramp calls. -/
def rampCalls (p : Params) (o : Osc) : Nat → List Word
  | 0 => []
  | n + 1 => (o.ramp p).current :: rampCalls p (o.ramp p) n
def toward (target current : Word) : Osc := ⟨.saw, 0x43DC0000#32, target, current⟩

/-- R1 and R2. -/
theorem test_ramp_up :
    rampCalls paramsT (toward 0x3F19999A#32 0#32) 3 = [0x3E800000#32, 0x3F000000#32, 0x3F19999A#32] ∧
    rampCalls { paramsT with rampEps := 0x3DCCCCCD#32 } (toward 0x3F0CCCCD#32 0#32) 3 =
      [0x3E800000#32, 0x3F000000#32, 0x3F0CCCCD#32] := by decide +kernel
/-- R4. -/
theorem test_ramp_tenth :
    rampCalls { paramsT with rampStep := 0x3DCCCCCD#32 } (toward 0x3F800000#32 0#32) 10 =
      [0x3DCCCCCD#32, 0x3E4CCCCD#32, 0x3E99999A#32, 0x3ECCCCCD#32, 0x3F000000#32, 0x3F19999A#32,
        0x3F333334#32, 0x3F4CCCCE#32, 0x3F666668#32, 0x3F800000#32] := by decide +kernel
/-- R8 to R10. -/
theorem test_ramp_resume_and_snap :
    rampCalls paramsT (toward 0x3F4CCCCD#32 0x3F19999A#32) 1 = [0x3F4CCCCD#32] ∧
    rampCalls paramsT (toward 0x3E99999A#32 0x3F19999A#32) 1 = [0x3E99999A#32] ∧
    rampCalls { paramsT with rampEps := 0x3DCCCCCD#32 } (toward 0x3F4CCCCD#32 0x3F400000#32) 1 =
      [0x3F4CCCCD#32] := by decide +kernel
/-- W1 and O1 to O3. -/
theorem test_sawtooth :
    sawWave nan 0#32 0x3F800000#32 0x3F800000#32 0x3E800000#32 = 0xBF000000#32 ∧
    sawWave nan 0#32 0x3F400000#32 0x41800000#32 0x3C800000#32 = 0xBEC00000#32 ∧
    sawWave nan 0#32 0x3F800000#32 0x41800000#32 0x3D000000#32 = 0x00000000#32 ∧
    sawWave nan 0#32 0x3F800000#32 0x43DC0000#32 0x3883126E#32 = 0xBF71EB85#32 := by decide +kernel
/-- W2, O5 and O6. -/
theorem test_square :
    squareWave nan 0#32 0x3F800000#32 0x3F800000#32 0x3F000000#32 = 0xBF800000#32 ∧
    squareWave nan 0#32 0x3F000000#32 0x41800000#32 0x3D000000#32 = 0xBF000000#32 ∧
    squareWave nan 0#32 0x3F000000#32 0x41800000#32 0x3CFFFFFF#32 = 0x3F000000#32 := by decide +kernel
/-- R11 and O10: a muted oscillator of any kind gives +0.0 and keeps its level. -/
theorem test_muted :
    (toward 0x00000000#32 0x3F19999A#32).sample paramsT 0#32 7 = ⟨0#32, toward 0x00000000#32 0x3F19999A#32, 7⟩ ∧
    (toward 0x80000000#32 0x3F19999A#32).sample paramsT 0#32 7 = ⟨0#32, toward 0x80000000#32 0x3F19999A#32, 7⟩ := by
  decide +kernel

/-! ### Filter, oversampler, clipper (L1 to L12, X1, X2, section 2.10) -/

/-- L1 and L2. -/
theorem test_coefficients_quarter :
    coeffFn .reference .lowpass 0x42800000#32 0x41800000#32 = ⟨0x3F000000#32, 0x3F000000#32, 0#32⟩ ∧
    coeffFn .reference .highpass 0x42800000#32 0x41800000#32 = ⟨0x3F000000#32, 0xBF000000#32, 0#32⟩ := by
  decide +kernel
/-- L3. -/
theorem test_coefficients_lowpass :
    coeffFn .reference .lowpass 0x473B8000#32 0x447A0000#32 = ⟨0x3D7BF3C4#32, 0x3D7BF3C4#32, 0xBF608188#32⟩ := by
  decide +kernel
/-- L4. -/
theorem test_coefficients_highpass :
    coeffFn .reference .highpass 0x473B8000#32 0x42C80000#32 = ⟨0x3F7E55DA#32, 0xBF7E55DA#32, 0xBF7CABB4#32⟩ := by
  decide +kernel
/-- L10: the example of R161. -/
theorem test_process_sample :
    (⟨0x41800000#32, 0x3F000000#32, 0x3F000000#32, 0#32, 0#32, 0#32⟩ : Stage).process nan 0xBE800000#32 =
      (0xBE000000#32, ⟨0x41800000#32, 0x3F000000#32, 0x3F000000#32, 0#32, 0xBE800000#32, 0xBE000000#32⟩) := by
  decide +kernel
/-- L11. -/
theorem test_snap :
    snapValue 0x80000000#32 = 0x80000000#32 ∧ snapValue 0x00400000#32 = 0#32 ∧ snapValue 0x80000001#32 = 0#32 ∧
    snapValue 0x00800000#32 = 0x00800000#32 := by decide +kernel
/-- X1. -/
theorem test_oversample_per_block :
    (oversampleBlock paramsT chainT [0x3F800000#32, 0x3F000000#32, 0xBF000000#32]).1 =
      [0x3E82AAAB#32, 0xBE00AAAB#32, 0xBE82AAAB#32] := by decide +kernel
/-- X2. -/
theorem test_oversample_per_pair :
    (oversampleBlock paramsTPP chainT [0x3F800000#32, 0x3F000000#32, 0xBF000000#32]).1 =
      [0x3E82AAAB#32, 0x3E00AAAB#32, 0xBE00AAAB#32] := by decide +kernel
theorem test_softclip_cubic :
    softClip nan 0x3F000000#32 = 0x3F0AAAAB#32 ∧ softClip nan 0xBE19999A#32 = 0xBE1AC083#32 ∧
    softClip nan 0x3F7FFFFF#32 = 0x3FAAAAAA#32 ∧ softClip nan 0x80000001#32 = 0x80000001#32 := by decide +kernel
theorem test_softclip_clipped :
    softClip nan 0x3FC00000#32 = 0x3F2AAAAB#32 ∧ softClip nan 0xBFC00000#32 = 0xBF2AAAAB#32 ∧
    softClip nan 0x3FAAAAAB#32 = 0x3F2AAAAB#32 := by decide +kernel

/-! ### Voice commands (P-1 to P-3, N, M, K, G) -/

/-- P-1 under Config T: the status, the rate, the hint. -/
theorem test_prepare_accepts :
    (after (exec (.prepare 0x42800000#32 4#32) coreT)).status = 0x00000005#32 ∧
    (after (exec (.prepare 0x42800000#32 4#32) coreT)).fs = 0x42800000#32 ∧
    (after (exec (.prepare 0x42800000#32 4#32) coreT)).hint = 4#32 := by decide +kernel
/-- P-2. -/
theorem test_prepare_rejects :
    after (exec (.prepare 0x00000000#32 8#32) coreD) = coreD ∧ after (exec (.prepare 0x80000000#32 8#32) coreD) = coreD ∧
    after (exec (.prepare 0xBF800000#32 8#32) coreD) = coreD ∧ after (exec (.prepare 0x7F800000#32 8#32) coreD) = coreD ∧
    after (exec (.prepare 0x7FC00000#32 8#32) coreD) = coreD := by decide +kernel

/-- Main's and sub's frequency, the recorded one and the active flag after a NOTEON. -/
def noted (f : Word) : Word × Word × Word × Bool :=
  let t := after (exec (.noteon f 100#32) coreT)
  (t.bank.main.freq, t.bank.sub.freq, t.noteFreq, t.active)
/-- N-1 and N-2. -/
theorem test_noteon_one_rejected :
    noted 0x41700000#32 = (0x41700000#32, 0x435C0000#32, 0x41700000#32, true) ∧
    noted 0x46EA6000#32 = (0x43DC0000#32, 0x466A6000#32, 0x46EA6000#32, true) := by decide +kernel
/-- N-3, N-4 and N-6. -/
theorem test_noteon_boundaries :
    noted 0x41A00000#32 = (0x41A00000#32, 0x41200000#32, 0x41A00000#32, true) ∧
    noted 0x419FFFFF#32 = (0x419FFFFF#32, 0x435C0000#32, 0x419FFFFF#32, true) ∧
    noted 0x7FC00000#32 = (0x43DC0000#32, 0x435C0000#32, 0x7FC00000#32, true) := by decide +kernel
/-- N-8 and N-9. -/
theorem test_noteoff :
    after (exec (.noteoff 12345#32 99#32) soundingT) = { soundingT with active := false } ∧
    after (exec (.noteoff 0#32 0#32) coreT) = coreT := by decide +kernel
/-- M-1 to M-3. -/
theorem test_setmode :
    (after (exec (.setmode 0#32) coreT)).gate = false ∧ (after (exec (.setmode 2#32) coreT)).gate = false ∧
    (after (exec (.setmode 0xFFFFFFFF#32) { coreT with gate := false })).gate = true := by decide +kernel
/-- K1 and L5a, with the stage's delay state kept. -/
theorem test_setcutoff_designs :
    (after (exec (.setcutoff 0x44FA0000#32) { coreD with
      fs := 0x473B8000#32, prepared := true,
      chain := { coreD.chain with lp := { coreD.chain.lp with x1 := 1#32, y1 := 2#32 } } })).chain.lp =
      ⟨0x44FA0000#32, 0x3DEE41D6#32, 0x3DEE41D6#32, 0xBF446F8B#32, 1#32, 2#32⟩ := by decide +kernel
/-- K2, K5 and K6. -/
theorem test_setcutoff_rejects_and_defers :
    after (exec (.setcutoff 0x417FFFFF#32) readyT) = readyT ∧ after (exec (.setcutoff 0x7F800000#32) readyT) = readyT ∧
    (after (exec (.setcutoff 0x44FA0000#32) coreD)).chain.lp = Stage.reset 0x44FA0000#32 := by decide +kernel
theorem test_nop : after (exec .nop soundingT) = soundingT := by decide +kernel
/-- P1: its output on both channels and its end state. -/
theorem test_render_p1 :
    let t := after (exec (.render 4#32 2#32) soundingT)
    samplesOf t 0 4 = [0xBD802AAB#32, 0#32, 0x3D802AAB#32, 0x3E00AAAB#32] ∧
    samplesOf t 1 4 = [0xBD802AAB#32, 0#32, 0x3D802AAB#32, 0x3E00AAAB#32] ∧
    mainOf t = (0x41800000#32, 0x3F800000#32, 0x3F800000#32) ∧
    (t.chain.lp.x1, t.chain.lp.y1, t.chain.hp.x1, t.chain.hp.y1) = (0#32, 0x3E800000#32, 0x3E800000#32, 0#32) := by
  decide +kernel
/-- G-4, G-5 and G-7. -/
theorem test_render_limits_and_empty :
    after (exec (.render 1025#32 1#32) soundingT) = soundingT ∧
    after (exec (.render 2#32 3#32) soundingT) = soundingT ∧
    (let t := after (exec (.render 2#32 0#32) soundingT)
     t.outbuf = [] ∧ t.bank.main.current = 0x3F000000#32 ∧ t.chain.lp.y1 = 0xBE000000#32 ∧
       t.chain.hp.x1 = 0xBE000000#32) := by decide +kernel
/-- G-8, through a step. -/
theorem test_illegal_word_is_nop :
    after (step (queued ⟨0x00000009#32, 1#32, 2#32⟩)) = { coreT with turns := [] } := by decide +kernel
/-- The word placed for the next step is the one it runs. -/
theorem test_withFetchWord :
    (after (step (State.reset.withFetchWord 32 0x00000008))).gate = false ∧
    (after (step (State.reset.withFetchWord 32 0x00000002))).active = true := by decide +kernel

/-! ### Witnesses -/

/-- States are sound under Config T, whatever is queued within the queue's depth. -/
theorem sound_coreT : Sound coreT where
  params := test_paramsT_legal.1
  bank := ⟨⟨rfl, by decide +kernel, by decide +kernel, by decide +kernel⟩,
    ⟨rfl, by decide +kernel, by decide +kernel, by decide +kernel⟩,
    ⟨rfl, by decide +kernel, by decide +kernel, by decide +kernel⟩⟩
  cutoffs := ⟨.inr rfl, rfl⟩
  outbuf := ⟨rfl, fun _ h => nomatch h⟩
  prepared := ⟨fun h => by simp [coreT, State.resetOf] at h, fun _ => ⟨rfl, rfl, rfl, rfl⟩⟩
  queue := by decide
  executing := rfl

theorem witness_DecodeAndEncodeAgree :
    (Instr.setlevel .noise 5#32).wellFormed = true ∧
    (∃ i, decode ⟨0x00000204#32, 5#32, 7#32⟩ = .ok i) ∧ CmdWord.legal 0x00000204#32 = true ∧
    CmdWord.legal 0x00000304#32 = false := ⟨rfl, ⟨_, rfl⟩, by decide, by decide⟩
/-- Both sides of every test of R95, at the ends: RSVD 0 and 1, SEL 2 and 3, opcodes 8 and 9. -/
theorem witness_DecodeFollowsTheDecodeFunction :
    (1#22 ≠ 0#22) ∧ decoded (1#22 ++ 0#2 ++ 0x00#8) 0#32 0#32 = none ∧
    decoded (0#22 ++ 2#2 ++ 0x05#8) 0#32 0#32 = some (.setfreq .noise 0#32) ∧
    decoded (0#22 ++ 3#2 ++ 0x05#8) 0#32 0#32 = none ∧ decoded (0#22 ++ 1#2 ++ 0x06#8) 0#32 0#32 = none ∧
    decoded (0#22 ++ 0#2 ++ 0x08#8) 0#32 0#32 = some (.setmode 0#32) ∧
    decoded (0#22 ++ 0#2 ++ 0x09#8) 0#32 0#32 = none ∧ 0x09 ≤ (0x09#8).toNat := by decide
theorem witness_IllegalWordsAreThreeGroupsAndRunAsNop :
    let s := queued ⟨0x80000007#32, 0#32, 0#32⟩
    mover s = .engine ∧ s.queue = [⟨0x80000007#32, 0#32, 0#32⟩] ∧
    (∃ r, decode ⟨0x80000007#32, 0#32, 0#32⟩ = .error r) := ⟨rfl, rfl, _, rfl⟩
theorem witness_StepExecutesTheHeadOfTheQueue :
    let s := queued ⟨0x00000008#32, 0#32, 0#32⟩
    mover s = .engine ∧ s.queue = ⟨0x00000008#32, 0#32, 0#32⟩ :: [] ∧
    decode ⟨0x00000008#32, 0#32, 0#32⟩ = .ok (.setmode 0#32) := ⟨rfl, rfl, rfl⟩
theorem witness_EmptyQueueRetainsAllState :
    coreT.queue = [] ∧ coreT.pending = [] ∧ mover coreT ≠ .resetInput ∧
    mover { coreT with turns := [.engine] } ≠ .resetInput := by decide
theorem witness_EngineDrainsTheQueueInOrder :
    ({ coreT with queue := [⟨2#32, 0x41800000#32, 0#32⟩, ⟨3#32, 0#32, 0#32⟩] }).turns = [] := rfl
theorem witness_FlagsAreWrittenOnlyByTheirCommands :
    exec (.setmode 0#32) coreT = .next { coreT with gate := false } := rfl
theorem witness_ResetPulseResetsTheCore : mover { soundingT with turns := [.resetInput] } = .resetInput := rfl
theorem witness_EveryStepKeepsTheStateSound : Sound coreT ∧ ∃ t, step coreT = .next t := ⟨sound_coreT, _, rfl⟩

/-- The least and the greatest accepted rate, and rates on the other side of both ends. -/
theorem witness_PrepareStoresTheRateAndDesignsBothStages :
    (F32.isFinite 0x00000001#32 = true ∧ F32.lt 0#32 0x00000001#32 = true) ∧
    (F32.isFinite 0x7F7FFFFF#32 = true ∧ F32.lt 0#32 0x7F7FFFFF#32 = true) ∧
    ¬ (F32.isFinite 0x7F800000#32 = true ∧ F32.lt 0#32 0x7F800000#32 = true) ∧
    ¬ (F32.isFinite 0x80000000#32 = true ∧ F32.lt 0#32 0x80000000#32 = true) := by decide +kernel
theorem witness_SetLevelWritesTheTargetInRange :
    OscId.noise ≠ .sub ∧ F32.le 0#32 0x80000000#32 = true ∧ F32.le 0x3F800000#32 0x3F800000#32 = true := by
  decide +kernel
theorem witness_SetFreqWritesTheFrequencyInRange :
    OscId.main ≠ .noise ∧ F32.le 0x41200000#32 0x41200000#32 = true ∧ F32.le 0x469C4000#32 0x469C4000#32 = true := by
  decide +kernel
/-- Cutoffs of 16 and 20000 prepared and not, and the values past both ends. -/
theorem witness_SetCutoffStoresAndRedesignsTheLowPass :
    (F32.le 0x41800000#32 0x41800000#32 = true ∧ F32.le 0x41800000#32 0x469C4000#32 = true) ∧
    (F32.le 0x41800000#32 0x469C4000#32 = true ∧ F32.le 0x469C4000#32 0x469C4000#32 = true) ∧
    ¬ (F32.le 0x41800000#32 0x417FFFFF#32 = true ∧ F32.le 0x417FFFFF#32 0x469C4000#32 = true) ∧
    ¬ (F32.le 0x41800000#32 0x469C4001#32 = true ∧ F32.le 0x469C4001#32 0x469C4000#32 = true) ∧
    readyT.prepared = true ∧ coreT.prepared = false := by decide +kernel
theorem witness_RenderPastTheLimitsChangesNothing :
    ¬ WithinLimits paramsT 1025#32 1#32 ∧ ¬ WithinLimits paramsT 1#32 3#32 := by
  unfold WithinLimits; decide
theorem within_limits : WithinLimits paramsT 1024#32 2#32 := by unfold WithinLimits; decide
theorem witness_GatedRenderWritesZerosOnly :
    let s := { soundingT with active := false, outbuf := [(0x80001, 0x56#8)] }
    Memory.wf s.outbuf = true ∧ WithinLimits s.par 1024#32 2#32 ∧ s.prepared = true ∧ s.gate = true ∧
    s.active = false ∧ ({ s with gate := false }).gate = false := ⟨by decide, within_limits, rfl, rfl, rfl, rfl⟩
theorem witness_RenderBeforePrepareWritesZerosOnly :
    Memory.wf coreT.outbuf = true ∧ WithinLimits coreT.par 1024#32 2#32 ∧ coreT.prepared = false :=
  ⟨rfl, within_limits, rfl⟩
theorem witness_RenderMixesOversamplesAndWritesTheChannels :
    Memory.wf soundingT.outbuf = true ∧ WithinLimits soundingT.par 1024#32 2#32 ∧ soundingT.prepared = true ∧
    soundingT.active = true ∧ ({ readyT with gate := false }).gate = false := ⟨rfl, within_limits, rfl, rfl, rfl⟩
theorem witness_ChannelsReceiveIdenticalCopies :
    Memory.wf soundingT.outbuf = true ∧ WithinLimits soundingT.par 1024#32 2#32 ∧
    1023 < (1024#32).toNat ∧ 1 < (2#32).toNat ∧ 1023 < paramsT.nMax.toNat := ⟨rfl, within_limits, by decide⟩
theorem witness_EmptyBlocksFollowTheirRule :
    WithinLimits soundingT.par 0#32 2#32 ∧ WithinLimits soundingT.par 1024#32 0#32 ∧ soundingT.prepared = true ∧
    soundingT.active = true ∧ soundingT.par.resetPolicy = .perBlock ∧ coreT.prepared = false ∧
    readyT.gate = true ∧ readyT.active = false := by unfold WithinLimits; decide
theorem witness_RenderFrame :
    Memory.wf soundingT.outbuf = true ∧ (∃ t, exec (.render 1#32 1#32) soundingT = .next t) ∧
    F32.le (soundingT.bank.get .sub).target 0#32 = true := ⟨rfl, ⟨_, rfl⟩, by decide +kernel⟩
theorem witness_ParameterCommandsFrame :
    (∃ t, exec (.setlevel .sub 0#32) soundingT = .next t) ∧
    ∀ n c, Instr.setlevel .sub 0#32 ≠ .render n c := ⟨⟨_, rfl⟩, fun _ _ h => nomatch h⟩
theorem witness_VoiceStateMachine :
    (∃ f v, Instr.noteon 0#32 0#32 = .noteon f v) ∧ (∃ n v, Instr.noteoff 0#32 0#32 = .noteoff n v) ∧
    (∀ f v, Instr.nop ≠ .noteon f v) ∧ (∀ n v, Instr.nop ≠ .noteoff n v) :=
  ⟨⟨_, _, rfl⟩, ⟨_, _, rfl⟩, by simp, by simp⟩
theorem witness_MutedOscillatorReturnsZeroAndFreezes :
    levelAccepted 0x80000000#32 = true ∧ F32.le 0x80000000#32 0#32 = true ∧
    levelAccepted 0x00000001#32 = true ∧ F32.le 0x00000001#32 0#32 = false := by decide +kernel
/-- R1: a step below the threshold, a step that would pass the target, and a level at the threshold; and an
oscillator of each kind. -/
theorem witness_SampleStepsTheRampThenSounds :
    F32.le 0x3F19999A#32 0#32 = false ∧
    F32.lt 0x00000000#32 (F32.sub nan 0x3F19999A#32 0#32) = true ∧
    F32.le (F32.add nan 0x00000000#32 0x3E800000#32) 0x3F19999A#32 = true ∧
    F32.lt 0x3F000000#32 (F32.sub nan 0x3F19999A#32 0#32) = true ∧
    F32.le (F32.add nan 0x3F000000#32 0x3E800000#32) 0x3F19999A#32 = false ∧
    F32.lt 0x3F19999A#32 (F32.sub nan 0x3F19999A#32 0#32) = false ∧
    (toward 0x3F19999A#32 0#32).kind = .saw ∧ coreT.bank.sub.kind = .sqr ∧ coreT.bank.noise.kind = .noise := by
  decide +kernel
theorem witness_LoweredTargetAppliesAtTheNextSample :
    paramsT.legal = true ∧ levelAccepted 0x00000001#32 = true ∧ levelAccepted 0x3F800000#32 = true ∧
    F32.lt 0x00000001#32 0x3F800000#32 = true ∧ F32.lt 0#32 0x00000001#32 = true ∧
    levelAccepted 0x80000000#32 = true ∧ F32.lt 0x80000000#32 0x3F800000#32 = true ∧
    F32.le 0x80000000#32 0#32 = true := by decide +kernel
theorem witness_RampRisesAndNeverOvershoots :
    paramsT.legal = true ∧ levelAccepted 0x3F800000#32 = true ∧ levelAccepted 0x3F7FFFFF#32 = true ∧
    F32.le 0x3F7FFFFF#32 0x3F800000#32 = true ∧ F32.le 0x3F800000#32 0x3F800000#32 = true := by decide +kernel
/-- RAMP_STEP 0.25 with target 0.6, where the last call is the third; and the ends q = 0 and q = 24. -/
theorem witness_RampReachesItsTargetInCeilCalls :
    paramsT.legal = true ∧ levelAccepted 0x3F19999A#32 = true ∧ F32.lt 0#32 0x3F19999A#32 = true ∧
    F32.units 0x3E800000#32 = 2 ^ (149 - 2) ∧
    (F32.units 0x3F19999A#32 + 2 ^ (149 - 2) - 1) / 2 ^ (149 - 2) = 3 ∧
    F32.units 0x3F800000#32 = 2 ^ (149 - 0) ∧ F32.units 0x33800000#32 = 2 ^ (149 - 24) ∧
    ({ paramsT with rampStep := 0x33800000#32 }).legal = true := by decide +kernel
theorem witness_WaveformsStartAtPhaseZero :
    freqAccepted 0x41200000#32 = true ∧ freqAccepted 0x469C4000#32 = true ∧ levelAccepted 0x80000000#32 = true ∧
    levelAccepted 0x3F800000#32 = true := by decide +kernel
theorem witness_SawtoothStaysWithinItsLevel :
    freqAccepted 0x41200000#32 = true ∧ levelAccepted 0x3F800000#32 = true ∧ F32.isFinite 0x7F7FFFFF#32 = true ∧
    F32.le 0#32 0x7F7FFFFF#32 = true ∧ F32.le 0#32 0x80000000#32 = true := by decide +kernel
/-- At 16 Hz: the last time below half a period, and half a period itself. -/
theorem witness_SquareIsPlusOrMinusItsLevel :
    freqAccepted 0x41800000#32 = true ∧ F32.isFinite 0x3D000000#32 = true ∧ F32.le 0#32 0x3D000000#32 = true ∧
    F32.val (F32.fmod 0#32 0x3CFFFFFF#32 0x3D800000#32) < F32.val 0x3D000000#32 ∧
    F32.val 0x3D000000#32 ≤ F32.val (F32.fmod 0#32 0x3D000000#32 0x3D800000#32) ∧
    F32.div nan 0x3F800000#32 0x41800000#32 = 0x3D800000#32 ∧
    F32.div nan 0x3D800000#32 0x40000000#32 = 0x3D000000#32 := by decide +kernel
/-- Level 0.5: both ends of the interval are draws in it, and a draw past the end is not. -/
theorem witness_NoiseIsAnyValueWithinItsLevel :
    levelAccepted 0x3F000000#32 = true ∧ F32.le (F32.neg 0x3F000000#32) 0xBF000000#32 = true ∧
    F32.le 0xBF000000#32 0x3F000000#32 = true ∧ F32.le 0x3F000000#32 0x3F000000#32 = true ∧
    noiseWave 0x3F000000#32 0x3F000001#32 = 0#32 := by decide +kernel
/-- The first and the last sample of the longest block. -/
theorem witness_MixSamplesEachOscillatorOnceAtTheCursor :
    0 < paramsT.nMax.toNat ∧ 1023 < paramsT.nMax.toNat := by decide
theorem witness_EvenIndicesHoldTheSamples : 1 < [0x3F800000#32, 0xBF800000#32].length := by decide
theorem witness_FilterStateDoesNotCarryAcrossBlocks :
    ChainSameButDelay chainT { chainT with lp := { chainT.lp with x1 := 1#32, y1 := 2#32 } } ∧
    paramsT.resetPolicy = .perBlock ∧ [0x3F800000#32, 0x3F000000#32][0]? = some 0x3F800000#32 ∧
    [0x3F800000#32, 0x3F000000#32][1]? = some 0x3F000000#32 :=
  ⟨⟨⟨rfl, rfl, rfl, rfl⟩, ⟨rfl, rfl, rfl, rfl⟩⟩, rfl, rfl, rfl⟩
theorem witness_PerPairIsAPureGain :
    paramsTPP.resetPolicy = .perPair ∧ F32.isNaN paramsTPP.nanValue = true ∧ F32.isFinite chainT.lp.b1 = true ∧
    F32.isFinite chainT.lp.a1 = true ∧ F32.isFinite chainT.hp.b1 = true ∧ F32.isFinite chainT.hp.a1 = true ∧
    [0x3F800000#32][0]? = some 0x3F800000#32 ∧
    F32.isZero (F32.mul nan chainT.lp.b0 0x3F800000#32) = false ∧
    F32.isZero (F32.mul nan chainT.hp.b0 (F32.mul nan chainT.lp.b0 0x3F800000#32)) = false := by decide +kernel
theorem witness_DelayStateIsSnappedAfterABlock :
    (paramsT.resetPolicy = .perBlock ∨ ([] : List Word) ≠ []) ∧
    (paramsTPP.resetPolicy = .perBlock ∨ [0#32] ≠ []) := by decide
theorem witness_SoftClipBranches :
    F32.lt 0x3F800000#32 0x3F800001#32 = true ∧ F32.lt 0xBF800001#32 0xBF800000#32 = true ∧
    F32.lt 0x3F800000#32 0x3F800000#32 = false ∧ F32.lt 0x3F800000#32 0xBF800000#32 = false ∧
    F32.lt 0xBF800000#32 0xBF800000#32 = false := by decide +kernel
theorem witness_SoftClipSpecialInputs :
    F32.isNaN 0x7F800001#32 = true ∧ F32.isSubnormal 0x00000001#32 = true ∧ F32.isSubnormal 0x807FFFFF#32 = true := by
  decide +kernel
theorem witness_SoftClipIsOddBoundedAndRising :
    F32.isNaN 0x7F800000#32 = false ∧ F32.le 0xBF800000#32 0xBF800000#32 = true ∧
    F32.le 0xBF800000#32 0x3F800000#32 = true ∧ F32.le 0x3F800000#32 0x3F800000#32 = true := by decide +kernel
/-- A ratio that overflows at the midpoint, one that does not, and a tie that goes to the even pattern; finite
operands with a zero and a nonzero sum and difference, and both kinds of divisor; a NaN; the infinities. -/
theorem witness_RoundingIsToNearestEven :
    F32.roundMag ((2 ^ 25 - 1) * 2 ^ 252) 1 = F32.infMag ∧
    F32.roundMag ((2 ^ 25 - 1) * 2 ^ 252 - 1) 1 = 0x7F7FFFFF ∧ 0x7F7FFFFF < F32.infMag ∧
    F32.roundMag 3 2 = 2 ∧ F32.roundMag 1 2 = 0 ∧
    F32.isFinite 0x7F7FFFFF#32 = true ∧ F32.isFinite 0xFF7FFFFF#32 = true ∧
    F32.val 0x7F7FFFFF#32 + F32.val 0xFF7FFFFF#32 = 0 ∧ F32.val 0x7F7FFFFF#32 - F32.val 0xFF7FFFFF#32 ≠ 0 ∧
    F32.val 0x7F7FFFFF#32 + F32.val 0x7F7FFFFF#32 ≠ 0 ∧ F32.val 0x7F7FFFFF#32 - F32.val 0x7F7FFFFF#32 = 0 ∧
    F32.isZero 0x00000001#32 = false ∧ F32.isZero 0x80000000#32 = true ∧
    F32.isNaN 0x7F800001#32 = true ∧ F32.isInf 0x7F800000#32 = true ∧ F32.isNaN 0xFF800000#32 = false := by
  decide +kernel
theorem witness_ComparisonsFollowTheValues :
    F32.isFinite 0x00000000#32 = true ∧ F32.isFinite 0x80000000#32 = true ∧ F32.isNaN 0xFF800001#32 = true := by
  decide +kernel
theorem witness_FmodIsTheExactRemainder :
    F32.isFinite 0x7F7FFFFF#32 = true ∧ F32.le 0#32 0x7F7FFFFF#32 = true ∧ F32.isFinite 0x00000001#32 = true ∧
    F32.lt 0#32 0x00000001#32 = true := by decide +kernel
theorem witness_ReferenceDesignAtAQuarterOfTheRate :
    Reference.inDomain 0x42800000#32 0x41800000#32 = true ∧
    4 * F32.units 0x41800000#32 = F32.units 0x42800000#32 := by decide +kernel
/-- The first and last register, and the first and last word of OUTBUF. -/
theorem witness_IdleReadsReturnTheDefinedState :
    let s := hosted (.read 4 0x81FFC#20)
    mover s = .host ∧ s.pending = .read 4 0x81FFC#20 :: [] ∧ s.busy = false ∧
    (0x000, 0x42474D01#32) ∈ registerTable s ∧ (0x0D4, 0#32) ∈ registerTable s ∧
    1 < s.par.cMax.toNat ∧ 1023 < s.par.nMax.toNat ∧
    (0x81FFC#20).toNat = 0x80000 + 4 * (1 * s.par.nMax.toNat + 1023) ∧
    (0x80000#20).toNat = 0x80000 + 4 * (0 * s.par.nMax.toNat + 0) := by decide +kernel
/-- Both lists of classes at their first and last offsets, and the first and last word of OUTBUF. -/
theorem witness_BusyReadsOfClassBAreFree :
    let s := hostedBusy (.read 4 0x020#20)
    let u := hostedBusy (.read 4 0x0D4#20)
    mover s = .host ∧ s.pending = .read 4 0x020#20 :: [] ∧ s.busy = true ∧ (0x020#20).toNat ∈ classBOffsets ∧
    0x0B0 ∈ classBOffsets ∧ mover u = .host ∧ u.pending = .read 4 0x0D4#20 :: [] ∧ u.busy = true ∧
    (0x0D4, 0#32) ∈ registerTable u ∧ (0x0D4#20).toNat ∈ classAOffsets ∧ 0x000 ∈ classAOffsets ∧
    1 < s.par.cMax.toNat ∧ 1023 < s.par.nMax.toNat ∧
    (0x81FFC#20).toNat = 0x80000 + 4 * (1 * s.par.nMax.toNat + 1023) ∧
    (0x80000#20).toNat = 0x80000 + 4 * (0 * s.par.nMax.toNat + 0) := by decide +kernel
/-- Each register of the map is in one class and one only (R40 to R48). -/
theorem test_register_classes :
    (classAOffsets ++ classBOffsets).Nodup ∧
    ∀ r ∈ registerTable coreT, r.1 ∈ classAOffsets ∨ r.1 ∈ classBOffsets := by decide +kernel
theorem witness_StatusShowsTheFiveFlags :
    (5 ≤ 31) ∧ paramsT.legal = true ∧ sixteen.length = paramsT.cmdqDepth.toNat := by decide +kernel
/-- A 16-bit access, an 8-byte access, and one at an offset of the form 4k + 2. -/
theorem witness_MisfitAccessesHaveNoEffect :
    let s := hosted (.read 2 0x010#20)
    let u := hosted (.write 4 0x012#20 1#32)
    mover s = .host ∧ s.pending = .read 2 0x010#20 :: [] ∧ (2 ≠ 4 ∨ (0x010#20).toNat % 4 ≠ 0) ∧
    mover u = .host ∧ u.pending = .write 4 0x012#20 1#32 :: [] ∧ (4 ≠ 4 ∨ (0x012#20).toNat % 4 ≠ 0) := by decide
/-- Reserved offsets at the ends of the ranges, and a write to STATUS. -/
theorem witness_ReservedAndReadOnlyOffsets :
    let s := hosted (.read 4 0x0D8#20)
    let u := hosted (.write 4 0x004#20 1#32)
    mover s = .host ∧ s.pending = .read 4 0x0D8#20 :: [] ∧ Reserved s.par 0x008 ∧ Reserved s.par 0x0D8 ∧
    Reserved s.par 0x7FFFC ∧ Reserved s.par 0x82000 ∧ Reserved s.par 0xFFFFC ∧
    mover u = .host ∧ u.pending = .write 4 0x004#20 1#32 :: [] ∧ (0x004#20).toNat ≠ 0x010 ∧
    (0x004#20).toNat ≠ 0x014 ∧ (0x004#20).toNat ≠ 0x018 := by unfold Reserved; decide +kernel
/-- Each clause: the two operand registers, CMD with one place left, and CMD with none. -/
theorem witness_OperandAndCommandWrites :
    let s := hosted (.write 4 0x018#20 7#32)
    mover s = .host ∧ s.pending = .write 4 0x018#20 7#32 :: [] ∧
    (sixteen.drop 1).length < s.par.cmdqDepth.toNat ∧ ¬ sixteen.length < s.par.cmdqDepth.toNat ∧
    mover (hosted (.write 4 0x010#20 7#32)) = .host ∧ mover (hosted (.write 4 0x014#20 7#32)) = .host := by
  decide +kernel
theorem witness_AssembledLineQueuesItsCommand :
    let i := Instr.render 4#32 2#32
    let s := { coreT with pending := assemble i, turns := [.host, .host, .host], queue := sixteen.drop 1 }
    s.pending = assemble i ++ [] ∧ s.turns = List.replicate (assemble i).length .host ++ [] ∧
    s.queue.length < s.par.cmdqDepth.toNat ∧
    mover (hosted .sync) = .host ∧ (hosted .sync).pending = .sync :: [] ∧ (hosted .sync).queue = [] ∧
    (hosted .sync).executing = false ∧ mover (hostedBusy .sync) = .host ∧
    (hostedBusy .sync).pending = .sync :: [] ∧ (hostedBusy .sync).queue ≠ [] := by decide +kernel

end Sys2Proof.Tests
end

section
/-! SUPPORT. The engine and its queue (spec/00_scope.md R17, R36, R269): what the step is where the engine moves
over a queued entry, that no command looks at the queue, and so that draining the queue executes its entries in
order. -/

namespace Sys2Proof.Machine

theorem hostStep_nil {s : State} (h : s.pending = []) : hostStep s = s := by
  simp [hostStep, h]

theorem step_engine_cons {s : State} {e : CmdEntry} {rest : List CmdEntry} (hm : mover s = .engine)
    (hq : s.queue = e :: rest) :
    step s = execEntry e { s with queue := rest, turns := s.turns.tail } := by
  have hs : step s = engineStep (useTurn s) := by simp [step, hm]
  exact hs.trans (engineStep_cons hq)

/-- With no turns named the engine goes first while a command is queued (log entry 3). -/
theorem step_of_queued {s : State} {e : CmdEntry} {rest : List CmdEntry} (ht : s.turns = [])
    (hq : s.queue = e :: rest) : step s = execEntry e { s with queue := rest } := by
  have hm : mover s = .engine := by simp [mover, ht, hq]
  rw [step_engine_cons hm hq, ht]
  rfl

/-- No command looks at the queue: on another queue it does the same and keeps that queue (R33, R76). -/
theorem exec_withQueue {i : Instr} {s t : State} (h : exec i s = .next t) (q : List CmdEntry) :
    exec i { s with queue := q } = .next { t with queue := q } := by
  cases i with
  | nop | noteon | noteoff | setlevel | setfreq | setmode => cases h; rfl
  | prepare fs hint =>
    cases ha : rateAccepted fs with
    | true => cases (execPrepare_accepted ha hint s).symm.trans h; exact execPrepare_accepted ha hint _
    | false => cases (execPrepare_rejected ha hint s).symm.trans h; exact execPrepare_rejected ha hint _
  | setcutoff hz =>
    cases ha : cutoffAccepted hz with
    | true => cases (execSetCutoff_accepted ha s).symm.trans h; exact execSetCutoff_accepted ha _
    | false => cases (execSetCutoff_rejected ha s).symm.trans h; exact execSetCutoff_rejected ha _
  | render n c =>
    simp only [exec, execRender] at h ⊢
    split_ifs at h ⊢ <;> cases h <;> rfl

theorem execEntry_withQueue {e : CmdEntry} {s t : State} (h : execEntry e s = .next t)
    (q : List CmdEntry) : execEntry e { s with queue := q } = .next { t with queue := q } := by
  cases hd : decode e with
  | ok i =>
    rw [execEntry_ok hd] at h ⊢
    exact exec_withQueue h q
  | error r =>
    cases (execEntry_error hd s).symm.trans h
    exact execEntry_error hd _

/-- Where the engine goes first, as many steps as there are entries `q` in the queue leave what executing them
oldest first leaves. -/
theorem run_drains_queue (q : List CmdEntry) {s : State} (ht : s.turns = []) (hq : s.queue = q) :
    ∃ t, Host.Core.run Sys2Proof.core q.length s = .next t ∧ t.queue = [] ∧
      execAll q { s with queue := [] } = .next t := by
  induction q generalizing s with
  | nil => exact ⟨s, rfl, hq, congrArg Host.Outcome.next (by rw [← hq])⟩
  | cons e rest ih =>
    obtain ⟨t, he, ho⟩ := execEntry_next e { s with queue := rest }
    have hstep : Sys2Proof.core.step s = .next t := (step_of_queued ht hq).trans he
    have hexec : execEntry e { s with queue := [] } = .next { t with queue := [] } :=
      execEntry_withQueue he []
    obtain ⟨u, hrun, hu, hall⟩ := ih (ho.turns.trans ht) ho.queue
    refine ⟨u, ?_, hu, ?_⟩
    · simpa [Host.Core.run, hstep] using hrun
    · simpa [execAll, hexec] using hall

/-- Settles O5: where the engine moves, its step executes the entry it takes from the queue. -/
theorem stepExecutesTheHeadOfTheQueue : Obligations.StepExecutesTheHeadOfTheQueue := by
  intro s e rest i hm hq hd
  rw [step_engine_cons hm hq, execEntry_ok hd]

/-- Settles O6, by the cases of a step: the host and the engine both have nothing to do. -/
theorem emptyQueueRetainsAllState : Obligations.EmptyQueueRetainsAllState := by
  intro s hq hp hr
  rcases step_cases s with ⟨-, h⟩ | ⟨hm, -⟩ | ⟨-, -, h⟩ | ⟨e, rest, i, -, hc, -⟩ | ⟨e, rest, r, -, hc, -⟩
  · rw [h, hostStep_nil (by simpa using hp)]
    rfl
  · exact absurd hm hr
  · exact h
  · cases hq.symm.trans hc
  · cases hq.symm.trans hc

/-- Settles O8, by induction on the queue: no command looks at the queue it stands in front of. -/
theorem engineDrainsTheQueueInOrder : Obligations.EngineDrainsTheQueueInOrder :=
  fun s ht => run_drains_queue s.queue ht rfl

end Sys2Proof.Machine
end

section
/-! SUPPORT. Comparisons and the exact remainder of binary32 (spec/00_scope.md R12): the pattern order is the
order of values, and a multiple of a power of two by a 24-bit factor is a value. -/

namespace Sys2Proof.F32

/-! ### Comparisons -/

theorem lt_of_finite {a b : Word} (ha : isFinite a = true) (hb : isFinite b = true) :
    lt a b = true ↔ val a < val b := by
  simp [lt_iff, not_nan_of_finite ha, not_nan_of_finite hb, key_lt_iff_val_lt]

theorem le_of_finite {a b : Word} (ha : isFinite a = true) (hb : isFinite b = true) :
    le a b = true ↔ val a ≤ val b := by
  have h := key_lt_iff_val_lt b a
  rw [le_iff]
  simp only [not_nan_of_finite ha, not_nan_of_finite hb, true_and]
  omega

/-- Settles O51: the pattern order is the order of values, and a NaN compares with nothing. -/
theorem comparisonsFollowTheValues : Obligations.ComparisonsFollowTheValues := by
  refine ⟨fun a b ha hb => ⟨lt_of_finite ha hb, le_of_finite ha hb⟩, fun a b hnan => ?_⟩
  rcases hnan with h | h
  · simp [lt, le, h]
  · simp [lt, le, h]

/-! ### Which magnitudes are values -/

/-- A finite magnitude is a factor below 2^24 times a power of two (R11). -/
theorem magUnits_eq_mul_two_pow (m : Nat) :
    ∃ f k, f < 2 ^ 24 ∧ magUnits m = f * 2 ^ k := by
  unfold magUnits
  split
  · exact ⟨m, 0, by omega, by simp⟩
  · exact ⟨_, _, by omega, rfl⟩

/-- The pattern with exponent `k + 1` and the 24-bit significand `q` stands for `q` times 2^k (R11). -/
theorem magUnits_normal {q : Nat} (k : Nat) (hlo : 2 ^ 23 ≤ q) (hhi : q < 2 ^ 24) :
    magUnits (k * 2 ^ 23 + q) = q * 2 ^ k := by
  have hd : (k * 2 ^ 23 + q) / 2 ^ 23 = k + 1 := by omega
  have hm : 2 ^ 23 + (k * 2 ^ 23 + q) % 2 ^ 23 = q := by omega
  unfold magUnits
  rw [hd, hm, if_neg (Nat.succ_ne_zero k), Nat.add_sub_cancel]

theorem magUnits_subnormal {m : Nat} (h : m < 2 ^ 23) : magUnits m = m :=
  if_pos (by omega)

/-- Every factor below 2^24 times a power of two is the magnitude of a pattern. -/
theorem exists_magUnits_eq {f : Nat} (k : Nat) (hf : f < 2 ^ 24) : ∃ m, magUnits m = f * 2 ^ k := by
  induction k generalizing f with
  | zero =>
    rcases Nat.lt_or_ge f (2 ^ 23) with h | h
    · exact ⟨f, by simpa using magUnits_subnormal h⟩
    · exact ⟨_, magUnits_normal 0 h hf⟩
  | succ k ih =>
    rcases Nat.lt_or_ge f (2 ^ 23) with h | h
    · obtain ⟨m, hm⟩ := ih (f := 2 * f) (by omega)
      exact ⟨m, by rw [hm, Nat.pow_succ]; ring⟩
    · exact ⟨_, magUnits_normal (k + 1) h hf⟩

/-! ### The exact remainder -/

/-- The remainder of two magnitudes is a magnitude: on the coarser of the two grids it is below the divisor,
on the finer it is no more than the dividend. -/
theorem exists_magUnits_eq_mod (a b : Nat) (hb : 0 < magUnits b) :
    ∃ m, magUnits m = magUnits a % magUnits b := by
  obtain ⟨f, i, hf, ha⟩ := magUnits_eq_mul_two_pow a
  obtain ⟨g, j, hg, hb'⟩ := magUnits_eq_mul_two_pow b
  rw [ha, hb']
  rcases Nat.le_total i j with hij | hij
  · obtain ⟨d, rfl⟩ := Nat.exists_eq_add_of_le hij
    have h : f * 2 ^ i % (g * 2 ^ (i + d)) = f % (g * 2 ^ d) * 2 ^ i := by
      rw [show g * 2 ^ (i + d) = g * 2 ^ d * 2 ^ i by ring, Nat.mul_mod_mul_right]
    rw [h]
    exact exists_magUnits_eq i ((Nat.mod_le _ _).trans_lt hf)
  · obtain ⟨d, rfl⟩ := Nat.exists_eq_add_of_le hij
    have h : f * 2 ^ (j + d) % (g * 2 ^ j) = f * 2 ^ d % g * 2 ^ j := by
      rw [show f * 2 ^ (j + d) = f * 2 ^ d * 2 ^ j by ring, Nat.mul_mod_mul_right]
    have hg0 : 0 < g := Nat.pos_of_mul_pos_right (hb' ▸ hb)
    rw [h]
    exact exists_magUnits_eq j ((Nat.mod_lt _ hg0).trans hg)

/-- A magnitude that is a value is its own rounding, with either sign (R11). -/
theorem rne_magUnits {m : Nat} (neg : Bool) (h : m < infMag) :
    isFinite (rne neg (magUnits m) 1) = true ∧
      val (rne neg (magUnits m) 1) = if neg then -(magUnits m : Int) else magUnits m := by
  have hmag : mag (rne neg (magUnits m) 1) = m := by rw [mag_rne, roundMag_exact h.le]
  exact ⟨by simp [isFinite, hmag, h], by simp [val, units, hmag]⟩

theorem val_eq_units {w : Word} (h : 0 ≤ val w) : val w = units w := by
  unfold val at h ⊢
  split at h <;> simp_all

/-- Settles O52: the remainder of two values is a value, so its rounding is exact. -/
theorem fmodIsTheExactRemainder : Obligations.FmodIsTheExactRemainder := by
  intro free a b ha hza hb hzb
  have hva : 0 ≤ val a := (le_of_finite rfl ha).mp hza
  have hvb : 0 < val b := (lt_of_finite rfl hb).mp hzb
  have hub : 0 < units b := by rw [val_eq_units hvb.le] at hvb; exact_mod_cast hvb
  obtain ⟨m, hm⟩ := exists_magUnits_eq_mod (mag a) (mag b) hub
  have hmb : m < mag b := magUnits_strictMono.lt_iff_lt.mp (hm ▸ Nat.mod_lt _ hub)
  have hinf : mag b < infMag := by simpa [isFinite] using hb
  have hr : fmod free a b = rne (sign a) (magUnits m) 1 := by
    rw [hm]
    exact if_pos (by simp [fmodDefined, ha, hza, hb, hzb])
  obtain ⟨hfin, hval⟩ := rne_magUnits (sign a) (hmb.trans hinf)
  rw [hr, hval, val_eq_units hva, val_eq_units hvb.le]
  refine ⟨hfin, ?_⟩
  have hmod : (magUnits m : Int) = (units a : Int) % (units b : Int) := by exact_mod_cast hm
  cases hs : sign a with
  | false => exact hmod
  | true =>
    have hzero : (units a : Int) = 0 := by
      have h : -(units a : Int) = units a := by simpa [val, hs] using val_eq_units hva
      omega
    rw [hmod, hzero]
    simp

end Sys2Proof.F32
end

section
/-! SUPPORT. Rounding and the four operations of binary32 (spec/00_scope.md R11, R12): the rounded pattern lies
between the midpoints to its two neighbours, from which come that no finite magnitude is nearer, that a tie is
even, and where rounding overflows; then each operation's equation on finite, infinite and NaN operands. -/

namespace Sys2Proof.F32

open Sys2Proof.Machine (IsRounding)

/-! ### The midpoints around a rounded pattern -/

/-- The pattern rounding gives where no exponent is too large; `roundMag` stops it at infinity. -/
def roundPattern (n d : Nat) : Nat :=
  roundShift n d * 2 ^ 23 + roundNearest n (d * 2 ^ roundShift n d)

theorem roundMag_eq_min (n d : Nat) : roundMag n d = min (roundPattern n d) infMag := rfl

/-- `n / d` lies between the midpoints from pattern `r` to its two neighbours, and on one only if `r` is even. -/
structure BetweenMidpoints (n d r : Nat) : Prop where
  above    : 2 * n ≤ (magUnits r + magUnits (r + 1)) * d
  aboveTie : 2 * n = (magUnits r + magUnits (r + 1)) * d → r % 2 = 0
  below    : ∀ p, p + 1 = r → (magUnits p + magUnits r) * d ≤ 2 * n
  belowTie : ∀ p, p + 1 = r → (magUnits p + magUnits r) * d = 2 * n → r % 2 = 0

/-- Significand and shift added as one number (`roundMag`) stand for `q` times 2^k: the lowest binade has no
smallest significand, and a significand that rounds up to 2^24 is the next binade's first. -/
theorem magUnits_significand {q k : Nat} (hlo : k = 0 ∨ 2 ^ 23 ≤ q) (hhi : q ≤ 2 ^ 24) :
    magUnits (k * 2 ^ 23 + q) = q * 2 ^ k := by
  rcases Nat.lt_or_ge q (2 ^ 23) with h | h
  · obtain rfl : k = 0 := by omega
    simpa using magUnits_subnormal h
  · rcases Nat.lt_or_ge q (2 ^ 24) with h' | h'
    · exact magUnits_normal k h h'
    · obtain rfl : q = 2 ^ 24 := by omega
      have := magUnits_normal (q := 2 ^ 23) (k + 1) le_rfl (by decide)
      rw [show k * 2 ^ 23 + 2 ^ 24 = (k + 1) * 2 ^ 23 + 2 ^ 23 by omega, this]
      rw [Nat.pow_succ]
      ring

/-- The next pattern's magnitude is at least one unit of the significand away. -/
theorem le_magUnits_succ {q : Nat} (k : Nat) (hlo : k = 0 ∨ 2 ^ 23 ≤ q) (hhi : q ≤ 2 ^ 24) :
    (q + 1) * 2 ^ k ≤ magUnits (k * 2 ^ 23 + q + 1) := by
  rcases Nat.lt_or_ge q (2 ^ 24) with h | h
  · rw [Nat.add_assoc, magUnits_significand (by omega) h]
  · obtain rfl : q = 2 ^ 24 := by omega
    have hu := magUnits_normal (q := 2 ^ 23 + 1) (k + 1) (by decide) (by decide)
    have hr : k * 2 ^ 23 + 2 ^ 24 + 1 = (k + 1) * 2 ^ 23 + (2 ^ 23 + 1) := by omega
    rw [hr, hu, Nat.pow_succ]
    omega

/-- Inside a binade the pattern before is one unit of the significand below. -/
theorem magUnits_pred {p q k : Nat} (hlo : k = 0 ∨ 2 ^ 23 < q) (hhi : q ≤ 2 ^ 24)
    (hp : p + 1 = k * 2 ^ 23 + q) (hq : 0 < q) : magUnits p + 2 ^ k = q * 2 ^ k := by
  obtain ⟨c, rfl⟩ := Nat.exists_eq_add_of_lt hq
  obtain rfl : p = k * 2 ^ 23 + c := by omega
  rw [magUnits_significand (by omega) (by omega)]
  ring

/-- Above the lowest binade a ratio is at least the binade's first value. -/
theorem le_div_shift {n d : Nat} (h : 0 < roundShift n d) : 2 ^ 23 * (d * 2 ^ roundShift n d) ≤ n := by
  have h0 : n / d ≠ 0 := by
    intro h0
    simp [roundShift, h0] at h
  have hk : 2 ^ (23 + roundShift n d) ≤ n / d :=
    (Nat.le_log2 h0).mp (by unfold roundShift at h ⊢; omega)
  calc 2 ^ 23 * (d * 2 ^ roundShift n d) = 2 ^ (23 + roundShift n d) * d := by ring
    _ ≤ n / d * d := Nat.mul_le_mul_right d hk
    _ ≤ n := Nat.div_mul_le_self n d

/-- The midpoint to the next pattern is half a unit of the significand above, or more. -/
theorem le_midpoint_succ {q k : Nat} (d : Nat) (hlo : k = 0 ∨ 2 ^ 23 ≤ q) (hhi : q ≤ 2 ^ 24) :
    (2 * q + 1) * (d * 2 ^ k) ≤
      (magUnits (k * 2 ^ 23 + q) + magUnits (k * 2 ^ 23 + q + 1)) * d := by
  have hr := magUnits_significand hlo hhi
  have hs := le_magUnits_succ k hlo hhi
  calc (2 * q + 1) * (d * 2 ^ k) = (q * 2 ^ k + (q + 1) * 2 ^ k) * d := by ring
    _ ≤ _ := by rw [hr]; gcongr

/-- The midpoint to the pattern before is half a unit of the significand below, save at a binade's first
pattern, where a ratio `n / d` no smaller than that pattern is past the midpoint anyway. -/
theorem midpoint_pred {n d p q k : Nat} (hd : 0 < d)
    (hlo : k = 0 ∨ (2 ^ 23 ≤ q ∧ 2 ^ 23 * (d * 2 ^ k) ≤ n)) (hhi : q ≤ 2 ^ 24)
    (hp : p + 1 = k * 2 ^ 23 + q) :
    (magUnits p + magUnits (k * 2 ^ 23 + q)) * d + d * 2 ^ k = 2 * q * (d * 2 ^ k) ∨
      (magUnits p + magUnits (k * 2 ^ 23 + q)) * d < 2 * n := by
  have hr := magUnits_significand (hlo.imp_right And.left) hhi
  by_cases hq : k = 0 ∨ 2 ^ 23 < q
  · left
    have hpred := magUnits_pred hq hhi hp (by omega)
    calc (magUnits p + magUnits (k * 2 ^ 23 + q)) * d + d * 2 ^ k
        = ((magUnits p + 2 ^ k) + q * 2 ^ k) * d := by rw [hr]; ring
      _ = 2 * q * (d * 2 ^ k) := by rw [hpred]; ring
  · right
    obtain ⟨hq', hn⟩ := hlo.resolve_left (fun h => hq (.inl h))
    obtain rfl : q = 2 ^ 23 := by omega
    have hlt : magUnits p < 2 ^ 23 * 2 ^ k := hr ▸ magUnits_strictMono (by omega)
    calc (magUnits p + magUnits (k * 2 ^ 23 + 2 ^ 23)) * d
        < (2 ^ 23 * 2 ^ k + 2 ^ 23 * 2 ^ k) * d := by rw [hr]; gcongr
      _ = 2 * (2 ^ 23 * (d * 2 ^ k)) := by ring
      _ ≤ 2 * n := Nat.mul_le_mul_left 2 hn

theorem betweenMidpoints_roundPattern (n : Nat) {d : Nat} (hd : 0 < d) :
    BetweenMidpoints n d (roundPattern n d) := by
  have hhi := roundNearest_shift_le n d
  have hlo : roundShift n d = 0 ∨
      (2 ^ 23 ≤ roundNearest n (d * 2 ^ roundShift n d) ∧ 2 ^ 23 * (d * 2 ^ roundShift n d) ≤ n) :=
    (Nat.eq_zero_or_pos _).imp_right fun h => ⟨le_roundNearest_shift h, le_div_shift h⟩
  obtain ⟨⟨hup, hupTie⟩, hdown, hdownTie⟩ :=
    roundNearest_spec n (d := d * 2 ^ roundShift n d) (by positivity)
  unfold roundPattern
  generalize roundNearest n (d * 2 ^ roundShift n d) = q at *
  generalize roundShift n d = k at *
  have habove := le_midpoint_succ d (hlo.imp_right And.left) hhi
  constructor
  · exact hup.trans habove
  · intro h
    have := hupTie (by omega)
    omega
  · intro p hp
    have := midpoint_pred hd hlo hhi hp
    omega
  · intro p hp h
    have hmid := midpoint_pred hd hlo hhi hp
    have := hdownTie (by omega)
    omega

/-! ### The nearest magnitude and the overflow -/

/-- Between its midpoints, a pattern's magnitude is nearest, and another is as near only if it is even. -/
theorem BetweenMidpoints.nearest {n d r : Nat} (h : BetweenMidpoints n d r) (hd : 0 < d) {m : Nat}
    (hm : m ≠ r) :
    ((n : Int) - magUnits r * d).natAbs ≤ ((n : Int) - magUnits m * d).natAbs ∧
      (((n : Int) - magUnits r * d).natAbs = ((n : Int) - magUnits m * d).natAbs → r % 2 = 0) := by
  obtain ⟨habove, haboveTie, hbelow, hbelowTie⟩ := h
  simp only [← Nat.cast_mul]
  simp only [Nat.add_mul] at *
  rcases Nat.lt_or_gt_of_ne hm with hlt | hgt
  · obtain ⟨p, rfl⟩ : ∃ p, r = p + 1 := ⟨r - 1, by omega⟩
    have hb := hbelow p rfl
    have hbt := hbelowTie p rfl
    have hmp : magUnits m * d ≤ magUnits p * d :=
      Nat.mul_le_mul_right d (magUnits_strictMono.monotone (by omega))
    have hmr : magUnits m * d < magUnits (p + 1) * d :=
      Nat.mul_lt_mul_of_pos_right (magUnits_strictMono hlt) hd
    omega
  · have hrm : magUnits (r + 1) * d ≤ magUnits m * d :=
      Nat.mul_le_mul_right d (magUnits_strictMono.monotone hgt)
    have hmr : magUnits r * d < magUnits m * d :=
      Nat.mul_lt_mul_of_pos_right (magUnits_strictMono hgt) hd
    omega

/-- The largest finite magnitude and infinity's pattern, whose midpoint is (2^25 - 1) * 2^252 units. -/
theorem magUnits_overflow :
    magUnits (infMag - 1) + magUnits infMag = 2 * ((2 ^ 25 - 1) * 2 ^ 252) := by
  decide +kernel

/-- Rounding overflows exactly from that midpoint on (R11). -/
theorem roundMag_eq_infMag_iff (n : Nat) {d : Nat} (hd : 0 < d) :
    roundMag n d = infMag ↔ (2 ^ 25 - 1) * 2 ^ 252 * d ≤ n := by
  obtain ⟨habove, haboveTie, hbelow, -⟩ := betweenMidpoints_roundPattern n hd
  have hmid : (magUnits (infMag - 1) + magUnits infMag) * d = 2 * ((2 ^ 25 - 1) * 2 ^ 252 * d) := by
    rw [magUnits_overflow, Nat.mul_assoc]
  rw [roundMag_eq_min, min_eq_right_iff]
  generalize (2 ^ 25 - 1) * 2 ^ 252 * d = mid at *
  generalize roundPattern n d = r at *
  constructor
  · intro h
    obtain ⟨p, rfl⟩ : ∃ p, r = p + 1 := ⟨r - 1, by unfold infMag at h; omega⟩
    have hle : (magUnits (infMag - 1) + magUnits infMag) * d ≤ (magUnits p + magUnits (p + 1)) * d := by
      gcongr <;> apply magUnits_strictMono.monotone <;> omega
    have := hbelow p rfl
    omega
  · intro h
    by_contra hr
    rcases Nat.lt_or_ge r (infMag - 1) with hlt | hge
    · have hs : (magUnits r + magUnits (r + 1)) * d < (magUnits (infMag - 1) + magUnits infMag) * d := by
        refine Nat.mul_lt_mul_of_pos_right (Nat.add_lt_add_of_lt_of_le ?_ ?_) hd
        · exact magUnits_strictMono hlt
        · exact magUnits_strictMono.monotone (by omega)
      omega
    · obtain rfl : r = infMag - 1 := by omega
      have htie : (infMag - 1) % 2 = 0 := haboveTie (by
        rw [show infMag - 1 + 1 = infMag from rfl] at habove ⊢
        omega)
      exact absurd htie (by decide)

/-- A finite rounding is the nearest finite magnitude, ties to the even pattern (R11). -/
theorem roundMag_nearest {n d m : Nat} (hd : 0 < d) (hfin : roundMag n d < infMag)
    (hm : m ≠ roundMag n d) :
    ((n : Int) - magUnits (roundMag n d) * d).natAbs ≤ ((n : Int) - magUnits m * d).natAbs ∧
      (((n : Int) - magUnits (roundMag n d) * d).natAbs = ((n : Int) - magUnits m * d).natAbs →
        roundMag n d % 2 = 0) := by
  have h : roundMag n d = roundPattern n d := by rw [roundMag_eq_min] at hfin ⊢; omega
  rw [h] at hm ⊢
  exact (betweenMidpoints_roundPattern n hd).nearest hd hm

/-! ### The operations on finite operands -/

theorem isRounding_rne (s : Bool) (n d : Nat) : IsRounding (rne s n d) s n d :=
  ⟨sign_rne s n d, mag_rne s n d⟩

theorem add_of_finite {a b : Word} (nan : Word) (ha : isFinite a = true) (hb : isFinite b = true) :
    add nan a b = if val a + val b = 0 then pack (sign a && sign b) 0
      else rne (decide (val a + val b < 0)) (val a + val b).natAbs 1 := by
  simp [add, not_nan_of_finite ha, not_nan_of_finite hb, not_inf_of_finite ha, not_inf_of_finite hb]

theorem mul_of_finite {a b : Word} (nan : Word) (ha : isFinite a = true) (hb : isFinite b = true) :
    mul nan a b = rne (sign a != sign b) (units a * units b) (2 ^ 149) := by
  simp [mul, not_nan_of_finite ha, not_nan_of_finite hb, not_inf_of_finite ha, not_inf_of_finite hb]

theorem div_of_finite {a b : Word} (nan : Word) (ha : isFinite a = true) (hb : isFinite b = true) :
    div nan a b = if isZero b then (if isZero a then nan else pack (sign a != sign b) infMag)
      else rne (sign a != sign b) (units a * 2 ^ 149) (units b) := by
  simp [div, not_nan_of_finite ha, not_nan_of_finite hb, not_inf_of_finite ha, not_inf_of_finite hb]

/-- A sum of finite operands is the rounding of the exact sum; a zero sum is -0 of two negative terms only
(log entry 15). -/
theorem add_isRounding {a b : Word} (nan : Word) (ha : isFinite a = true) (hb : isFinite b = true) :
    (val a + val b ≠ 0 →
      IsRounding (add nan a b) (decide (val a + val b < 0)) (val a + val b).natAbs 1) ∧
    (val a + val b = 0 → add nan a b = pack (sign a && sign b) 0) := by
  rw [add_of_finite nan ha hb]
  constructor
  · intro h
    rw [if_neg h]
    exact isRounding_rne _ _ _
  · exact fun h => if_pos h

/-- A difference is the sum with the second operand's sign flipped (R12). -/
theorem sub_isRounding {a b : Word} (nan : Word) (ha : isFinite a = true) (hb : isFinite b = true) :
    (val a - val b ≠ 0 →
      IsRounding (sub nan a b) (decide (val a - val b < 0)) (val a - val b).natAbs 1) ∧
    (val a - val b = 0 → sub nan a b = pack (sign a && !sign b) 0) := by
  simpa [sub, ← Int.sub_eq_add_neg] using add_isRounding nan ha (b := neg b) (by simpa using hb)

/-! ### The operations on infinities and NaNs -/

theorem operations_of_nan {a b : Word} (nan : Word) (h : isNaN a = true ∨ isNaN b = true) :
    add nan a b = nan ∧ sub nan a b = nan ∧ mul nan a b = nan ∧ div nan a b = nan := by
  rcases h with h | h
  · simp [add, sub, mul, div, h]
  · simp [add, sub, mul, div, h]

theorem not_nan_of_inf {w : Word} (h : isInf w = true) : isNaN w = false := by
  simp only [isInf, isNaN, decide_eq_true_eq, decide_eq_false_iff_not] at h ⊢
  omega

theorem not_zero_of_inf {w : Word} (h : isInf w = true) : isZero w = false := by
  simp only [isInf, isZero, decide_eq_true_eq, decide_eq_false_iff_not] at h ⊢
  rw [h]
  decide

/-- Two infinities of the same sign are the same word (R11). -/
theorem eq_of_inf {a b : Word} (ha : isInf a = true) (hb : isInf b = true) (hs : sign a = sign b) :
    a = b := by
  simp only [isInf, decide_eq_true_eq] at ha hb
  exact ext_word hs (ha.trans hb.symm)

section Infinite

variable {a b : Word} (nan : Word) (ha : isInf a = true) (hb : isNaN b = false)
include ha hb

theorem add_inf_left : add nan a b = if isInf b && (sign a != sign b) then nan else a := by
  simp [add, not_nan_of_inf ha, hb, ha]

theorem add_inf_right : add nan b a = if isInf b && (sign a != sign b) then nan else a := by
  cases hi : isInf b with
  | false => simp [add, not_nan_of_inf ha, hb, ha, hi]
  | true =>
    by_cases hs : sign a = sign b
    · obtain rfl := eq_of_inf ha hi hs
      simp [add, hb, ha]
    · simp [add, not_nan_of_inf ha, hb, ha, hi, hs, Ne.symm hs]

theorem mul_inf_left :
    mul nan a b = if isZero b then nan else pack (sign a != sign b) infMag := by
  simp [mul, not_nan_of_inf ha, hb, ha, not_zero_of_inf ha]

theorem mul_inf_right :
    mul nan b a = if isZero b then nan else pack (sign a != sign b) infMag := by
  simp [mul, not_nan_of_inf ha, hb, ha, not_zero_of_inf ha, bne_comm (a := sign b)]

theorem div_inf_left :
    div nan a b = if isInf b then nan else pack (sign a != sign b) infMag := by
  simp [div, not_nan_of_inf ha, hb, ha]

theorem div_inf_right :
    div nan b a = if isInf b then nan else pack (sign a != sign b) 0 := by
  simp [div, not_nan_of_inf ha, hb, ha, bne_comm (a := sign b)]

end Infinite

/-- Settles O50, from the midpoints around a rounded pattern and each operation's equation on each kind of
operand. -/
theorem roundingIsToNearestEven : Obligations.RoundingIsToNearestEven := by
  refine ⟨fun n d hd => ⟨roundMag_eq_infMag_iff n hd, fun hfin m _ => ?_⟩, fun nan a b ha hb => ?_,
    fun nan a b => operations_of_nan nan, fun nan a b ha hb => ?_⟩
  · by_cases hm : m = roundMag n d
    · subst hm
      exact ⟨le_rfl, fun _ h => absurd rfl h⟩
    · obtain ⟨hnear, htie⟩ := roundMag_nearest hd hfin hm
      exact ⟨hnear, fun h _ => htie h⟩
  · obtain ⟨hsum, hsum0⟩ := add_isRounding nan ha hb
    obtain ⟨hdiff, hdiff0⟩ := sub_isRounding nan ha hb
    refine ⟨hsum, hsum0, hdiff, hdiff0, ?_, fun hz => ?_, fun hz => ?_⟩
    · rw [mul_of_finite nan ha hb]
      exact isRounding_rne _ _ _
    · rw [div_of_finite nan ha hb, if_neg (by simp [hz])]
      exact isRounding_rne _ _ _
    · rw [div_of_finite nan ha hb, if_pos hz]
  · refine ⟨add_inf_left nan ha hb, add_inf_right nan ha hb, ?_, ?_, mul_inf_left nan ha hb,
      mul_inf_right nan ha hb, div_inf_left nan ha hb, div_inf_right nan ha hb⟩
    · simpa [sub] using add_inf_left nan ha (b := neg b) (by simpa using hb)
    · simpa [sub] using add_inf_right nan (a := neg a) (by simpa using ha) hb

end Sys2Proof.F32
end

section
/-! SUPPORT. A sound state stays sound (spec/10_state.md R50, R51): first for each part of the state that a
step can write, then for each command, for the host's step and for a reset pulse, and so for every step. -/

namespace Sys2Proof.Machine

/-! ### The state after reset -/

/-- With no byte listed, every word of OUTBUF reads +0.0 (R35). -/
theorem readWord_nil (a : Nat) : Memory.readWord [] a = 0#32 := by
  show Memory.unlisted ++ Memory.unlisted ++ Memory.unlisted ++ Memory.unlisted = 0#32
  decide

/-- Settles O11: each field is written out in the reset state's definition, and OUTBUF lists no byte. -/
theorem resetGivesTheResetValues : Obligations.ResetGivesTheResetValues := by
  intro p
  exact ⟨rfl, rfl, rfl, rfl, rfl, rfl, rfl, rfl, rfl, rfl, rfl, rfl, rfl, rfl, rfl, fun _ _ => readWord_nil _⟩

/-- A silent record with a legal frequency is sound (R22 to R24). -/
theorem oscOk_silent (k : OscKind) {f : Word} (hf : freqAccepted f = true) : OscOk k ⟨k, f, F32.zero, F32.zero⟩ :=
  have hzero : levelAccepted F32.zero = true := by decide +kernel
  ⟨rfl, hf, hzero, hzero⟩

theorem bankOk_reset (p : Params) : BankOk p (Bank.reset p) where
  main := oscOk_silent _ (by decide +kernel)
  sub := oscOk_silent _ (by decide +kernel)
  noise := oscOk_silent _ (by decide +kernel)

/-- With legal parameters the reset state is sound (R50, R51). -/
theorem sound_resetOf {p : Params} (hp : p.legal = true) : Sound (State.resetOf p) where
  params := hp
  bank := bankOk_reset p
  cutoffs := ⟨.inr rfl, rfl⟩
  outbuf := ⟨rfl, fun _ h => nomatch h⟩
  prepared := ⟨fun hyes => (nomatch hyes), fun _ => ⟨rfl, rfl, rfl, rfl⟩⟩
  queue := Nat.zero_le _
  executing := rfl

/-- The OPEN value RAMP_STEP is confined to its legal range, whatever the raw constant is (R8). -/
theorem rampStepLegal_default : Config.defaultParams.rampStepLegal = true := by
  show (F32.lt F32.zero Config.rampStep && F32.le Config.rampStep F32.one) = true
  unfold Config.rampStep
  split
  · assumption
  · decide +kernel

/-- RAMP_EPS is confined to its legal range; its replacement +0.0 is below every legal RAMP_STEP (R8). -/
theorem rampEpsLegal_default : Config.defaultParams.rampEpsLegal = true := by
  show (F32.le F32.zero Config.rampEps && F32.lt Config.rampEps Config.rampStep) = true
  unfold Config.rampEps
  split
  · assumption
  · have hstep : F32.lt F32.zero Config.rampStep = true := (Bool.and_eq_true_iff.mp rampStepLegal_default).1
    rw [hstep]
    decide +kernel

/-- NAN_VALUE is confined to the NaNs (R8, R12). -/
theorem nanLegal_default : Config.defaultParams.nanLegal = true := by
  show F32.isNaN Config.nanValue = true
  unfold Config.nanValue
  split
  · assumption
  · decide +kernel

theorem legal_defaultParams : Config.defaultParams.legal = true := by
  have hlp : Config.defaultParams.lpCutoffLegal = true := by decide +kernel
  have hhp : Config.defaultParams.hpCutoffLegal = true := by decide +kernel
  have hcounts : Config.defaultParams.countsPositive = true := by decide +kernel
  have hfits : Config.defaultParams.outbufFits = true := by decide +kernel
  simp [Params.legal, rampStepLegal_default, rampEpsLegal_default, hlp, hhp, hcounts, hfits, nanLegal_default]

/-- Settles O13: the default parameters are legal. -/
theorem resetIsSound : Obligations.ResetIsSound := sound_resetOf legal_defaultParams

/-! ### The parts of the state a step writes -/

/-- Soundness asks nothing of the host's side, and of the queue only its length (R33, R34). -/
theorem Sound.withHostSide {s : State} (h : Sound s) {q : List CmdEntry} (hq : q.length ≤ s.depth)
    (a0 a1 : Word) (n : Nat) (l : List HostOp) (ts : List Agent) (d : Word) :
    Sound { s with queue := q, arg0 := a0, arg1 := a1, freeIdx := n, pending := l, turns := ts, rdata := d } :=
  { h with
    prepared := ⟨h.prepared.yes, h.prepared.no⟩
    queue := hq }

/-- Soundness asks nothing of the note, the gate and the active flag, and of the oscillators only their own. -/
theorem Sound.withVoice {s : State} (h : Sound s) {b : Bank} (hb : BankOk s.par b) (f : Word) (a g : Bool) :
    Sound { s with bank := b, noteFreq := f, active := a, gate := g } :=
  { h with
    bank := hb
    prepared := ⟨h.prepared.yes, h.prepared.no⟩ }

/-- A block of at most N_MAX samples and C_MAX channels lies inside OUTBUF's window (R61, R63, R234). -/
theorem OutbufOk.writeChannels {p : Params} {m : Memory} (h : OutbufOk p m) {ys : List Word} {c : Nat}
    (hy : ys.length ≤ p.nMax.toNat) (hc : c ≤ p.cMax.toNat) :
    OutbufOk p (writeChannels p.nMax.toNat m ys c) where
  wf := wf_writeChannels _ h.wf ys c
  inside := by
    intro cell hcell
    rcases mem_writeChannels hcell with ⟨k, hk, hlo, hhi⟩ | hold
    · have hend : outAddr p.nMax.toNat k 0 + 4 * p.nMax.toNat ≤ outbufEnd p := outAddr_lt (hk.trans_le hc)
      have hbase : outbufBase ≤ outAddr p.nMax.toNat k 0 := Nat.le_add_right _ _
      simp only [inOutbuf, Bool.and_eq_true, decide_eq_true_eq]
      omega
    · exact h.inside cell hold

theorem blockAccepted_iff {p : Params} {n c : Nat} :
    blockAccepted p n c = true ↔ n ≤ p.nMax.toNat ∧ c ≤ p.cMax.toNat := by
  simp [blockAccepted]

/-- Cutoffs do not depend on the delay state (R161 to R163). -/
theorem CutoffsOk.of_sameButDelay {p : Params} {a b : Chain} (h : CutoffsOk p a)
    (hab : ChainSameButDelay a b) : CutoffsOk p b where
  lp := by rw [hab.1.cutoff]; exact h.lp
  hp := by rw [hab.2.cutoff]; exact h.hp

/-- A blank stage with another cutoff is blank (R27, R28). -/
theorem Stage.blank_withCutoff {f : Stage} (h : f.blank) (fc : Word) : Stage.blank { f with cutoff := fc } := by
  unfold Stage.blank at h ⊢
  rw [h]
  rfl

theorem retuned_cutoff (s : State) (fc : Word) : (s.retuned fc).cutoff = fc := by
  unfold State.retuned
  split <;> rfl

/-- Before PREPARE a new cutoff leaves the low-pass stage blank (R169). -/
theorem retuned_blank {s : State} (hs : s.prepared = false) (h : s.chain.lp.blank) (fc : Word) :
    (s.retuned fc).blank := by
  have hr : s.retuned fc = { s.chain.lp with cutoff := fc } := if_neg (by simp [hs])
  rw [hr]
  exact Stage.blank_withCutoff h fc

/-! ### The commands -/

/-- PREPARE keeps the cutoffs, and the rate it stores is one it accepts (R220). -/
theorem Sound.afterPrepare {s : State} (h : Sound s) {fs : Word} (hfs : rateAccepted fs = true) (hint : Word) :
    Sound { s with fs := fs, hint := hint, prepared := true, chain := s.chain.clear.design s.par fs } :=
  { h with
    cutoffs := ⟨h.cutoffs.lp, h.cutoffs.hp⟩
    prepared := ⟨fun _ => hfs, fun hno => nomatch hno⟩ }

/-- SETCUTOFF stores a cutoff it accepts; before PREPARE nothing else of the stage changes (R169). -/
theorem Sound.afterSetCutoff {s : State} (h : Sound s) {fc : Word} (hfc : cutoffAccepted fc = true) :
    Sound { s with chain := { s.chain with lp := s.retuned fc } } :=
  { h with
    cutoffs := ⟨.inl (by rw [retuned_cutoff]; exact hfc), h.cutoffs.hp⟩
    prepared := by
      refine ⟨h.prepared.yes, fun hno => ?_⟩
      obtain ⟨hfs, hhint, hlp, hhp⟩ := h.prepared.no hno
      exact ⟨hfs, hhint, retuned_blank (s := s) hno hlp fc, hhp⟩ }

theorem Sound.zeroFilled {s : State} (h : Sound s) {n c : Nat} (hb : blockAccepted s.par n c = true) :
    Sound (s.zeroFilled n c) :=
  { h with
    outbuf := by
      obtain ⟨hn, hc⟩ := blockAccepted_iff.mp hb
      exact h.outbuf.writeChannels (by simpa using hn) hc
    prepared := ⟨h.prepared.yes, h.prepared.no⟩ }

/-- RENDER leaves the oscillators sound, of the chain only the delay state changed, and its block inside OUTBUF
(R226, R230, R234). -/
theorem Sound.rendered {s : State} (h : Sound s) {n c : Nat} (hb : blockAccepted s.par n c = true)
    (hp : s.prepared = true) : Sound (s.rendered n c) :=
  { h with
    bank := h.bank.mixLoop h.params _ _ _ _
    cutoffs := h.cutoffs.of_sameButDelay (oversampleBlock_sameButDelay _ _ _)
    outbuf := by
      obtain ⟨hn, hc⟩ := blockAccepted_iff.mp hb
      refine h.outbuf.writeChannels ?_ hc
      rw [length_oversampleBlock]
      exact (length_mixLoop _ _ _ _ _ _).trans_le hn
    prepared := ⟨h.prepared.yes, fun hno => nomatch hp.symm.trans hno⟩ }

/-- Every command keeps a sound state sound (R51). -/
theorem Sound.afterExec {s t : State} (h : Sound s) {i : Instr} (he : exec i s = .next t) : Sound t := by
  cases i with
  | nop => cases he; exact h
  | prepare fs hint =>
    cases ha : rateAccepted fs with
    | true => cases (execPrepare_accepted ha hint s).symm.trans he; exact h.afterPrepare ha hint
    | false => cases (execPrepare_rejected ha hint s).symm.trans he; exact h
  | noteon f v =>
    cases he
    refine h.withVoice ?_ _ _ _
    exact ⟨h.bank.main.setFrequency _, h.bank.sub.setFrequency _, h.bank.noise⟩
  | noteoff n v => cases he; exact h.withVoice h.bank _ _ _
  | setlevel k l => cases he; exact h.withVoice (h.bank.set ((h.bank.get k).setLevel _)) _ _ _
  | setfreq k f => cases he; exact h.withVoice (h.bank.set ((h.bank.get k).setFrequency _)) _ _ _
  | setcutoff hz =>
    cases ha : cutoffAccepted hz with
    | true => cases (execSetCutoff_accepted ha s).symm.trans he; exact h.afterSetCutoff ha
    | false => cases (execSetCutoff_rejected ha s).symm.trans he; exact h
  | render n c =>
    rcases execRender_cases n c s with hr | ⟨hb, hr⟩ | ⟨hb, hp, hr⟩
    · cases hr.symm.trans he; exact h
    · cases hr.symm.trans he; exact h.zeroFilled hb
    · cases hr.symm.trans he; exact h.rendered hb hp
  | setmode g => cases he; exact h.withVoice h.bank _ _ _

/-! ### The agents and the reset input -/

theorem Sound.afterUseTurn {s : State} (h : Sound s) : Sound (useTurn s) :=
  h.withHostSide h.queue _ _ _ _ _ _

theorem Sound.afterPopped {s : State} (h : Sound s) : Sound (popped s) :=
  h.withHostSide (by simpa using (Nat.sub_le _ 1).trans h.queue) _ _ _ _ _ _

/-- The host enqueues only while there is room (R68). -/
theorem Sound.afterHostStep {s : State} (h : Sound s) : Sound (hostStep s) := by
  rcases hostStep_cases s with ⟨n, l, d, hs⟩ | ⟨w, l, hs⟩ | ⟨w, l, hs⟩ | ⟨w, l, hroom, hs⟩
  · rw [hs]; exact h.withHostSide h.queue _ _ _ _ _ _
  · rw [hs]; exact h.withHostSide h.queue _ _ _ _ _ _
  · rw [hs]; exact h.withHostSide h.queue _ _ _ _ _ _
  · rw [hs]
    have hlt : s.queue.length < s.depth := by simpa [State.hasRoom] using hroom
    exact h.withHostSide (q := s.queue ++ [⟨w, s.arg0, s.arg1⟩]) (by simpa using hlt) _ _ _ _ _ _

theorem Sound.afterHardReset {s : State} (h : Sound s) : Sound (hardReset s) :=
  (sound_resetOf h.params).withHostSide (Nat.zero_le _) _ _ _ _ _ _

/-- Settles O14, by the cases of a step. -/
theorem everyStepKeepsTheStateSound : Obligations.EveryStepKeepsTheStateSound := by
  intro s t h hs
  rcases step_cases s with
    ⟨-, hc⟩ | ⟨-, hc⟩ | ⟨-, -, hc⟩ | ⟨e, rest, i, -, -, -, hc⟩ | ⟨e, rest, r, -, -, -, hc⟩
  · cases hc.symm.trans hs; exact h.afterUseTurn.afterHostStep
  · cases hc.symm.trans hs; exact h.afterUseTurn.afterHardReset
  · cases hc.symm.trans hs; exact h.afterUseTurn
  · exact h.afterPopped.afterExec (hc.symm.trans hs)
  · cases hc.symm.trans hs; exact h.afterPopped

end Sys2Proof.Machine
end

section
/-! SUPPORT. What no command writes (spec/10_state.md R33, R39; spec/20_memory.md R76): the host's side and the
queue, and so BUSY and FULL; each other flag is written by its own commands only. -/

namespace Sys2Proof.Machine

/-- Settles O9: every command leaves what lies outside the engine alone. -/
theorem commandsLeaveTheHostInterfaceAlone : Obligations.CommandsLeaveTheHostInterfaceAlone := by
  intro i s
  obtain ⟨t, he, ho⟩ := exec_next i s
  exact ⟨t, he, ho.arg0, ho.arg1, ho.queue, ho.executing, ho.par, ho.pending, ho.turns, ho.rdata⟩

/-- A next state of a command agrees with the state before it outside the engine. -/
theorem SameOutside.of_exec {i : Instr} {s t : State} (h : exec i s = .next t) : SameOutside s t := by
  obtain ⟨u, he, ho⟩ := exec_next i s
  cases he.symm.trans h
  exact ho

theorem SameOutside.busy {s t : State} (h : SameOutside s t) : t.busy = s.busy := by
  simp [State.busy, h.queue, h.executing]

theorem SameOutside.full {s t : State} (h : SameOutside s t) : t.full = s.full := by
  unfold State.full State.depth
  rw [h.queue, h.par]

/-- The flags that a command writes by itself: equal in `s` and `t`. -/
structure SameFlags (s t : State) : Prop where
  prepared : t.prepared = s.prepared
  active   : t.active = s.active
  gate     : t.gate = s.gate

theorem SameFlags.refl (s : State) : SameFlags s s := ⟨rfl, rfl, rfl⟩

theorem SameFlags.of_execSetCutoff {hz : Word} {s t : State} (h : execSetCutoff hz s = .next t) :
    SameFlags s t := by
  cases ha : cutoffAccepted hz with
  | true => cases (execSetCutoff_accepted ha s).symm.trans h; exact ⟨rfl, rfl, rfl⟩
  | false => cases (execSetCutoff_rejected ha s).symm.trans h; exact .refl s

theorem SameFlags.of_execRender {n c : Word} {s t : State} (h : execRender n c s = .next t) :
    SameFlags s t := by
  rcases execRender_cases n c s with hr | ⟨-, hr⟩ | ⟨-, -, hr⟩
  · cases hr.symm.trans h; exact .refl s
  · cases hr.symm.trans h; exact ⟨rfl, rfl, rfl⟩
  · cases hr.symm.trans h; exact ⟨rfl, rfl, rfl⟩

/-- PREPARE writes PREPARED and no other flag (R220). -/
theorem execPrepare_otherFlags {fs hint : Word} {s t : State} (h : execPrepare fs hint s = .next t) :
    t.active = s.active ∧ t.gate = s.gate := by
  cases ha : rateAccepted fs with
  | true => cases (execPrepare_accepted ha hint s).symm.trans h; exact ⟨rfl, rfl⟩
  | false => cases (execPrepare_rejected ha hint s).symm.trans h; exact ⟨rfl, rfl⟩

/-- Settles O10: BUSY and FULL are of the queue, which no command writes, and the others go command by
command. -/
theorem flagsAreWrittenOnlyByTheirCommands : Obligations.FlagsAreWrittenOnlyByTheirCommands := by
  intro i s t h
  have ho := SameOutside.of_exec h
  refine and_assoc.mp (and_assoc.mp ⟨?_, ho.busy, ho.full⟩)
  cases i with
  | nop | setlevel | setfreq => cases h; exact ⟨⟨.inl rfl, .inl rfl⟩, .inl rfl⟩
  | prepare fs hint =>
    obtain ⟨ha, hg⟩ := execPrepare_otherFlags h
    exact ⟨⟨.inr ⟨fs, hint, rfl⟩, .inl ha⟩, .inl hg⟩
  | noteon f v => cases h; exact ⟨⟨.inl rfl, .inr (.inl ⟨f, v, rfl⟩)⟩, .inl rfl⟩
  | noteoff n v => cases h; exact ⟨⟨.inl rfl, .inr (.inr ⟨n, v, rfl⟩)⟩, .inl rfl⟩
  | setmode g => cases h; exact ⟨⟨.inl rfl, .inl rfl⟩, .inr ⟨g, rfl⟩⟩
  | setcutoff hz =>
    obtain ⟨hp, ha, hg⟩ := SameFlags.of_execSetCutoff h
    exact ⟨⟨.inl hp, .inl ha⟩, .inl hg⟩
  | render n c =>
    obtain ⟨hp, ha, hg⟩ := SameFlags.of_execRender h
    exact ⟨⟨.inl hp, .inl ha⟩, .inl hg⟩

end Sys2Proof.Machine
end

section
/-! SUPPORT. A rising level never falls (spec/40_oscillator.md R125, R126): rounding is monotone, so a sum with a
term that is not negative is no smaller than the other term. -/

namespace Sys2Proof.F32

theorem key_le_mag (w : Word) : key w ≤ mag w := by
  unfold key
  split <;> omega

/-- A value from +0.0 up to a finite one is finite. -/
theorem isFinite_of_inRange {hi w : Word} (hhi : isFinite hi = true) (h : inRange zero hi w = true) :
    isFinite w = true := by
  simp only [inRange, Bool.and_eq_true] at h
  obtain ⟨hlo, hup⟩ := h
  have h0 : 0 ≤ key w := (le_iff.mp hlo).2.2
  have h1 : key w ≤ mag hi := (le_iff.mp hup).2.2.trans (key_le_mag hi)
  simp only [isFinite, decide_eq_true_eq] at hhi ⊢
  rcases key_nonneg_iff.mp h0 with hs | hm
  · simp only [key, hs, Bool.false_eq_true, if_false] at h1
    omega
  · rw [hm]
    decide

/-- Adding a value that is not negative gives no smaller value, whatever the rounding (R11, R12). -/
theorem le_add_nonneg {a b : Word} (nan : Word) (ha : isFinite a = true) (hb : isFinite b = true)
    (ha0 : 0 ≤ key a) (hb0 : 0 ≤ key b) : le a (add nan a b) = true := by
  have hva := val_nonneg_of_key ha0
  have hvb := val_nonneg_of_key hb0
  have hua := val_eq_units hva
  rw [add_of_finite nan ha hb]
  split
  · have hkey : key a ≤ 0 := by
      have h := key_lt_iff_val_lt zero a
      rw [show key zero = 0 from rfl, show val zero = 0 from rfl] at h
      omega
    refine le_iff.mpr ⟨not_nan_of_finite ha, ?_, ?_⟩
    · simp [isNaN, infMag]
    · simpa [key] using hkey
  · have hfin : mag a < infMag := by simpa [isFinite] using ha
    have hmag : mag a ≤ roundMag (val a + val b).natAbs 1 := by
      rw [← roundMag_exact hfin.le]
      exact roundMag_mono Nat.one_pos Nat.one_pos (by unfold units at hua; omega)
    refine le_iff.mpr ⟨not_nan_of_finite ha, isNaN_rne _ _ _, ?_⟩
    have hkey : key (rne (decide (val a + val b < 0)) (val a + val b).natAbs 1) =
        roundMag (val a + val b).natAbs 1 := by
      have hpos : ¬ val a + val b < 0 := by omega
      simp [key, hpos]
    rw [hkey]
    exact (key_le_mag a).trans (Int.ofNat_le.mpr hmag)

end Sys2Proof.F32

namespace Sys2Proof.Machine

theorem isFinite_of_levelAccepted {l : Word} (h : levelAccepted l = true) : F32.isFinite l = true :=
  F32.isFinite_of_inRange (by decide) h

theorem key_nonneg_of_levelAccepted {l : Word} (h : levelAccepted l = true) : 0 ≤ F32.key l :=
  (F32.le_iff.mp (levelAccepted_iff.mp h).1).2.2

/-- A legal RAMP_STEP is a legal level (R8). -/
theorem levelAccepted_rampStep {p : Params} (hp : p.legal = true) : levelAccepted p.rampStep = true := by
  simp only [Params.legal, Params.rampStepLegal, Bool.and_eq_true] at hp
  obtain ⟨⟨⟨⟨⟨⟨⟨hpos, hone⟩, -⟩, -⟩, -⟩, -⟩, -⟩, -⟩ := hp
  exact levelAccepted_iff.mpr ⟨F32.le_of_lt hpos, hone⟩

/-- From a level at most its target the ramp's level is no lower: it is a step up or the target (R125). -/
theorem le_rampLevel {p : Params} (hp : p.legal = true) {target current : Word}
    (hc : levelAccepted current = true) (hle : F32.le current target = true) :
    F32.le current (rampLevel p target current) = true := by
  have hstep := levelAccepted_rampStep hp
  have hadd : F32.le current (F32.add p.nanValue current p.rampStep) = true :=
    F32.le_add_nonneg _ (isFinite_of_levelAccepted hc) (isFinite_of_levelAccepted hstep)
      (key_nonneg_of_levelAccepted hc) (key_nonneg_of_levelAccepted hstep)
  unfold rampLevel F32.minimum
  split
  · split
    · exact hadd
    · exact hle
  · exact hle

/-- Settles O35, from the ramp's level being no lower than the level, at most the target, and legal. -/
theorem rampRisesAndNeverOvershoots : Obligations.RampRisesAndNeverOvershoots := by
  intro p o hp ht hc hle
  exact ⟨le_rampLevel hp hc hle, rampLevel_le_target (isNaN_of_levelAccepted ht), levelAccepted_rampLevel hp ht hc⟩

end Sys2Proof.Machine
end

section
/-! SUPPORT. The register map by its list (spec/10_state.md R40 to R49), what a 32-bit read returns (R285;
spec/20_memory.md R62 to R67), and the bits of STATUS (R42). -/

namespace Sys2Proof.Machine

/-! ### The register map -/

theorem registerTable_eq (s : State) : registerTable s = Reg.all.map fun r => (r.offset, r.value s) := rfl

theorem mem_registerTable {s : State} {off : Nat} {v : Word} (h : (off, v) ∈ registerTable s) :
    ∃ r ∈ Reg.all, r.offset = off ∧ r.value s = v := by
  simpa [registerTable_eq] using h

/-- No two registers have the same offset (R41 to R48). -/
theorem regAt_offset : ∀ r ∈ Reg.all, regAt r.offset = some r := by decide

theorem offset_aligned : ∀ r ∈ Reg.all, r.offset % 4 = 0 := by decide

theorem offset_lt_outbufBase : ∀ r ∈ Reg.all, r.offset < outbufBase := by decide

theorem regAt_of_outbuf {off : Nat} (h : outbufBase ≤ off) : regAt off = none := by
  refine List.find?_eq_none.mpr fun r hr heq => ?_
  have hlt := offset_lt_outbufBase r hr
  rw [eq_of_beq heq] at hlt
  omega

/-- The listed offsets of each class are those of its registers (R40). -/
theorem classAOffsets_eq : classAOffsets = (Reg.all.filter (!·.classB)).map Reg.offset := by decide

theorem classBOffsets_eq : classBOffsets = (Reg.all.filter Reg.classB).map Reg.offset := by decide

theorem mem_classAOffsets {off : Nat} (h : off ∈ classAOffsets) :
    ∃ r ∈ Reg.all, r.classB = false ∧ r.offset = off := by
  simpa [classAOffsets_eq, and_assoc] using h

theorem mem_classBOffsets {off : Nat} (h : off ∈ classBOffsets) :
    ∃ r ∈ Reg.all, r.classB = true ∧ r.offset = off := by
  simpa [classBOffsets_eq, and_assoc] using h

theorem readsClassB_offset (p : Params) {r : Reg} (hr : r ∈ Reg.all) : readsClassB p r.offset = r.classB := by
  simp [readsClassB, regAt_offset r hr]

/-! ### The words of OUTBUF -/

/-- Every sample's word lies inside OUTBUF (R63). -/
theorem inOutbuf_outAddr {p : Params} {c i : Nat} (hc : c < p.cMax.toNat) (hi : i < p.nMax.toNat) :
    inOutbuf p (outAddr p.nMax.toNat c i) = true := by
  have hend : outAddr p.nMax.toNat c 0 + 4 * p.nMax.toNat ≤ outbufEnd p := outAddr_lt hc
  have hbase : outbufBase ≤ outAddr p.nMax.toNat c i := Nat.le_add_right _ _
  have hword := outAddr_eq p.nMax.toNat c i
  simp only [inOutbuf, Bool.and_eq_true, decide_eq_true_eq]
  omega

theorem regAt_outAddr (nMax c i : Nat) : regAt (outAddr nMax c i) = none :=
  regAt_of_outbuf (Nat.le_add_right _ _)

theorem outAddr_aligned (nMax c i : Nat) : outAddr nMax c i % 4 = 0 := by
  unfold outAddr outbufBase
  omega

theorem readsClassB_outAddr {p : Params} {c i : Nat} (hc : c < p.cMax.toNat) (hi : i < p.nMax.toNat) :
    readsClassB p (outAddr p.nMax.toNat c i) = true := by
  simp [readsClassB, regAt_outAddr, inOutbuf_outAddr hc hi]

theorem wordAt_outAddr {s : State} {c i : Nat} (hc : c < s.par.cMax.toNat) (hi : i < s.par.nMax.toNat) :
    wordAt s (outAddr s.par.nMax.toNat c i) = s.out c i := by
  simp [wordAt, regAt_outAddr, inOutbuf_outAddr hc hi, State.out]

/-! ### A 32-bit read -/

/-- A defined read returns the word at its offset and changes nothing (R62, R67). -/
theorem busRead_defined {s : State} {off : Offset} (ha : off.toNat % 4 = 0)
    (h : readsClassB s.par off.toNat = false ∨ s.busy = false) :
    busRead s 4 off = (wordAt s off.toNat, s) := by
  rcases h with h | h
  · simp [busRead, wordAccess, ha, h]
  · simp [busRead, wordAccess, ha, h]

/-- A class B read while BUSY = 1 returns the next free word (R285). -/
theorem busRead_free {s : State} {off : Offset} (ha : off.toNat % 4 = 0)
    (h : readsClassB s.par off.toNat = true) (hb : s.busy = true) :
    busRead s 4 off = (Config.busDraw s.freeIdx, { s with freeIdx := s.freeIdx + 1 }) := by
  simp [busRead, wordAccess, ha, h, hb]

/-- A read of a register returns its field, where it is of class A or BUSY = 0 (R40 to R48). -/
theorem busRead_register {s : State} {off : Offset} {v : Word} (hv : (off.toNat, v) ∈ registerTable s)
    (h : readsClassB s.par off.toNat = false ∨ s.busy = false) : busRead s 4 off = (v, s) := by
  obtain ⟨r, hr, hoff, rfl⟩ := mem_registerTable hv
  rw [busRead_defined (hoff ▸ offset_aligned r hr) h]
  simp [wordAt, ← hoff, regAt_offset r hr]

/-- While BUSY = 0 a read of a sample's word returns the sample (R63). -/
theorem busRead_outbuf {s : State} {off : Offset} {c i : Nat} (hc : c < s.par.cMax.toNat)
    (hi : i < s.par.nMax.toNat) (hoff : off.toNat = outAddr s.par.nMax.toNat c i) (h : s.busy = false) :
    busRead s 4 off = (s.out c i, s) := by
  rw [busRead_defined (hoff ▸ outAddr_aligned _ c i) (.inr h), hoff, wordAt_outAddr hc hi]

/-! ### The step of a read -/

theorem step_read {s : State} {off : Offset} {rest : List HostOp} (hm : mover s = .host)
    (hp : s.pending = .read 4 off :: rest) :
    step s = .next { (busRead (useTurn s) 4 off).2 with
      pending := rest, rdata := (busRead (useTurn s) 4 off).1 } := by
  simp [step, hm, hostStep, hp]

/-- Settles O54: with BUSY = 0 every read is a defined one. -/
theorem idleReadsReturnTheDefinedState : Obligations.IdleReadsReturnTheDefinedState := by
  intro s off rest hm hp hidle
  rw [step_read hm hp]
  constructor
  · intro v hv
    rw [busRead_register (s := useTurn s) hv (.inr hidle)]
    rfl
  · intro c i hc hi hoff
    rw [busRead_outbuf (s := useTurn s) hc hi hoff hidle]
    rfl

/-- Settles O55: class A offsets do not read class B, and class B offsets and the words of OUTBUF do. -/
theorem busyReadsOfClassBAreFree : Obligations.BusyReadsOfClassBAreFree := by
  intro s off rest hm hp hbusy
  rw [step_read hm hp]
  constructor
  · intro v hv hclass
    obtain ⟨r, hr, hA, hoff⟩ := mem_classAOffsets hclass
    have hdef : readsClassB s.par off.toNat = false := by rw [← hoff, readsClassB_offset _ hr, hA]
    rw [busRead_register (s := useTurn s) hv (.inl hdef)]
    rfl
  · intro hfree
    have hread : off.toNat % 4 = 0 ∧ readsClassB s.par off.toNat = true := by
      rcases hfree with hclass | ⟨c, i, hc, hi, hoff⟩
      · obtain ⟨r, hr, hB, hoff⟩ := mem_classBOffsets hclass
        rw [← hoff]
        exact ⟨offset_aligned r hr, (readsClassB_offset _ hr).trans hB⟩
      · rw [hoff]
        exact ⟨outAddr_aligned _ c i, readsClassB_outAddr hc hi⟩
    rw [busRead_free (s := useTurn s) hread.1 hread.2 hbusy]
    rfl

/-! ### STATUS -/

/-- A flag's word has that flag in its bit and zeros elsewhere (R42). -/
theorem getLsbD_flagBit (b : Bool) {i : Nat} (hi : i < 32) (j : Nat) :
    (flagBit b i).getLsbD j = (b && decide (i = j)) := by
  unfold flagBit
  rw [BitVec.getLsbD_ofNat]
  cases b
  · simp
  · simp only [Bool.toNat_true, Nat.one_mul, Nat.testBit_two_pow, Bool.true_and, Bool.and_eq_right_iff_imp,
      decide_eq_true_eq]
    omega

theorem getLsbD_status (s : State) (j : Nat) :
    s.status.getLsbD j = ((s.prepared && decide (0 = j)) || (s.active && decide (1 = j)) ||
      (s.gate && decide (2 = j)) || (s.busy && decide (3 = j)) || (s.full && decide (4 = j))) := by
  simp [State.status, getLsbD_flagBit]

theorem busy_iff {s : State} : s.busy = true ↔ s.queue ≠ [] ∨ s.executing = true := by
  simp [State.busy]

theorem full_iff {s : State} : s.full = true ↔ s.queue.length = s.par.cmdqDepth.toNat :=
  decide_eq_true_iff

/-- The empty queue is not full, as CMDQ_DEPTH is at least 1 (R8). -/
theorem full_resetOf {p : Params} (hp : p.legal = true) : (State.resetOf p).full = false := by
  simp only [Params.legal, Params.countsPositive, Bool.and_eq_true, decide_eq_true_eq] at hp
  obtain ⟨⟨⟨-, -, hdepth⟩, -⟩, -⟩ := hp
  have hne : (0 : Nat) ≠ p.cmdqDepth.toNat := by omega
  exact decide_eq_false hne

theorem status_resetOf {p : Params} (hp : p.legal = true) : (State.resetOf p).status = 0x00000004#32 := by
  unfold State.status
  rw [full_resetOf hp]
  show flagBit false 0 ||| flagBit false 1 ||| flagBit true 2 ||| flagBit false 3 ||| flagBit false 4 = _
  decide

/-- Settles O56, bit by bit; STATUS is no class B register and none that a write has an effect on. -/
theorem statusShowsTheFiveFlags : Obligations.StatusShowsTheFiveFlags := by
  refine ⟨fun s => ⟨?_, ?_, ?_, ?_, ?_, ?_, ?_, ?_⟩, fun p hp => status_resetOf hp⟩
  · rw [getLsbD_status]; simp
  · rw [getLsbD_status]; simp
  · rw [getLsbD_status]; simp
  · rw [← busy_iff, getLsbD_status]; simp
  · rw [← full_iff, getLsbD_status]; simp
  · intro i hi
    rw [getLsbD_status]
    simp
    omega
  · have hstatus : (0x004, s.status) ∈ registerTable s := .tail _ (.head _)
    exact busRead_register hstatus (.inl rfl)
  · exact fun w => rfl

end Sys2Proof.Machine
end

section
/-! SUPPORT. Host accesses and what they leave unchanged (spec/20_memory.md R64 to R74): the step of a write, of a
read of any width and of `sync`; the offsets no register has; and the bus writes of a command line (R99). -/

namespace Sys2Proof.Machine

/-! ### The step of one host operation -/

theorem step_of_host {s : State} (hm : mover s = .host) : step s = .next (hostStep (useTurn s)) := by
  simp [step, hm]

theorem step_write_done {s t : State} {bytes : Nat} {off : Offset} {w : Word} {rest : List HostOp}
    (hm : mover s = .host) (hp : s.pending = .write bytes off w :: rest)
    (hw : busWrite (useTurn s) bytes off w = some t) : step s = .next { t with pending := rest } := by
  simp [step_of_host hm, hostStep, hp, hw]

/-- A held write stays the host's next operation (R68, log entry 18). -/
theorem step_write_held {s : State} {bytes : Nat} {off : Offset} {w : Word} {rest : List HostOp}
    (hm : mover s = .host) (hp : s.pending = .write bytes off w :: rest)
    (hw : busWrite (useTurn s) bytes off w = none) : step s = .next (useTurn s) := by
  simp [step_of_host hm, hostStep, hp, hw]

/-- A read that returns zero data and leaves the core as it is. -/
theorem step_read_zero {s : State} {bytes : Nat} {off : Offset} {rest : List HostOp} (hm : mover s = .host)
    (hp : s.pending = .read bytes off :: rest) (hr : busRead (useTurn s) bytes off = (0#32, useTurn s)) :
    step s = .next { s with pending := rest, turns := s.turns.tail, rdata := 0#32 } := by
  simp only [step_of_host hm, hostStep, useTurn_pending, hp, hr]
  rfl

/-! ### Accesses of another width or alignment -/

theorem wordAccess_misfit {bytes : Nat} {off : Offset} (h : bytes ≠ 4 ∨ off.toNat % 4 ≠ 0) :
    wordAccess bytes off = false := by
  rcases h with h | h
  · simp [wordAccess, h]
  · simp [wordAccess, h]

theorem busRead_misfit {bytes : Nat} {off : Offset} (h : bytes ≠ 4 ∨ off.toNat % 4 ≠ 0) (s : State) :
    busRead s bytes off = (0#32, s) := by
  simp [busRead, wordAccess_misfit h]

theorem busWrite_misfit {bytes : Nat} {off : Offset} (h : bytes ≠ 4 ∨ off.toNat % 4 ≠ 0) (s : State) (w : Word) :
    busWrite s bytes off w = some s := by
  simp [busWrite, wordAccess_misfit h]

/-- Settles O57: the core acts on no access that is not a word access. -/
theorem misfitAccessesHaveNoEffect : Obligations.MisfitAccessesHaveNoEffect := fun _ _ _ _ hm h =>
  ⟨fun hp => step_read_zero hm hp (busRead_misfit h _),
    fun w hp => step_write_done hm hp (busWrite_misfit h _ w)⟩

/-! ### Reserved and read-only offsets -/

theorem offset_of_regAt {off : Nat} {r : Reg} (h : regAt off = some r) : r.offset = off := by
  unfold regAt at h
  simpa using List.find?_some h

/-- PARAM_CONFIG is the last register of the map (R48, R49). -/
theorem offset_lt_firstPast : ∀ r ∈ Reg.all, r.offset < 0x0D8 := by decide

theorem regAt_of_pastRegisters {off : Nat} (h : 0x0D8 ≤ off) : regAt off = none := by
  refine List.find?_eq_none.mpr fun r hr heq => ?_
  have hlt := offset_lt_firstPast r hr
  rw [eq_of_beq heq] at hlt
  omega

theorem regAt_gap : ∀ off ∈ [0x008, 0x00C, 0x01C, 0x034, 0x038, 0x03C, 0x070, 0x074, 0x078, 0x07C, 0x094,
    0x098, 0x09C, 0x0B4, 0x0B8, 0x0BC], regAt off = none ∧ off < outbufBase := by decide

/-- A reserved offset is no register's and does not lie in OUTBUF (R49, R61). -/
theorem Reserved.unmapped {p : Params} {off : Nat} (h : Reserved p off) :
    regAt off = none ∧ inOutbuf p off = false := by
  have hend : outbufBase ≤ outbufEnd p := Nat.le_add_right _ _
  have hbase : outbufBase = 0x80000 := rfl
  obtain ⟨-, hwhere⟩ := h
  suffices hout : regAt off = none ∧ (off < outbufBase ∨ outbufEnd p ≤ off) by
    refine hout.imp_right fun _ => ?_
    simp only [inOutbuf, Bool.and_eq_false_iff, decide_eq_false_iff_not]
    omega
  rcases hwhere with hgap | ⟨hlo, hhi⟩ | ⟨hlo, -⟩
  · exact (regAt_gap off hgap).imp_right .inl
  · exact ⟨regAt_of_pastRegisters hlo, .inl (hbase ▸ hhi)⟩
  · exact ⟨regAt_of_pastRegisters (by omega), .inr hlo⟩

/-- A read of a reserved offset is a defined one, whatever BUSY is, and returns zero (R65). -/
theorem busRead_reserved {s : State} {off : Offset} (h : Reserved s.par off.toNat) :
    busRead s 4 off = (0#32, s) := by
  obtain ⟨hreg, hout⟩ := h.unmapped
  rw [busRead_defined h.1 (.inl (by simp [readsClassB, hreg, hout]))]
  simp [wordAt, hreg, hout]

/-- Only ARG0, ARG1 and CMD take a write (R65). -/
theorem busWrite_ignored {off : Offset} (h0 : off.toNat ≠ 0x010) (h1 : off.toNat ≠ 0x014)
    (h2 : off.toNat ≠ 0x018) (s : State) (bytes : Nat) (w : Word) : busWrite s bytes off w = some s := by
  unfold busWrite
  split
  · split
    · next h => exact absurd (offset_of_regAt h).symm h0
    · next h => exact absurd (offset_of_regAt h).symm h1
    · next h => exact absurd (offset_of_regAt h).symm h2
    · rfl
  · rfl

/-- Settles O58: a reserved offset is unmapped, and no other register takes a write. -/
theorem reservedAndReadOnlyOffsets : Obligations.ReservedAndReadOnlyOffsets := fun _ _ _ hm =>
  ⟨fun hres hp => step_read_zero hm hp (busRead_reserved hres),
    fun w hp h0 h1 h2 => step_write_done hm hp (busWrite_ignored h0 h1 h2 _ 4 w)⟩

/-! ### Writes to ARG0, ARG1 and CMD -/

theorem busWrite_arg0 (s : State) (w : Word) : busWrite s 4 arg0Offset w = some { s with arg0 := w } := rfl

theorem busWrite_arg1 (s : State) (w : Word) : busWrite s 4 arg1Offset w = some { s with arg1 := w } := rfl

theorem busWrite_cmd (s : State) (w : Word) :
    busWrite s 4 cmdOffset w = if s.hasRoom then some (enqueue s w) else none := rfl

theorem hasRoom_iff {s : State} : s.hasRoom = true ↔ s.queue.length < s.par.cmdqDepth.toNat :=
  decide_eq_true_iff

/-- A write to ARG0 in the host's turn sets it and changes nothing else of the core (R67, R74). -/
theorem step_arg0Write {s : State} {w : Word} {rest : List HostOp} (hm : mover s = .host)
    (hp : s.pending = .write 4 arg0Offset w :: rest) :
    step s = .next { s with arg0 := w, pending := rest, turns := s.turns.tail } :=
  step_write_done hm hp (busWrite_arg0 _ w)

/-- A write to ARG1 in the host's turn sets it and changes nothing else of the core (R67, R74). -/
theorem step_arg1Write {s : State} {w : Word} {rest : List HostOp} (hm : mover s = .host)
    (hp : s.pending = .write 4 arg1Offset w :: rest) :
    step s = .next { s with arg1 := w, pending := rest, turns := s.turns.tail } :=
  step_write_done hm hp (busWrite_arg1 _ w)

/-- A write to CMD with room in the queue captures the operands with it (R68). -/
theorem step_cmdWrite {s : State} {w : Word} {rest : List HostOp} (hm : mover s = .host)
    (hp : s.pending = .write 4 cmdOffset w :: rest) (hroom : s.queue.length < s.par.cmdqDepth.toNat) :
    step s = .next { s with
      queue := s.queue ++ [⟨w, s.arg0, s.arg1⟩], pending := rest, turns := s.turns.tail } :=
  step_write_done hm hp ((busWrite_cmd _ w).trans (if_pos (hasRoom_iff.mpr hroom)))

/-- Settles O59, by the step of each write; a full queue holds the write to CMD. -/
theorem operandAndCommandWrites : Obligations.OperandAndCommandWrites := by
  intro s off w rest hm hp
  refine ⟨?_, ?_, ?_, ?_⟩
  · rintro rfl
    exact step_arg0Write hm hp
  · rintro rfl
    exact step_arg1Write hm hp
  · rintro rfl hroom
    exact step_cmdWrite hm hp hroom
  · rintro rfl hfull
    have hheld : busWrite (useTurn s) 4 cmdOffset w = none :=
      (busWrite_cmd _ w).trans (if_neg (hasRoom_iff.not.mpr hfull))
    exact step_write_held hm hp hheld

/-! ### The bus writes of a command line -/

theorem rsvd_cmdWord (sel : BitVec 2) (op : BitVec 8) : CmdWord.rsvd (cmdWord sel op) = 0#22 := by
  rw [CmdWord.rsvd, cmdWord, BitVec.append_assoc]
  exact BitVec.extractLsb'_append_eq_left

theorem sel_cmdWord (sel : BitVec 2) (op : BitVec 8) : CmdWord.sel (cmdWord sel op) = sel := by
  rw [CmdWord.sel, cmdWord, BitVec.extractLsb'_append_eq_of_le (by decide)]
  exact BitVec.extractLsb'_append_eq_right

theorem opcode_cmdWord (sel : BitVec 2) (op : BitVec 8) : CmdWord.opcode (cmdWord sel op) = op :=
  BitVec.extractLsb'_append_eq_right

/-- A command word is read back field by field (R90, R95). -/
theorem decode_cmdWord (sel : BitVec 2) (op : BitVec 8) (a b : Word) :
    decode ⟨cmdWord sel op, a, b⟩ = decodeOpcode op sel a b := by
  simp [decode, CmdWord.rsvdZero, rsvd_cmdWord, sel_cmdWord, opcode_cmdWord]

/-- A command line writes no operand, ARG0, or both, and the decoder ignores an operand it leaves out
(R92, R95, R99). -/
theorem operandWrites_cases (i : Instr) :
    (operandWrites i = [] ∧ ∀ a b, decode ⟨(encode i).cmd, a, b⟩ = .ok i) ∨
    (operandWrites i = [wordWrite arg0Offset (encode i).arg0] ∧
      ∀ b, decode ⟨(encode i).cmd, (encode i).arg0, b⟩ = .ok i) ∨
    (operandWrites i = [wordWrite arg0Offset (encode i).arg0, wordWrite arg1Offset (encode i).arg1] ∧
      decode (encode i) = .ok i) := by
  cases i with
  | nop => exact .inl ⟨rfl, decode_cmdWord 0#2 0x00#8⟩
  | setlevel k | setfreq k => cases k <;> exact .inr (.inl ⟨rfl, decode_cmdWord _ _ _⟩)
  | setcutoff | setmode => exact .inr (.inl ⟨rfl, decode_cmdWord _ _ _⟩)
  | prepare | noteon | noteoff | render => exact .inr (.inr ⟨rfl, decode_cmdWord _ _ _ _⟩)

theorem run_succ {s t : State} (h : step s = .next t) (k : Nat) :
    Host.Core.run Sys2Proof.core (k + 1) s = Host.Core.run Sys2Proof.core k t := by
  have hcore : Sys2Proof.core.step s = .next t := h
  simp [Host.Core.run, hcore]

theorem mover_of_turns {s : State} {a : Agent} {ts : List Agent} (h : s.turns = a :: ts) : mover s = a := by
  simp [mover, h]

section HostTurn

variable {s : State} {w : Word} {rest : List HostOp} {ts : List Agent}

theorem run_arg0Write (ht : s.turns = .host :: ts) (hp : s.pending = wordWrite arg0Offset w :: rest) (k : Nat) :
    Host.Core.run Sys2Proof.core (k + 1) s =
      Host.Core.run Sys2Proof.core k { s with arg0 := w, pending := rest, turns := ts } := by
  rw [run_succ (step_arg0Write (mover_of_turns ht) hp), ht]
  rfl

theorem run_arg1Write (ht : s.turns = .host :: ts) (hp : s.pending = wordWrite arg1Offset w :: rest) (k : Nat) :
    Host.Core.run Sys2Proof.core (k + 1) s =
      Host.Core.run Sys2Proof.core k { s with arg1 := w, pending := rest, turns := ts } := by
  rw [run_succ (step_arg1Write (mover_of_turns ht) hp), ht]
  rfl

theorem run_cmdWrite (ht : s.turns = .host :: ts) (hp : s.pending = wordWrite cmdOffset w :: rest)
    (hroom : s.queue.length < s.par.cmdqDepth.toNat) :
    Host.Core.run Sys2Proof.core 1 s =
      .next { s with queue := s.queue ++ [⟨w, s.arg0, s.arg1⟩], pending := rest, turns := ts } := by
  rw [run_succ (step_cmdWrite (mover_of_turns ht) hp hroom), ht]
  rfl

end HostTurn

/-- The bus writes of a command line, with room in the queue, append one entry that decodes to the command (R99). -/
theorem run_assemble {i : Instr} {s : State} {rest : List HostOp} {ts : List Agent}
    (hp : s.pending = assemble i ++ rest) (ht : s.turns = List.replicate (assemble i).length .host ++ ts)
    (hroom : s.queue.length < s.par.cmdqDepth.toNat) :
    ∃ e, decode e = .ok i ∧ Host.Core.run Sys2Proof.core (assemble i).length s =
      .next { s with arg0 := e.arg0, arg1 := e.arg1, queue := s.queue ++ [e], pending := rest, turns := ts } := by
  unfold assemble at hp ht ⊢
  rcases operandWrites_cases i with ⟨hops, hdec⟩ | ⟨hops, hdec⟩ | ⟨hops, hdec⟩ <;>
    rw [hops] at hp ht ⊢
  · exact ⟨_, hdec s.arg0 s.arg1, run_cmdWrite ht hp hroom⟩
  · exact ⟨_, hdec s.arg1, (run_arg0Write ht hp 1).trans (run_cmdWrite rfl rfl hroom)⟩
  · exact ⟨_, hdec, (run_arg0Write ht hp 2).trans ((run_arg1Write rfl rfl 1).trans (run_cmdWrite rfl rfl hroom))⟩

/-! ### `sync` -/

/-- STATUS is of class A, so it is read even while BUSY = 1 (R42). -/
theorem busRead_status (s : State) : busRead s 4 statusOffset = (s.status, s) :=
  busRead_register (off := statusOffset) (.tail _ (.head _)) (.inl rfl)

theorem busyBit_status (s : State) : busyBit s.status = s.busy := by
  rw [busyBit, getLsbD_status]
  simp

/-- A `sync` that reads BUSY = 1 stays the host's next operation (R100, log entry 18). -/
theorem step_sync_busy {s : State} {rest : List HostOp} (hm : mover s = .host) (hp : s.pending = .sync :: rest)
    (hb : s.busy = true) : step s = .next { s with turns := s.turns.tail, rdata := s.status } := by
  have hbit : busyBit (useTurn s).status = true := (busyBit_status _).trans hb
  simp only [step_of_host hm, hostStep, useTurn_pending, hp, busRead_status, hbit]
  rfl

/-- A `sync` that reads BUSY = 0 is used up (R100). -/
theorem step_sync_idle {s : State} {rest : List HostOp} (hm : mover s = .host) (hp : s.pending = .sync :: rest)
    (hb : s.busy = false) :
    step s = .next { s with pending := rest, turns := s.turns.tail, rdata := s.status } := by
  have hbit : busyBit (useTurn s).status = false := (busyBit_status _).trans hb
  simp only [step_of_host hm, hostStep, useTurn_pending, hp, busRead_status, hbit]
  rfl

/-- Settles O60: the writes of a line one by one, and `sync` by the BUSY bit it reads. -/
theorem assembledLineQueuesItsCommand : Obligations.AssembledLineQueuesItsCommand := by
  constructor
  · intro i s rest ts hp ht hroom
    obtain ⟨e, hdec, hrun⟩ := run_assemble hp ht hroom
    exact ⟨_, e, hrun, hdec, rfl⟩
  · intro s rest hm hp
    refine ⟨fun hb => step_sync_busy hm hp (busy_iff.mpr hb), fun hq he => step_sync_idle hm hp ?_⟩
    simp [State.busy, hq, he]

end Sys2Proof.Machine
end

section
/-! SUPPORT. The decoder by its fields (spec/30_encoding.md R90, R95, R96): a word is its three fields put
together, and an opcode is a reserved one, one that takes a selector, or one that needs SEL = 0. -/

namespace Sys2Proof

/-- The assigned opcodes that take no selector (R92, R95). -/
def plainOpcodes : List (BitVec 8) := [0x00#8, 0x01#8, 0x02#8, 0x03#8, 0x06#8, 0x07#8, 0x08#8]

theorem opcode_cases (op : BitVec 8) :
    0x09 ≤ op.toNat ∨ (op = 0x04#8 ∨ op = 0x05#8) ∨ op ∈ plainOpcodes := by
  simp only [plainOpcodes, List.mem_cons, List.not_mem_nil, or_false]
  bv_omega

theorem takesNoSel_of_mem_plainOpcodes {op : BitVec 8} (h : op ∈ plainOpcodes) :
    ¬(op = 0x04#8 ∨ op = 0x05#8) := by
  revert op
  decide

theorem lt_nine_of_mem_plainOpcodes {op : BitVec 8} (h : op ∈ plainOpcodes) : ¬ 0x09 ≤ op.toNat := by
  revert op
  decide

/-! ### The three kinds of opcode -/

theorem decodeOpcode_reserved {op : BitVec 8} (h : 0x09 ≤ op.toNat) (s : BitVec 2) (a b : Word) :
    decodeOpcode op s a b = .error .reservedOpcode := by
  have hne : ∀ c : BitVec 8, c.toNat < 0x09 → op ≠ c := by
    rintro c hc rfl
    omega
  simp [decodeOpcode, hne]

/-- SETLEVEL and SETFREQ decode to a command of the oscillator SEL names (R90). -/
theorem decodeOpcode_takesSel {op : BitVec 8} (h : op = 0x04#8 ∨ op = 0x05#8) (a b : Word) :
    ∃ f : OscId → Instr, (∀ k, (encode (f k)).cmd = cmdWord (encodeSel k) op) ∧
      ∀ s, decodeOpcode op s a b = (decodeSel s).map f := by
  rcases h with rfl | rfl
  · exact ⟨_, fun _ => rfl, fun _ => rfl⟩
  · exact ⟨_, fun _ => rfl, fun _ => rfl⟩

/-- Any other assigned opcode has one command, which needs SEL = 0 (R95). -/
theorem decodeOpcode_plain {op : BitVec 8} (h : op ∈ plainOpcodes) (a b : Word) :
    ∃ i, (encode i).cmd = cmdWord 0#2 op ∧ ∀ s, decodeOpcode op s a b = decodePlain s i := by
  simp only [plainOpcodes, List.mem_cons, List.not_mem_nil, or_false] at h
  rcases h with rfl | rfl | rfl | rfl | rfl | rfl | rfl <;> exact ⟨_, rfl, fun _ => rfl⟩

theorem decodeSel_eq_ok {s : BitVec 2} {k : OscId} (h : decodeSel s = .ok k) : s = encodeSel k := by
  unfold decodeSel at h
  split_ifs at h with h0 h1 h2 <;> cases h
  · exact h0
  · exact h1
  · exact h2

theorem decodeSel_eq_error_iff (s : BitVec 2) : (∃ r, decodeSel s = .error r) ↔ s = 3#2 := by
  unfold decodeSel
  split_ifs with h0 h1 h2
  · simp [h0]
  · simp [h1]
  · simp [h2]
  · exact ⟨fun _ => by bv_omega, fun _ => ⟨_, rfl⟩⟩

theorem decodePlain_eq_ok {s : BitVec 2} {i j : Instr} (h : decodePlain s i = .ok j) : s = 0#2 ∧ i = j := by
  unfold decodePlain at h
  split_ifs at h with h0
  exact ⟨h0, Except.ok.inj h⟩

theorem decodePlain_eq_error_iff (s : BitVec 2) (i : Instr) : (∃ r, decodePlain s i = .error r) ↔ s ≠ 0#2 := by
  unfold decodePlain
  split_ifs with h0
  · simp [h0]
  · exact ⟨fun _ => h0, fun _ => ⟨_, rfl⟩⟩

/-! ### What the fields of a word decode to -/

/-- A decoded command encodes to the word of the fields it was read from. -/
theorem encode_of_decodeOpcode {op : BitVec 8} {s : BitVec 2} {a b : Word} {i : Instr}
    (h : decodeOpcode op s a b = .ok i) : (encode i).cmd = cmdWord s op := by
  rcases opcode_cases op with hop | hop | hop
  · rw [decodeOpcode_reserved hop] at h
    cases h
  · obtain ⟨f, hf, hdec⟩ := decodeOpcode_takesSel hop a b
    rw [hdec] at h
    cases hs : decodeSel s with
    | ok k =>
      rw [hs] at h
      cases h
      rw [hf, decodeSel_eq_ok hs]
    | error r =>
      rw [hs] at h
      cases h
  · obtain ⟨j, hj, hdec⟩ := decodeOpcode_plain hop a b
    rw [hdec] at h
    obtain ⟨rfl, rfl⟩ := decodePlain_eq_ok h
    exact hj

/-- The last two groups of R96: a reserved opcode, or a selector the opcode does not admit. -/
def IllegalFields (op : BitVec 8) (s : BitVec 2) : Prop :=
  0x09 ≤ op.toNat ∨ (if op = 0x04#8 ∨ op = 0x05#8 then s = 3#2 else s ≠ 0#2)

theorem decodeOpcode_eq_error_iff (op : BitVec 8) (s : BitVec 2) (a b : Word) :
    (∃ r, decodeOpcode op s a b = .error r) ↔ IllegalFields op s := by
  unfold IllegalFields
  rcases opcode_cases op with hop | hop | hop
  · simp [decodeOpcode_reserved hop, hop]
  · obtain ⟨f, -, hdec⟩ := decodeOpcode_takesSel hop a b
    have hlt : ¬ 0x09 ≤ op.toNat := by rcases hop with rfl | rfl <;> decide
    have hmap : (∃ r, (decodeSel s).map f = .error r) ↔ ∃ r, decodeSel s = .error r := by
      cases decodeSel s <;> simp [Except.map]
    simp only [hdec, hmap, decodeSel_eq_error_iff, hlt, hop, false_or, if_true]
  · obtain ⟨i, -, hdec⟩ := decodeOpcode_plain hop a b
    simp only [hdec, decodePlain_eq_error_iff, lt_nine_of_mem_plainOpcodes hop,
      takesNoSel_of_mem_plainOpcodes hop, false_or, if_false]

/-! ### Words and their fields -/

theorem rsvd_append (rsvd : BitVec 22) (sel : BitVec 2) (op : BitVec 8) :
    CmdWord.rsvd (rsvd ++ sel ++ op) = rsvd := by
  rw [CmdWord.rsvd, BitVec.append_assoc]
  exact BitVec.extractLsb'_append_eq_left

/-- A word whose RSVD field is 0 is the word of its SEL and OPCODE fields (R90). -/
theorem cmdWord_sel_opcode {w : Word} (h : CmdWord.rsvd w = 0#22) :
    cmdWord (CmdWord.sel w) (CmdWord.opcode w) = w := by
  rw [cmdWord, ← h, CmdWord.rsvd, CmdWord.sel, CmdWord.opcode,
    BitVec.extractLsb'_append_extractLsb'_eq_extractLsb' (by decide),
    BitVec.extractLsb'_append_extractLsb'_eq_extractLsb' (by decide)]
  exact BitVec.extractLsb'_eq_self

theorem decode_of_rsvd_ne {e : CmdEntry} (h : CmdWord.rsvd e.cmd ≠ 0#22) :
    decode e = .error .reservedBits := by
  simp [decode, CmdWord.rsvdZero, h]

theorem decode_of_rsvd_eq {e : CmdEntry} (h : CmdWord.rsvd e.cmd = 0#22) :
    decode e = decodeOpcode (CmdWord.opcode e.cmd) (CmdWord.sel e.cmd) e.arg0 e.arg1 := by
  simp [decode, CmdWord.rsvdZero, h]

theorem decode_encode (i : Instr) : decode (encode i) = .ok i := by
  rcases Machine.operandWrites_cases i with ⟨-, h⟩ | ⟨-, h⟩ | ⟨-, h⟩
  · exact h _ _
  · exact h _
  · exact h

theorem encode_cmd_of_decode {e : CmdEntry} {i : Instr} (h : decode e = .ok i) : (encode i).cmd = e.cmd := by
  by_cases hrsvd : CmdWord.rsvd e.cmd = 0#22
  · rw [decode_of_rsvd_eq hrsvd] at h
    exact (encode_of_decodeOpcode h).trans (cmdWord_sel_opcode hrsvd)
  · rw [decode_of_rsvd_ne hrsvd] at h
    cases h

/-- The three groups of R96. -/
theorem decode_eq_error_iff (e : CmdEntry) :
    (∃ r, decode e = .error r) ↔
      CmdWord.rsvd e.cmd ≠ 0#22 ∨ IllegalFields (CmdWord.opcode e.cmd) (CmdWord.sel e.cmd) := by
  by_cases hrsvd : CmdWord.rsvd e.cmd = 0#22
  · rw [decode_of_rsvd_eq hrsvd, decodeOpcode_eq_error_iff]
    simp only [hrsvd, ne_eq, not_true_eq_false, false_or]
  · exact ⟨fun _ => .inl hrsvd, fun _ => ⟨_, decode_of_rsvd_ne hrsvd⟩⟩

theorem legal_eq_false_iff (w : Word) :
    CmdWord.legal w = false ↔
      CmdWord.rsvd w ≠ 0#22 ∨ IllegalFields (CmdWord.opcode w) (CmdWord.sel w) := by
  have hsel : CmdWord.selAdmitted w = false ↔
      (if CmdWord.opcode w = 0x04#8 ∨ CmdWord.opcode w = 0x05#8
        then CmdWord.sel w = 3#2 else CmdWord.sel w ≠ 0#2) := by
    simp only [CmdWord.selAdmitted, CmdWord.takesSel, Bool.or_eq_true, decide_eq_true_eq]
    split_ifs <;> simp
  have hop : CmdWord.opcodeAssigned w = false ↔ 0x09 ≤ (CmdWord.opcode w).toNat := by
    simp [CmdWord.opcodeAssigned, Nat.lt_iff_add_one_le]
  have hrsvd : CmdWord.rsvdZero w = false ↔ CmdWord.rsvd w ≠ 0#22 := by simp [CmdWord.rsvdZero]
  rw [CmdWord.legal, Bool.and_eq_false_iff, Bool.and_eq_false_iff, hrsvd, hop, hsel, or_assoc, IllegalFields]

/-- An entry decodes exactly if its word is legal (R95, R96). -/
theorem decode_eq_ok_iff_legal (e : CmdEntry) : (∃ i, decode e = .ok i) ↔ CmdWord.legal e.cmd = true := by
  have herror : (∃ r, decode e = .error r) ↔ CmdWord.legal e.cmd = false :=
    (decode_eq_error_iff e).trans (legal_eq_false_iff e.cmd).symm
  rw [← Bool.not_eq_false, ← herror]
  cases decode e <;> simp

/-! ### The obligations -/

/-- Settles O1: a decoded command encodes to the word it was read from, since a legal word is its fields put
together. -/
theorem decodeAndEncodeAgree : Obligations.DecodeAndEncodeAgree := by
  refine ⟨fun i _ => decode_encode i, fun e i h => ?_, decode_eq_ok_iff_legal⟩
  have hcmd : (encode i).cmd = e.cmd := encode_cmd_of_decode h
  exact ⟨hcmd, by rw [hcmd]; exact h⟩

/-- Settles O2: an error from RSVD or from the groups of R96, and a command by its opcode's equation. -/
theorem decodeFollowsTheDecodeFunction : Obligations.DecodeFollowsTheDecodeFunction := by
  intro rsvd sel op a b e
  refine ⟨fun h => ⟨_, decode_of_rsvd_ne ((rsvd_append rsvd sel op).trans_ne h)⟩, ?_⟩
  rintro rfl
  have hdec : decode e = decodeOpcode op sel a b := Machine.decode_cmdWord sel op a b
  have hsel (h : if op = 0x04#8 ∨ op = 0x05#8 then sel = 3#2 else sel ≠ 0#2) :
      ∃ r, decodeOpcode op sel a b = .error r := (decodeOpcode_eq_error_iff op sel a b).mpr (.inr h)
  rw [hdec]
  refine ⟨fun hop h3 => hsel (by rwa [if_pos hop]), ?_, ?_, fun hop h0 => hsel ?_, ?_,
    fun h => ⟨_, decodeOpcode_reserved h sel a b⟩⟩
  · rintro rfl
    refine ⟨?_, ?_, ?_⟩ <;> rintro rfl <;> rfl
  · rintro rfl
    refine ⟨?_, ?_, ?_⟩ <;> rintro rfl <;> rfl
  · rwa [if_neg (takesNoSel_of_mem_plainOpcodes hop)]
  · rintro rfl
    refine ⟨?_, ?_, ?_, ?_, ?_, ?_, ?_⟩ <;> rintro rfl <;> rfl

/-- Settles O3: the decoder's errors are the three groups, and the engine's step executes a refused entry as
NOP. -/
theorem illegalWordsAreThreeGroupsAndRunAsNop : Obligations.IllegalWordsAreThreeGroupsAndRunAsNop := by
  refine ⟨decode_eq_error_iff, fun s e rest r hm hq hd => ?_⟩
  rw [Machine.step_engine_cons hm hq, Machine.execEntry_error hd]

/-- Settles O4: each word is RSVD = 0 with the SEL and OPCODE named, or has a bit of RSVD set. -/
theorem sampleWordsDecode : Obligations.SampleWordsDecode :=
  ⟨Machine.decode_cmdWord 0#2 0x00#8 _ _, Machine.decode_cmdWord 0#2 0x01#8 _ _,
    Machine.decode_cmdWord 1#2 0x04#8 _ _, Machine.decode_cmdWord 2#2 0x05#8 _ _,
    Machine.decode_cmdWord 3#2 0x04#8 _ _, Machine.decode_cmdWord 1#2 0x01#8 _ _,
    Machine.decode_cmdWord 0#2 0x09#8 _ _, decode_of_rsvd_ne (by decide), decode_of_rsvd_ne (by decide),
    Machine.decode_cmdWord 0#2 0x08#8 _ _⟩

end Sys2Proof
end

section
/-! SUPPORT. How the rounded operations compare with a value (spec/00_scope.md R11, R12): a sum or a product that lies
on one side of a binary32 value rounds to no value past it, and one that is a value is not rounded at all. -/

namespace Sys2Proof.F32

/-! ### Keys and values -/

theorem key_le_iff_val_le (a b : Word) : key a ≤ key b ↔ val a ≤ val b := by
  have h := key_lt_iff_val_lt b a
  omega

theorem key_nonneg_iff_val {w : Word} : 0 ≤ key w ↔ 0 ≤ val w := key_le_iff_val_le zero w

/-- A key is the magnitude pattern or its negative. -/
theorem natAbs_key (w : Word) : (key w).natAbs = mag w := by
  unfold key
  split <;> simp

theorem natAbs_val (w : Word) : (val w).natAbs = units w := by
  unfold val
  split <;> simp

theorem key_eq_mag {w : Word} (h : 0 ≤ val w) : key w = mag w := by
  have hk := key_nonneg_iff_val.mpr h
  have ha := natAbs_key w
  omega

theorem key_eq_neg_mag {w : Word} (h : val w ≤ 0) : key w = -(mag w : Int) := by
  have hk : key w ≤ 0 := (key_le_iff_val_le w zero).mpr h
  have ha := natAbs_key w
  omega

theorem sign_eq_false_of_val_pos {w : Word} (h : 0 < val w) : sign w = false := by
  by_contra hs
  rw [val, if_pos (by simpa using hs)] at h
  omega

/-- Two words with the same key are the same word, unless they are zeros. -/
theorem eq_of_key_eq {a b : Word} (h : key a = key b) (h0 : key b ≠ 0) : a = b := by
  have hm : mag a = mag b := by rw [← natAbs_key a, h, natAbs_key]
  refine ext_word (by_contra fun hs => ?_) hm
  have hflip : sign a = !sign b := by simpa [Bool.eq_not_iff] using hs
  have hneg : key a = -key b := by
    rw [key, key, hm, hflip]
    cases sign b <;> simp
  omega

theorem isFinite_pack {m : Nat} (s : Bool) (h : m < infMag) : isFinite (pack s m) = true := by
  have hm : mag (pack s m) = m := mag_pack (h.trans (by decide))
  simp [isFinite, hm, h]

theorem val_pack_false {m : Nat} (h : m < infMag) : val (pack false m) = magUnits m := by
  have hlt : m < 2 ^ 31 := h.trans (by decide)
  rw [val, sign_pack hlt, units, mag_pack hlt, if_neg (by decide)]

theorem isFinite_of_mag_le {a b : Word} (hb : isFinite b = true) (h : mag a ≤ mag b) : isFinite a = true := by
  simp only [isFinite, decide_eq_true_eq] at hb ⊢
  omega

theorem units_le_of_mag_le {a b : Word} (h : mag a ≤ mag b) : units a ≤ units b :=
  magUnits_strictMono.monotone h

/-! ### Sums -/

/-- The sum of the negated operands is the negated sum, but for the sign of a zero (R12). -/
theorem key_add_neg {a b : Word} (nan : Word) (ha : isFinite a = true) (hb : isFinite b = true) :
    key (add nan (neg a) (neg b)) = -key (add nan a b) := by
  rw [add_of_finite nan ha hb, add_of_finite nan (by simpa using ha) (by simpa using hb), val_neg, val_neg,
    ← Int.neg_add]
  generalize val a + val b = x
  rcases Int.lt_trichotomy x 0 with h | h | h
  · have h1 : ¬ 0 < x := by omega
    simp [key, h, h.ne, h1]
  · simp [key, h]
  · have h1 : ¬ x < 0 := by omega
    simp [key, h, h.ne', h1]

/-- A sum at most a value rounds to at most that value (R11). -/
theorem key_add_le {a b w : Word} (nan : Word) (ha : isFinite a = true) (hb : isFinite b = true)
    (hw : isFinite w = true) (h : val a + val b ≤ val w) : key (add nan a b) ≤ key w := by
  have hfin : mag w ≤ infMag := by simp [isFinite] at hw; omega
  have habs := natAbs_val w
  rw [add_of_finite nan ha hb]
  generalize val a + val b = x at *
  rcases Int.lt_trichotomy x 0 with hx | hx | hx
  · have hkey : key (rne (decide (x < 0)) x.natAbs 1) = -(roundMag x.natAbs 1 : Int) := by simp [key, hx]
    rw [if_neg hx.ne, hkey]
    rcases lt_or_ge (val w) 0 with hv | hv
    · have hm : roundMag (units w) 1 ≤ roundMag x.natAbs 1 :=
        roundMag_mono Nat.one_pos Nat.one_pos (by omega)
      rw [units, roundMag_exact hfin] at hm
      rw [key_eq_neg_mag hv.le]
      omega
    · have := key_nonneg_iff_val.mpr hv
      omega
  · subst hx
    simpa [key] using key_nonneg_iff_val.mpr h
  · have hkey : key (rne (decide (x < 0)) x.natAbs 1) = roundMag x.natAbs 1 := by
      simp [key, hx.le]
    have hm : roundMag x.natAbs 1 ≤ roundMag (units w) 1 := roundMag_mono Nat.one_pos Nat.one_pos (by omega)
    rw [units, roundMag_exact hfin] at hm
    rw [if_neg hx.ne', hkey, key_eq_mag (by omega)]
    omega

/-- A sum no smaller than a value rounds to no less than that value (R11). -/
theorem le_key_add {a b w : Word} (nan : Word) (ha : isFinite a = true) (hb : isFinite b = true)
    (hw : isFinite w = true) (h : val w ≤ val a + val b) : key w ≤ key (add nan a b) := by
  have hneg := key_add_le (a := neg a) (b := neg b) (w := neg w) nan (by simpa using ha) (by simpa using hb)
    (by simpa using hw) (by simp only [val_neg]; omega)
  rw [key_add_neg nan ha hb, key_neg] at hneg
  omega

/-- A sum that is a value other than zero is exact (R11). -/
theorem add_eq_of_val {a b w : Word} (nan : Word) (ha : isFinite a = true) (hb : isFinite b = true)
    (hw : isFinite w = true) (h : val a + val b = val w) (h0 : val w ≠ 0) : add nan a b = w := by
  have hkey : key (add nan a b) = key w :=
    Int.le_antisymm (key_add_le nan ha hb hw h.le) (le_key_add nan ha hb hw h.ge)
  refine eq_of_key_eq hkey fun hk => h0 ?_
  have h1 := (key_le_iff_val_le w zero).mp hk.le
  have h2 := key_nonneg_iff_val.mp hk.ge
  exact Int.le_antisymm h1 h2

theorem isNaN_add_of_finite {a b : Word} (nan : Word) (ha : isFinite a = true) (hb : isFinite b = true) :
    isNaN (add nan a b) = false := by
  rw [add_of_finite nan ha hb]
  split
  · simp [isNaN]
  · exact isNaN_rne _ _ _

/-! ### Products -/

/-- A factor that numerator and denominator share does not change the rounding (R11). -/
theorem roundMag_mul_right (n d : Nat) {k : Nat} (hd : 0 < d) (hk : 0 < k) :
    roundMag (n * k) (d * k) = roundMag n d := by
  have hdk : 0 < d * k := Nat.mul_pos hd hk
  have h : n * k * d = n * (d * k) := by ring
  exact Nat.le_antisymm (roundMag_mono hdk hd h.le) (roundMag_mono hd hdk h.ge)

/-- A product at most a value in magnitude rounds to at most that magnitude (R11). -/
theorem mag_mul_le {a b w : Word} (nan : Word) (ha : isFinite a = true) (hb : isFinite b = true)
    (hw : isFinite w = true) (h : units a * units b ≤ units w * 2 ^ 149) : mag (mul nan a b) ≤ mag w := by
  have hfin : mag w ≤ infMag := by simp [isFinite] at hw; omega
  rw [mul_of_finite nan ha hb, mag_rne, ← roundMag_exact hfin]
  exact roundMag_mono (by positivity) Nat.one_pos (by simpa [units] using h)

/-- A product of two values that are not negative is not negative (R12). -/
theorem key_mul_nonneg {a b : Word} (nan : Word) (ha : isFinite a = true) (hb : isFinite b = true)
    (ha0 : 0 ≤ val a) (hb0 : 0 ≤ val b) : 0 ≤ key (mul nan a b) := by
  have hzero : ∀ {w : Word}, 0 ≤ val w → sign w = true → units w = 0 := fun {w} h hs => by
    simpa [val, hs] using h
  have hround : roundMag 0 (2 ^ 149) = 0 := by decide +kernel
  rw [mul_of_finite nan ha hb, key_nonneg_iff, sign_rne, mag_rne]
  cases hsa : sign a with
  | true => right; rw [hzero ha0 hsa, Nat.zero_mul, hround]
  | false =>
    cases hsb : sign b with
    | true => right; rw [hzero hb0 hsb, Nat.mul_zero, hround]
    | false => left; rfl

/-- A product with minus one flips the sign (R12). -/
theorem mul_neg_one {c : Word} (nan : Word) (hc : isFinite c = true) : mul nan c (neg one) = neg c := by
  have hone : units (neg one) = 2 ^ 149 := by decide +kernel
  have hsign : (sign c != sign (neg one)) = sign (neg c) := by
    rw [show sign (neg one) = true by decide, sign_neg, Bool.bne_true]
  have hround := roundMag_mul_right (units c) 1 Nat.one_pos (Nat.two_pow_pos 149)
  rw [Nat.one_mul] at hround
  rw [mul_of_finite nan hc (by decide), hsign, hone, rne, hround, ← units_neg]
  exact rne_self (by simpa using hc)

/-! ### Magnitudes one pattern or one binade apart -/

/-- The gap from a magnitude pattern to the next (R11). -/
theorem magUnits_succ (m : Nat) : magUnits (m + 1) = magUnits m + 2 ^ (m / 2 ^ 23 - 1) := by
  rcases Nat.lt_or_ge m (2 ^ 23) with h | h
  · have h0 : m / 2 ^ 23 - 1 = 0 := by omega
    have hs := magUnits_significand (q := m + 1) (k := 0) (.inl rfl) (by omega)
    rw [Nat.zero_mul, Nat.zero_add, Nat.pow_zero, Nat.mul_one] at hs
    rw [magUnits_subnormal h, h0, hs, Nat.pow_zero]
  · obtain ⟨k, q, hlo, hhi, rfl⟩ : ∃ k q, 2 ^ 23 ≤ q ∧ q < 2 ^ 24 ∧ m = k * 2 ^ 23 + q :=
      ⟨m / 2 ^ 23 - 1, 2 ^ 23 + m % 2 ^ 23, by omega, by omega, by omega⟩
    have hk : (k * 2 ^ 23 + q) / 2 ^ 23 - 1 = k := by omega
    rw [hk, Nat.add_assoc, magUnits_significand (.inr (by omega)) (by omega), magUnits_normal k hlo hhi]
    ring

/-- Gaps widen with the magnitude (R11). -/
theorem magUnits_gap_mono {a b : Nat} (h : a ≤ b) :
    magUnits (a + 1) + magUnits b ≤ magUnits a + magUnits (b + 1) := by
  have hpow : 2 ^ (a / 2 ^ 23 - 1) ≤ 2 ^ (b / 2 ^ 23 - 1) :=
    Nat.pow_le_pow_right (by decide) (Nat.sub_le_sub_right (Nat.div_le_div_right h) 1)
  rw [magUnits_succ, magUnits_succ]
  omega

/-- Above the lowest binade one more in the exponent doubles the magnitude (R11). -/
theorem magUnits_add_binade {m : Nat} (h : 2 ^ 23 ≤ m) : magUnits (m + 2 ^ 23) = magUnits m * 2 := by
  obtain ⟨k, q, hlo, hhi, rfl⟩ : ∃ k q, 2 ^ 23 ≤ q ∧ q < 2 ^ 24 ∧ m = k * 2 ^ 23 + q :=
    ⟨m / 2 ^ 23 - 1, 2 ^ 23 + m % 2 ^ 23, by omega, by omega, by omega⟩
  rw [show k * 2 ^ 23 + q + 2 ^ 23 = (k + 1) * 2 ^ 23 + q by ring, magUnits_normal _ hlo hhi,
    magUnits_normal k hlo hhi, Nat.pow_succ, Nat.mul_assoc]

/-- Rounding adds at most the 2^24th part, above the lowest binade (R11). -/
theorem magUnits_roundMag_le {n d : Nat} (hd : 0 < d) (h : 0 < roundShift n d) :
    magUnits (roundMag n d) * d * 2 ^ 24 ≤ (2 ^ 24 + 1) * n := by
  have hdiv := le_div_shift h
  obtain ⟨-, hhalf, -⟩ := roundNearest_spec n (d := d * 2 ^ roundShift n d) (by positivity)
  have hpat : magUnits (roundMag n d) ≤
      roundNearest n (d * 2 ^ roundShift n d) * 2 ^ roundShift n d := by
    rw [← magUnits_significand (.inr (le_roundNearest_shift h)) (roundNearest_shift_le n d)]
    exact magUnits_strictMono.monotone (Nat.min_le_left _ _)
  generalize roundNearest n (d * 2 ^ roundShift n d) = q at *
  generalize roundShift n d = k at *
  have hmul : magUnits (roundMag n d) * d ≤ q * (d * 2 ^ k) :=
    calc magUnits (roundMag n d) * d ≤ q * 2 ^ k * d := Nat.mul_le_mul_right d hpat
      _ = q * (d * 2 ^ k) := by ring
  rw [Nat.mul_assoc] at hhalf
  omega

/-! ### Half a value, and the exact remainder -/

/-- Half of a value above the two lowest binades is a value (R11). -/
theorem half_exact {p : Word} (nan : Word) (hp : isFinite p = true) (hlo : 2 ^ 24 ≤ mag p) :
    isFinite (div nan p two) = true ∧ 2 * val (div nan p two) = val p := by
  have hfin : mag p < infMag := by simpa [isFinite] using hp
  have hbin : magUnits (mag p) = magUnits (mag p - 2 ^ 23) * 2 := by
    rw [← magUnits_add_binade (by omega)]
    congr 1
    omega
  have htwo : units two = 1 * (2 * 2 ^ 149) := by decide +kernel
  have hdiv : div nan p two = rne (sign p) (magUnits (mag p - 2 ^ 23)) 1 := by
    rw [div_of_finite nan hp (by decide), if_neg (by decide), show sign two = false by decide,
      Bool.bne_false, units, hbin, htwo, Nat.mul_assoc, rne,
      roundMag_mul_right _ 1 Nat.one_pos (by positivity), rne]
  obtain ⟨hf, hv⟩ := rne_magUnits (m := mag p - 2 ^ 23) (sign p) (by omega)
  rw [hdiv]
  refine ⟨hf, ?_⟩
  rw [hv, val, units, hbin]
  split <;> push_cast <;> ring

/-- A remainder that R12 defines does not use the free value. -/
theorem fmod_eq_of_defined {a b : Word} (h : fmodDefined a b = true) (free free' : Word) :
    fmod free a b = fmod free' a b := by
  simp [fmod, h]

end Sys2Proof.F32
end

section
/-! SUPPORT. The three waveforms (spec/40_oscillator.md R128 to R131): the period of a legal frequency, the phase
inside it, and the range of each output. -/

namespace Sys2Proof.Machine

theorem isFinite_of_freqAccepted {f : Word} (h : freqAccepted f = true) : F32.isFinite f = true := by
  simp only [freqAccepted, F32.inRange, Bool.and_eq_true] at h
  refine F32.isFinite_of_inRange (hi := F32.twentyThousand) (by decide) ?_
  simp [F32.inRange, h.2, F32.le_chain (a := F32.zero) (by decide +kernel) h.1]

/-- A legal frequency is positive and lies between 10 and 20000 Hz (R121). -/
theorem units_of_freqAccepted {f : Word} (h : freqAccepted f = true) :
    0 < F32.val f ∧ 10 * 2 ^ 149 ≤ F32.units f ∧ F32.units f ≤ 20000 * 2 ^ 149 := by
  have hf := isFinite_of_freqAccepted h
  simp only [freqAccepted, F32.inRange, Bool.and_eq_true] at h
  have hlo := (F32.le_of_finite (by decide) hf).mp h.1
  have hhi := (F32.le_of_finite hf (by decide)).mp h.2
  rw [show F32.val F32.ten = 10 * 2 ^ 149 by decide +kernel] at hlo
  rw [show F32.val F32.twentyThousand = 20000 * 2 ^ 149 by decide +kernel] at hhi
  have habs := F32.natAbs_val f
  omega

/-- The period `p = RNE(1/f)` of a waveform (R128, R129). -/
def period (nan f : Word) : Word := F32.div nan F32.one f

section Period

variable {f : Word} (nan : Word) (hf : freqAccepted f = true)
include hf

theorem period_eq : period nan f = F32.rne false (2 ^ 149 * 2 ^ 149) (F32.units f) := by
  obtain ⟨hpos, hlo, -⟩ := units_of_freqAccepted hf
  have hzero : F32.isZero f = false := by
    have hm : F32.mag f ≠ 0 := fun hm => by
      rw [F32.units, hm, show F32.magUnits 0 = 0 from rfl] at hlo
      omega
    simp [F32.isZero, hm]
  rw [period, F32.div_of_finite nan (by decide) (isFinite_of_freqAccepted hf), if_neg (by simp [hzero]),
    F32.sign_eq_false_of_val_pos hpos, show F32.units F32.one = 2 ^ 149 by decide +kernel]
  rfl

/-- A legal frequency's period lies between 2^-15, which is above 1/20000, and 1 (R129). -/
theorem mag_period : 0x38000000 ≤ F32.mag (period nan f) ∧ F32.mag (period nan f) ≤ F32.mag F32.one := by
  obtain ⟨-, hlo, hhi⟩ := units_of_freqAccepted hf
  rw [period_eq nan hf, F32.mag_rne]
  constructor
  · calc 0x38000000 = F32.roundMag (2 ^ 134) 1 := by decide +kernel
      _ ≤ _ := F32.roundMag_mono Nat.one_pos (by omega) (by omega)
  · calc _ ≤ F32.roundMag (2 ^ 149) 1 := F32.roundMag_mono (by omega) Nat.one_pos (by omega)
      _ = F32.mag F32.one := by decide +kernel

theorem isFinite_period : F32.isFinite (period nan f) = true :=
  F32.isFinite_of_mag_le (b := F32.one) (by decide) (mag_period nan hf).2

theorem val_period_pos : 0 < F32.val (period nan f) := by
  have hs : F32.sign (period nan f) = false := by rw [period_eq nan hf, F32.sign_rne]
  have hmag : 0 < F32.mag (period nan f) := (by decide : 0 < 0x38000000).trans_le (mag_period nan hf).1
  have hunits : 0 < F32.units (period nan f) := F32.magUnits_strictMono hmag
  rw [F32.val, if_neg (by simp [hs])]
  exact_mod_cast hunits

/-- The period times the frequency is at most 1 + 2^-24 (R128). -/
theorem period_mul_le :
    F32.units (period nan f) * F32.units f * 2 ^ 24 ≤ (2 ^ 24 + 1) * (2 ^ 149 * 2 ^ 149) := by
  obtain ⟨-, hlo, hhi⟩ := units_of_freqAccepted hf
  have hshift : 0 < F32.roundShift (2 ^ 149 * 2 ^ 149) (F32.units f) := by
    have hq : 2 ^ 24 ≤ 2 ^ 149 * 2 ^ 149 / F32.units f :=
      (Nat.le_div_iff_mul_le (by omega)).mpr (by omega)
    have hlog : 24 ≤ (2 ^ 149 * 2 ^ 149 / F32.units f).log2 := (Nat.le_log2 (by omega)).mpr hq
    unfold F32.roundShift
    omega
  have hmag : F32.mag (period nan f) = F32.roundMag (2 ^ 149 * 2 ^ 149) (F32.units f) := by
    rw [period_eq nan hf, F32.mag_rne]
  rw [F32.units, hmag]
  exact F32.magUnits_roundMag_le (by omega) hshift

/-! ### The phase of a finite time -/

variable {t : Word} (ht : F32.isFinite t = true) (ht0 : F32.le F32.zero t = true)
include ht ht0

theorem fmodDefined_period : F32.fmodDefined t (period nan f) = true := by
  have hpos : F32.lt F32.zero (period nan f) = true :=
    (F32.lt_of_finite (by decide) (isFinite_period nan hf)).mpr (val_period_pos nan hf)
  have ht0' : F32.le 0#32 t = true := ht0
  have hpos' : F32.lt 0#32 (period nan f) = true := hpos
  simp [F32.fmodDefined, ht, ht0', isFinite_period nan hf, hpos']

/-- `m = fmod(t, p)` is the exact remainder, whatever the free value, and lies in [0, p) (R12, R128). -/
theorem phase_spec (free : Word) :
    F32.isFinite (F32.fmod free t (period nan f)) = true ∧
    F32.val (F32.fmod free t (period nan f)) = F32.val t % F32.val (period nan f) ∧
    0 ≤ F32.val (F32.fmod free t (period nan f)) ∧
    F32.val (F32.fmod free t (period nan f)) < F32.val (period nan f) := by
  have hp := val_period_pos nan hf
  obtain ⟨hfin, hval⟩ := F32.fmodIsTheExactRemainder free t (period nan f) ht ht0 (isFinite_period nan hf)
    ((F32.lt_of_finite (by decide) (isFinite_period nan hf)).mpr hp)
  refine ⟨hfin, hval, ?_, ?_⟩ <;> rw [hval]
  · exact Int.emod_nonneg _ hp.ne'
  · exact Int.emod_lt_of_pos _ hp

end Period

/-! ### The square -/

theorem squareWave_eq (nan free c f t : Word) :
    squareWave nan free c f t =
      if F32.lt (F32.fmod free t (period nan f)) (F32.div nan (period nan f) F32.two) then c
      else F32.neg c := rfl

/-- Half a legal period is exact (R129). -/
theorem half_period_exact {f : Word} (nan : Word) (hf : freqAccepted f = true) :
    F32.isFinite (F32.div nan (period nan f) F32.two) = true ∧
      2 * F32.val (F32.div nan (period nan f) F32.two) = F32.val (period nan f) :=
  F32.half_exact nan (isFinite_period nan hf) ((by decide : 2 ^ 24 ≤ 0x38000000).trans (mag_period nan hf).1)

/-- Settles O39: half of the period and the remainder by it are exact, so the comparison is that of the values. -/
theorem squareIsPlusOrMinusItsLevel : Obligations.SquareIsPlusOrMinusItsLevel := by
  intro nan free c f t hf ht ht0
  obtain ⟨hm, hmod, -⟩ := phase_spec nan hf ht ht0 0#32
  obtain ⟨hh, hhalf⟩ := half_period_exact nan hf
  have hlt := F32.lt_of_finite hm hh
  rw [squareWave_eq, F32.fmod_eq_of_defined (fmodDefined_period nan hf ht ht0) free 0#32]
  exact ⟨hmod, hhalf, fun h => if_pos (hlt.mpr h), fun h => if_neg (hlt.not.mpr (Int.not_lt.mpr h))⟩

/-! ### The sawtooth -/

/-- The sawtooth's amplitude at level one for the remainder `m`: `v = RNE(RNE(2*RNE(m*f)) - 1)` (R128). -/
def sawShape (nan m f : Word) : Word :=
  F32.sub nan (F32.mul nan F32.two (F32.mul nan m f)) F32.one

theorem sawWave_eq (nan free c f t : Word) :
    sawWave nan free c f t = F32.mul nan c (sawShape nan (F32.fmod free t (period nan f)) f) := rfl

/-- The phase `RNE(m*f)` of a remainder below the period lies in [0, 1] (R128). -/
theorem phase_mul_le {f m : Word} (nan : Word) (hf : freqAccepted f = true) (hm : F32.isFinite m = true)
    (hm0 : 0 ≤ F32.val m) (hlt : F32.val m < F32.val (period nan f)) :
    0 ≤ F32.key (F32.mul nan m f) ∧ F32.mag (F32.mul nan m f) ≤ F32.mag F32.one := by
  have hfin := isFinite_of_freqAccepted hf
  refine ⟨F32.key_mul_nonneg nan hm hfin hm0 (units_of_freqAccepted hf).1.le, ?_⟩
  have hunits : F32.units m ≤ F32.units (period nan f) := by
    rw [← F32.natAbs_val, ← F32.natAbs_val]
    omega
  have hprod : F32.units m * F32.units f * 2 ^ 24 ≤ (2 ^ 24 + 1) * (2 ^ 149 * 2 ^ 149) :=
    le_trans (by gcongr) (period_mul_le nan hf)
  rw [F32.mul_of_finite nan hm hfin, F32.mag_rne]
  calc F32.roundMag (F32.units m * F32.units f) (2 ^ 149)
      ≤ F32.roundMag ((2 ^ 24 + 1) * 2 ^ 125) 1 :=
        F32.roundMag_mono (Nat.two_pow_pos 149) Nat.one_pos (by omega)
    _ = F32.mag F32.one := by decide +kernel

/-- For a phase in [0, 1] the amplitude lies in [-1, 1] (R128). -/
theorem mag_sawShape_le {f m : Word} (nan : Word) (h0 : 0 ≤ F32.key (F32.mul nan m f))
    (h1 : F32.mag (F32.mul nan m f) ≤ F32.mag F32.one) :
    F32.mag (sawShape nan m f) ≤ F32.mag F32.one := by
  unfold sawShape
  generalize F32.mul nan m f = ph at *
  have hph : F32.isFinite ph = true := F32.isFinite_of_mag_le (b := F32.one) (by decide) h1
  have htwo : F32.units F32.two = 2 * 2 ^ 149 := by decide +kernel
  have hone : F32.val F32.one = 2 ^ 149 := by decide +kernel
  have hdbl : F32.mag (F32.mul nan F32.two ph) ≤ F32.mag F32.two :=
    F32.mag_mul_le nan (by decide) hph (by decide) (Nat.mul_le_mul_left _
      ((F32.units_le_of_mag_le h1).trans (by decide +kernel)))
  have hdbl0 : 0 ≤ F32.val (F32.mul nan F32.two ph) :=
    F32.key_nonneg_iff_val.mp (F32.key_mul_nonneg nan (by decide) hph (by decide +kernel)
      (F32.key_nonneg_iff_val.mp h0))
  generalize F32.mul nan F32.two ph = dbl at *
  have hfin : F32.isFinite dbl = true := F32.isFinite_of_mag_le (b := F32.two) (by decide) hdbl
  have hval : F32.val dbl ≤ 2 * 2 ^ 149 := by
    have hu := F32.units_le_of_mag_le hdbl
    have habs := F32.natAbs_val dbl
    omega
  have hup : F32.key (F32.sub nan dbl F32.one) ≤ F32.key F32.one :=
    F32.key_add_le nan hfin (by decide) (by decide) (by rw [F32.val_neg, hone]; omega)
  have hlow : F32.key (F32.neg F32.one) ≤ F32.key (F32.sub nan dbl F32.one) :=
    F32.le_key_add nan hfin (by decide) (by decide) (by rw [F32.val_neg, hone]; omega)
  have habs := F32.natAbs_key (F32.sub nan dbl F32.one)
  rw [F32.key_neg] at hlow
  have hkone : F32.key F32.one = F32.mag F32.one := by decide
  omega

/-- A level times an amplitude in [-1, 1] lies in [-c, c] (R128). -/
theorem mul_within_level {c v : Word} (nan : Word) (hc : levelAccepted c = true)
    (hv : F32.mag v ≤ F32.mag F32.one) :
    F32.le (F32.neg c) (F32.mul nan c v) = true ∧ F32.le (F32.mul nan c v) c = true := by
  have hfin := isFinite_of_levelAccepted hc
  have hvfin : F32.isFinite v = true := F32.isFinite_of_mag_le (b := F32.one) (by decide) hv
  have hmag : F32.mag (F32.mul nan c v) ≤ F32.mag c :=
    F32.mag_mul_le nan hfin hvfin hfin (Nat.mul_le_mul_left _
      ((F32.units_le_of_mag_le hv).trans (by decide +kernel)))
  have hout := F32.not_nan_of_finite (F32.isFinite_of_mag_le hfin hmag)
  have hkc : F32.key c = F32.mag c := F32.key_eq_mag (F32.key_nonneg_iff_val.mp (key_nonneg_of_levelAccepted hc))
  have habs := F32.natAbs_key (F32.mul nan c v)
  constructor <;> rw [F32.le_iff]
  · exact ⟨by simpa using F32.not_nan_of_finite hfin, hout, by rw [F32.key_neg]; omega⟩
  · exact ⟨hout, F32.not_nan_of_finite hfin, by omega⟩

/-- Settles O38: the phase rounds to at most 1, since the period times the frequency is at most 1 + 2^-24. -/
theorem sawtoothStaysWithinItsLevel : Obligations.SawtoothStaysWithinItsLevel := by
  intro nan free c f t hf hc ht ht0
  obtain ⟨hm, hmod, hm0, hlt⟩ := phase_spec nan hf ht ht0 0#32
  obtain ⟨hph0, hph1⟩ := phase_mul_le nan hf hm hm0 hlt
  rw [sawWave_eq, F32.fmod_eq_of_defined (fmodDefined_period nan hf ht ht0) free 0#32]
  exact ⟨hmod, rfl, mul_within_level nan hc (mag_sawShape_le nan hph0 hph1)⟩

/-! ### Phase 0 -/

/-- At the start of a block the remainder is +0.0 (R130). -/
theorem fmod_zero_period {f : Word} (nan free : Word) (hf : freqAccepted f = true) :
    F32.fmod free F32.zero (period nan f) = F32.zero := by
  have hdef := fmodDefined_period nan hf (t := F32.zero) (by decide) (by decide +kernel)
  rw [F32.fmod, if_pos hdef, show F32.units F32.zero = 0 from rfl, Nat.zero_mod]
  decide +kernel

/-- Zero times a positive value is +0.0 (R12). -/
theorem zero_mul_of_pos {a : Word} (nan : Word) (ha : F32.isFinite a = true) (hs : F32.sign a = false) :
    F32.mul nan F32.zero a = F32.zero ∧ F32.mul nan a F32.zero = F32.zero := by
  have hu : F32.units F32.zero = 0 := rfl
  have hz : F32.rne false 0 (2 ^ 149) = F32.zero := by decide +kernel
  rw [F32.mul_of_finite nan (by decide) ha, F32.mul_of_finite nan ha (by decide), hs, hu, Nat.mul_zero,
    Nat.zero_mul]
  exact ⟨hz, hz⟩

/-- At phase 0 the amplitude is -1 (R128, R130). -/
theorem sawShape_zero {f : Word} (nan : Word) (hf : freqAccepted f = true) :
    sawShape nan F32.zero f = F32.neg F32.one := by
  have hsign := F32.sign_eq_false_of_val_pos (units_of_freqAccepted hf).1
  have hph := (zero_mul_of_pos nan (isFinite_of_freqAccepted hf) hsign).1
  have hdbl := (zero_mul_of_pos (a := F32.two) nan (by decide) (by decide)).2
  rw [sawShape, hph, hdbl]
  exact F32.add_eq_of_val nan (by decide) (by decide) (by decide) (by decide +kernel) (by decide +kernel)

/-- Settles O37: the remainder is +0.0, which is below half the period, and the sawtooth's amplitude there is
-1. -/
theorem waveformsStartAtPhaseZero : Obligations.WaveformsStartAtPhaseZero := by
  intro nan free c f hf hc
  have hmod : F32.fmod free 0#32 (period nan f) = F32.zero := fmod_zero_period nan free hf
  constructor
  · rw [sawWave_eq, hmod, sawShape_zero nan hf]
    exact F32.mul_neg_one nan (isFinite_of_levelAccepted hc)
  · obtain ⟨hh, hhalf⟩ := half_period_exact nan hf
    have hpos := val_period_pos nan hf
    rw [squareWave_eq, hmod]
    refine if_pos ((F32.lt_of_finite (by decide) hh).mpr ?_)
    rw [show F32.val F32.zero = 0 from rfl]
    omega

/-! ### The noise -/

/-- +0.0 lies in [-c, c] (R131). -/
theorem zero_within_level {c : Word} (hc : levelAccepted c = true) :
    F32.le (F32.neg c) F32.zero = true ∧ F32.le F32.zero c = true := by
  have hzc := (levelAccepted_iff.mp hc).1
  obtain ⟨hn, hnc, hk⟩ := F32.le_iff.mp hzc
  have hkz : F32.key F32.zero = 0 := rfl
  refine ⟨F32.le_iff.mpr ⟨by simpa using hnc, hn, ?_⟩, hzc⟩
  rw [F32.key_neg]
  omega

/-- Settles O40: a draw in the interval is the output, and +0.0, which is in it, is the output of every other. -/
theorem noiseIsAnyValueWithinItsLevel : Obligations.NoiseIsAnyValueWithinItsLevel := by
  intro c hc
  constructor
  · intro v
    have hin : F32.le (F32.neg c) (noiseWave c v) = true ∧ F32.le (noiseWave c v) c = true := by
      unfold noiseWave
      split
      · next h => simpa [F32.inRange] using h
      · exact zero_within_level hc
    exact ⟨(F32.le_iff.mp hin.1).2.1, hin⟩
  · intro v hlo hhi
    exact if_pos (by simp [F32.inRange, hlo, hhi])

end Sys2Proof.Machine
end

section
/-! SUPPORT. The sample call and the ramp (spec/40_oscillator.md R120, R123 to R127): the cases of one ramp step, what
a sample call is for a silent and for a sounding record, and how many calls the ramp takes. -/

namespace Sys2Proof.Machine

/-! ### One ramp step (R125) -/

theorem rampLevel_step {p : Params} {target current : Word}
    (h : F32.lt current (F32.sub p.nanValue target p.rampEps) = true)
    (hle : F32.le (F32.add p.nanValue current p.rampStep) target = true) :
    rampLevel p target current = F32.add p.nanValue current p.rampStep := by
  rw [rampLevel, if_pos h, F32.minimum, if_pos hle]

theorem rampLevel_clamp {p : Params} {target current : Word}
    (hle : F32.le (F32.add p.nanValue current p.rampStep) target = false) :
    rampLevel p target current = target := by
  simp [rampLevel, F32.minimum, hle]

theorem rampLevel_snap {p : Params} {target current : Word}
    (h : F32.lt current (F32.sub p.nanValue target p.rampEps) = false) :
    rampLevel p target current = target := if_neg (by simp [h])

/-! ### The sample call (R120, R123) -/

theorem Osc.sample_silent {o : Osc} (h : F32.le o.target 0#32 = true) (p : Params) (t : Word) (i : Nat) :
    o.sample p t i = ⟨F32.zero, o, i⟩ := if_pos h

theorem Osc.sample_sounding {o : Osc} (h : F32.le o.target 0#32 = false) (p : Params) (t : Word) (i : Nat) :
    o.sample p t i = ⟨(o.ramp p).wave p t i, o.ramp p, i + 1⟩ := by
  have hm : o.muted = false := h
  simp [Osc.sample, hm]

theorem Osc.ramp_of_level {p : Params} {o : Osc} {c : Word} (h : rampLevel p o.target o.current = c) :
    o.ramp p = { o with current := c } := by rw [← h]; rfl

/-- A word with the key of zero is one of the two zeros (R12). -/
theorem eq_zero_of_key {w : Word} (h : F32.key w = 0) : w = 0x00000000#32 ∨ w = 0x80000000#32 := by
  have hmag : F32.mag w = 0 := by rw [← F32.natAbs_key, h]; rfl
  have hw := F32.pack_sign_mag w
  rw [hmag] at hw
  cases hs : F32.sign w with
  | false => left; rw [← hw, hs]; rfl
  | true => right; rw [← hw, hs]; rfl

/-- A legal target is not positive exactly where it is a zero (R123). -/
theorem level_le_zero_iff {l : Word} (h : levelAccepted l = true) :
    F32.le l 0#32 = true ↔ l = 0x00000000#32 ∨ l = 0x80000000#32 := by
  constructor
  · intro hle
    have hk : F32.key l ≤ 0 := (F32.le_iff.mp hle).2.2
    exact eq_zero_of_key (Int.le_antisymm hk (key_nonneg_of_levelAccepted h))
  · rintro (rfl | rfl) <;> decide +kernel

/-- Settles O32: a silent record's sample call is +0.0 and the record as it was. -/
theorem mutedOscillatorReturnsZeroAndFreezes : Obligations.MutedOscillatorReturnsZeroAndFreezes := by
  intro p o t i ht
  refine ⟨level_le_zero_iff ht, fun h => ?_⟩
  rw [Osc.sample_silent h]
  exact ⟨rfl, rfl⟩

/-- Settles O33, from the three cases of the ramp and the waveform of each kind. -/
theorem sampleStepsTheRampThenSounds : Obligations.SampleStepsTheRampThenSounds := by
  intro p o t i h
  rw [Osc.sample_sounding h]
  refine ⟨fun hlt hle => Osc.ramp_of_level (rampLevel_step hlt hle),
    fun _ hle => Osc.ramp_of_level (rampLevel_clamp hle), fun hlt => Osc.ramp_of_level (rampLevel_snap hlt),
    fun hk => ?_, fun hk => ?_, fun hk => ?_, rfl, rfl⟩ <;>
  simp [Osc.wave, hk]

/-! ### The legal step and threshold (R8) -/

/-- A legal RAMP_EPS is a finite value, not negative and below RAMP_STEP (R8). -/
theorem rampEps_spec {p : Params} (hp : p.legal = true) :
    F32.isFinite p.rampEps = true ∧ 0 ≤ F32.val p.rampEps ∧ F32.val p.rampEps < F32.val p.rampStep := by
  have hstep := isFinite_of_levelAccepted (levelAccepted_rampStep hp)
  simp only [Params.legal, Params.rampEpsLegal, Bool.and_eq_true] at hp
  obtain ⟨⟨⟨⟨⟨⟨-, hlo, hlt⟩, -⟩, -⟩, -⟩, -⟩, -⟩ := hp
  have hfin : F32.isFinite p.rampEps = true :=
    F32.isFinite_of_inRange hstep (by simp [F32.inRange, hlo, F32.le_of_lt hlt])
  exact ⟨hfin, (F32.le_of_finite (by decide) hfin).mp hlo, (F32.lt_of_finite hfin hstep).mp hlt⟩

/-! ### A decrease (R127) -/

/-- The threshold RNE(L - RAMP_EPS) is at most the target L (R125). -/
theorem key_threshold_le {p : Params} (hp : p.legal = true) {target : Word}
    (ht : levelAccepted target = true) :
    F32.key (F32.sub p.nanValue target p.rampEps) ≤ F32.key target := by
  obtain ⟨hfin, h0, -⟩ := rampEps_spec hp
  have hfint := isFinite_of_levelAccepted ht
  exact F32.key_add_le _ hfint (by simpa using hfin) hfint (by rw [F32.val_neg]; omega)

/-- Above its target a level is set to the target at once (R127). -/
theorem rampLevel_of_lt {p : Params} (hp : p.legal = true) {target current : Word}
    (ht : levelAccepted target = true) (h : F32.lt target current = true) :
    rampLevel p target current = target := by
  refine rampLevel_snap (Bool.eq_false_iff.mpr fun hlt => ?_)
  have h1 := (F32.lt_iff.mp h).2.2
  have h2 := (F32.lt_iff.mp hlt).2.2
  have h3 := key_threshold_le hp ht
  omega

/-- Settles O34: the level passes down to a positive target in one step, and a zero target takes none. -/
theorem loweredTargetAppliesAtTheNextSample : Obligations.LoweredTargetAppliesAtTheNextSample := by
  intro p o t i hp ht _ hlt
  constructor
  · intro hpos
    have hsound : F32.le o.target 0#32 = false := by
      refine Bool.eq_false_iff.mpr fun hle => ?_
      have h1 := (F32.lt_iff.mp hpos).2.2
      have h2 := (F32.le_iff.mp hle).2.2
      omega
    rw [Osc.sample_sounding hsound, Osc.ramp_of_level (rampLevel_of_lt hp ht hlt)]
    exact ⟨rfl, rfl⟩
  · intro hz
    rw [Osc.sample_silent hz]

/-! ### The number of calls (R126) -/

theorem iterate_ramp_target (p : Params) (o : Osc) (j : Nat) : ((Osc.ramp p)^[j] o).target = o.target := by
  induction j with
  | zero => rfl
  | succ j ih => rw [Function.iterate_succ_apply', Osc.ramp_target, ih]

/-- One more call is one more step of the level toward the same target. -/
theorem iterate_ramp_succ_current (p : Params) (o : Osc) (j : Nat) :
    ((Osc.ramp p)^[j + 1] o).current = rampLevel p o.target ((Osc.ramp p)^[j] o).current := by
  rw [Function.iterate_succ_apply', Osc.ramp_current, iterate_ramp_target]

theorem val_eq_units_of_levelAccepted {l : Word} (h : levelAccepted l = true) : F32.val l = F32.units l :=
  F32.val_eq_units (F32.key_nonneg_iff_val.mp (key_nonneg_of_levelAccepted h))

/-- 2^q steps of 2^-q are 1, in units of 2^-149. -/
theorem two_pow_steps {q : Nat} (hq : q ≤ 24) : 2 ^ q * 2 ^ (149 - q) = 2 ^ 149 := by
  rw [← Nat.pow_add]
  congr 1
  omega

/-- A count of at most 2^24 steps of 2^-q is a binary32 value, where it is at most 1 (R126). -/
theorem exists_word_of_steps {q k : Nat} (hq : q ≤ 24) (hk : k ≤ 2 ^ q) :
    ∃ w, F32.isFinite w = true ∧ F32.val w = (k : Int) * 2 ^ (149 - q) := by
  obtain ⟨m, hm⟩ : ∃ m, F32.magUnits m = k * 2 ^ (149 - q) := by
    rcases Nat.lt_or_ge k (2 ^ 24) with h | h
    · exact F32.exists_magUnits_eq _ h
    · have hle : 2 ^ q ≤ 2 ^ 24 := Nat.pow_le_pow_right (by decide) hq
      have hkq : k = 2 ^ q := by omega
      exact ⟨F32.mag F32.one, by rw [hkq, two_pow_steps hq]; decide +kernel⟩
  have hone : F32.magUnits (F32.mag F32.one) = 2 ^ 149 := by decide +kernel
  have hle : F32.magUnits m ≤ F32.magUnits (F32.mag F32.one) := by
    rw [hm, hone, ← two_pow_steps hq]
    exact Nat.mul_le_mul_right _ hk
  have hinf : m < F32.infMag := (F32.magUnits_strictMono.le_iff_le.mp hle).trans_lt (by decide)
  exact ⟨F32.pack false m, F32.isFinite_pack false hinf, by rw [F32.val_pack_false hinf, hm]; push_cast; rfl⟩

/-- The threshold lies above a level `c` where a full step from `c` is a value `w` below the target: what is left
of the gap from `w` to the target is at least the gap from `c` to the next value (R126). -/
theorem lt_threshold {nan c w target eps : Word} (hc : F32.isFinite c = true)
    (ht : F32.isFinite target = true) (he : F32.isFinite eps = true) (hc0 : 0 ≤ F32.val c)
    (hcw : F32.val c ≤ F32.val w) (hwt : F32.val w < F32.val target)
    (heps : F32.val eps ≤ F32.val w - F32.val c) : F32.lt c (F32.sub nan target eps) = true := by
  have hkw := (F32.key_le_iff_val_le c w).mpr hcw
  have hkt := (F32.key_lt_iff_val_lt w target).mpr hwt
  rw [F32.key_eq_mag (hc0.trans hcw)] at hkw hkt
  rw [F32.key_eq_mag hc0] at hkw
  rw [F32.key_eq_mag ((hc0.trans hcw).trans hwt.le)] at hkt
  have hinf : F32.mag target < F32.infMag := by simpa [F32.isFinite] using ht
  have hnext : F32.mag c + 1 < F32.infMag := by omega
  have hgap := F32.magUnits_gap_mono (a := F32.mag c) (b := F32.mag w) (by omega)
  have htop : F32.magUnits (F32.mag w + 1) ≤ F32.units target :=
    F32.magUnits_strictMono.monotone (by omega)
  have hvc := F32.val_eq_units hc0
  have hvw := F32.val_eq_units (hc0.trans hcw)
  have hvt := F32.val_eq_units ((hc0.trans hcw).trans hwt.le)
  have hle : F32.key (F32.pack false (F32.mag c + 1)) ≤ F32.key (F32.sub nan target eps) := by
    refine F32.le_key_add nan ht (by simpa using he) (F32.isFinite_pack false hnext) ?_
    rw [F32.val_pack_false hnext, F32.val_neg]
    unfold F32.units at hvc hvw
    omega
  have hlt : F32.key c < F32.key (F32.pack false (F32.mag c + 1)) := by
    rw [F32.key_lt_iff_val_lt, F32.val_pack_false hnext, hvc]
    exact_mod_cast F32.magUnits_strictMono (Nat.lt_succ_self _)
  exact F32.lt_iff.mpr ⟨F32.not_nan_of_finite hc, F32.isNaN_add_of_finite nan ht (by simpa using he),
    hlt.trans_le hle⟩

section Steps

variable {p : Params} {target c : Word} {q j : Nat} (hp : p.legal = true) (hq : q ≤ 24)
  (hstep : F32.val p.rampStep = 2 ^ (149 - q)) (hc : F32.isFinite c = true)
  (hv : F32.val c = (j : Int) * 2 ^ (149 - q)) (hj : j < 2 ^ q)
include hp hq hstep hc hv hj

/-- The sum of a ramp step is exact: the next count of steps (R126). -/
theorem add_rampStep_exact :
    F32.isFinite (F32.add p.nanValue c p.rampStep) = true ∧
      F32.val (F32.add p.nanValue c p.rampStep) = ((j + 1 : Nat) : Int) * 2 ^ (149 - q) := by
  obtain ⟨w, hw, hvw⟩ := exists_word_of_steps (k := j + 1) hq hj
  have hpos : (0 : Int) < 2 ^ (149 - q) := by positivity
  have hsum : F32.add p.nanValue c p.rampStep = w := by
    refine F32.add_eq_of_val _ hc (isFinite_of_levelAccepted (levelAccepted_rampStep hp)) hw ?_ ?_
    · rw [hv, hstep, hvw]
      push_cast
      ring
    · rw [hvw]
      positivity
  rw [hsum]
  exact ⟨hw, hvw⟩

variable (ht : levelAccepted target = true)
include ht

/-- Where the next count of steps is below the target, the level becomes it (R126). -/
theorem rampLevel_below (hlt : ((j + 1 : Nat) : Int) * 2 ^ (149 - q) < F32.val target) :
    rampLevel p target c = F32.add p.nanValue c p.rampStep := by
  obtain ⟨hw, hvw⟩ := add_rampStep_exact hp hq hstep hc hv hj
  obtain ⟨hefin, -, heps⟩ := rampEps_spec hp
  have hfin := isFinite_of_levelAccepted ht
  have hdiff : F32.val (F32.add p.nanValue c p.rampStep) = F32.val c + F32.val p.rampStep := by
    rw [hvw, hv, hstep]
    push_cast
    ring
  have hpos : (0 : Int) < F32.val p.rampStep := by rw [hstep]; positivity
  refine rampLevel_step ?_ ((F32.le_of_finite hw hfin).mpr (hvw ▸ hlt.le))
  exact lt_threshold hc hfin hefin (by rw [hv]; positivity) (by omega) (hvw ▸ hlt) (by omega)

/-- Where the next count of steps reaches the target, the level becomes the target (R126). -/
theorem rampLevel_reaches (hpos : 0 < F32.val target)
    (hle : F32.val target ≤ ((j + 1 : Nat) : Int) * 2 ^ (149 - q)) : rampLevel p target c = target := by
  obtain ⟨hw, hvw⟩ := add_rampStep_exact hp hq hstep hc hv hj
  have hfin := isFinite_of_levelAccepted ht
  cases hlt : F32.lt c (F32.sub p.nanValue target p.rampEps) with
  | false => exact rampLevel_snap hlt
  | true =>
    cases hclamp : F32.le (F32.add p.nanValue c p.rampStep) target with
    | false => exact rampLevel_clamp hclamp
    | true =>
      have hge := (F32.le_of_finite hw hfin).mp hclamp
      have heq : F32.val c + F32.val p.rampStep = F32.val target := by
        rw [hvw] at hge
        rw [hv, hstep, ← Int.le_antisymm hge hle]
        push_cast
        ring
      rw [rampLevel_step hlt hclamp]
      exact F32.add_eq_of_val _ hc (isFinite_of_levelAccepted (levelAccepted_rampStep hp)) hfin heq hpos.ne'

end Steps

/-- Below the target the ramp counts its steps (R126). -/
theorem iterate_ramp_val {p : Params} {o : Osc} {q : Nat} (hp : p.legal = true)
    (ht : levelAccepted o.target = true) (hq : q ≤ 24) (hstep : F32.val p.rampStep = 2 ^ (149 - q))
    (h0 : o.current = 0#32) (j : Nat) (hj : j ≤ 2 ^ q)
    (hlt : (j : Int) * 2 ^ (149 - q) < F32.val o.target) :
    F32.isFinite ((Osc.ramp p)^[j] o).current = true ∧
      F32.val ((Osc.ramp p)^[j] o).current = (j : Int) * 2 ^ (149 - q) := by
  induction j with
  | zero =>
    rw [Function.iterate_zero_apply, h0, Nat.cast_zero, Int.zero_mul]
    exact ⟨by decide, rfl⟩
  | succ j ih =>
    have hmono : (j : Int) * 2 ^ (149 - q) ≤ ((j + 1 : Nat) : Int) * 2 ^ (149 - q) := by gcongr; omega
    obtain ⟨hc, hv⟩ := ih (by omega) (hmono.trans_lt hlt)
    rw [iterate_ramp_succ_current, rampLevel_below hp hq hstep hc hv hj ht hlt]
    exact add_rampStep_exact hp hq hstep hc hv hj

/-- The number of calls that R126 gives, `ceil(L / RAMP_STEP)`, for the target L and a step of 2^-q. -/
def rampCalls (target : Word) (q : Nat) : Nat := (F32.units target + 2 ^ (149 - q) - 1) / 2 ^ (149 - q)

/-- It is the least count of steps that is not below the target (R126). -/
theorem lt_rampCalls_iff {target : Word} (ht : levelAccepted target = true) (q j : Nat) :
    j < rampCalls target q ↔ (j : Int) * 2 ^ (149 - q) < F32.val target := by
  have hpos : 0 < 2 ^ (149 - q) := Nat.two_pow_pos _
  have hnat : j < rampCalls target q ↔ j * 2 ^ (149 - q) < F32.units target := by
    rw [rampCalls, Nat.lt_iff_add_one_le, Nat.le_div_iff_mul_le hpos, Nat.add_mul]
    omega
  rw [hnat, val_eq_units_of_levelAccepted ht]
  exact_mod_cast Iff.rfl

/-- A legal target is at most 1 (R122), so it takes at most 2^q steps. -/
theorem rampCalls_le {target : Word} (ht : levelAccepted target = true) {q : Nat} (hq : q ≤ 24) :
    rampCalls target q ≤ 2 ^ q := by
  have hle := (F32.le_of_finite (isFinite_of_levelAccepted ht) (by decide)).mp (levelAccepted_iff.mp ht).2
  have hone : F32.val F32.one = ((2 ^ q : Nat) : Int) * 2 ^ (149 - q) := by
    rw [show F32.val F32.one = 2 ^ 149 by decide +kernel]
    exact_mod_cast (two_pow_steps hq).symm
  exact Nat.not_lt.mp fun h => absurd ((lt_rampCalls_iff ht q _).mp h) (by omega)

/-- Settles O36, by induction on the calls: below the target each sum is exact and below the threshold. -/
theorem rampReachesItsTargetInCeilCalls : Obligations.RampReachesItsTargetInCeilCalls := by
  intro p o q hp ht hpos h0 hq hunits
  change (∀ j < rampCalls o.target q, _) ∧ ((Osc.ramp p)^[rampCalls o.target q] o).current = o.target
  have hstep : F32.val p.rampStep = 2 ^ (149 - q) := by
    rw [val_eq_units_of_levelAccepted (levelAccepted_rampStep hp), hunits]
    push_cast
    rfl
  have hv0 : 0 < F32.val o.target :=
    (F32.lt_of_finite (by decide) (isFinite_of_levelAccepted ht)).mp hpos
  have hcount := lt_rampCalls_iff ht q
  have hcalls := rampCalls_le ht hq
  generalize rampCalls o.target q = n at *
  have hval (j : Nat) (hj : j < n) :=
    iterate_ramp_val hp ht hq hstep h0 j (hj.le.trans hcalls) ((hcount j).mp hj)
  constructor
  · intro j hj
    refine ⟨(hval j hj).2, fun heq => ?_⟩
    have hlt := (hcount j).mp hj
    rw [← (hval j hj).2, heq] at hlt
    exact lt_irrefl _ hlt
  · obtain ⟨k, rfl⟩ : ∃ k, n = k + 1 :=
      Nat.exists_eq_add_one.mpr ((hcount 0).mpr (by simpa using hv0))
    obtain ⟨hc, hv⟩ := hval k (Nat.lt_succ_self k)
    rw [iterate_ramp_succ_current]
    exact rampLevel_reaches hp hq hstep hc hv hcalls ht hv0
      (Int.not_lt.mp ((hcount (k + 1)).not.mp (lt_irrefl _)))

end Sys2Proof.Machine
end

section
/-! SUPPORT. The commands that write oscillator fields (spec/40_oscillator.md R132, R133), and the frame of every
command but RENDER (spec/41_filter.md R169, spec/44_voice.md R220 to R225): what it leaves of each oscillator, of
the filters and of the rest. -/

namespace Sys2Proof.Machine

/-! ### SETLEVEL and SETFREQ -/

theorem freqAccepted_iff {f : Word} :
    freqAccepted f = true ↔ F32.le F32.ten f = true ∧ F32.le f F32.twentyThousand = true := by
  simp [freqAccepted, F32.inRange]

/-- `setLevel` writes the target and nothing else, where the level is in range (R122). -/
theorem Osc.setLevel_eq (o : Osc) (l : Word) : o.setLevel l = { o with
    target := if F32.le 0#32 l = true ∧ F32.le l 0x3F800000#32 = true then l else o.target } := by
  by_cases h : levelAccepted l = true
  · have hin : F32.le 0#32 l = true ∧ F32.le l 0x3F800000#32 = true := levelAccepted_iff.mp h
    rw [Osc.setLevel, if_pos h, if_pos hin]
  · have hout : ¬ (F32.le 0#32 l = true ∧ F32.le l 0x3F800000#32 = true) := levelAccepted_iff.not.mp h
    rw [Osc.setLevel, if_neg h, if_neg hout]

/-- `setFrequency` writes the frequency and nothing else, where it is in range (R121). -/
theorem Osc.setFrequency_eq (o : Osc) (f : Word) : o.setFrequency f = { o with
    freq := if F32.le 0x41200000#32 f = true ∧ F32.le f 0x469C4000#32 = true then f else o.freq } := by
  by_cases h : freqAccepted f = true
  · have hin : F32.le 0x41200000#32 f = true ∧ F32.le f 0x469C4000#32 = true := freqAccepted_iff.mp h
    rw [Osc.setFrequency, if_pos h, if_pos hin]
  · have hout : ¬ (F32.le 0x41200000#32 f = true ∧ F32.le f 0x469C4000#32 = true) := freqAccepted_iff.not.mp h
    rw [Osc.setFrequency, if_neg h, if_neg hout]

/-- Settles O19: the three words by their fields, and the update of one record's target. -/
theorem setLevelWritesTheTargetInRange : Obligations.SetLevelWritesTheTargetInRange :=
  ⟨fun a b => ⟨decode_cmdWord 0#2 0x04#8 a b, decode_cmdWord 1#2 0x04#8 a b, decode_cmdWord 2#2 0x04#8 a b⟩,
    fun k l _ => ⟨_, rfl, rfl, (Bank.get_set_same _ k _).trans (Osc.setLevel_eq _ l),
      fun _ hj => Bank.get_set_other _ _ hj⟩⟩

/-- Settles O20: the three words by their fields, and the update of one record's frequency. -/
theorem setFreqWritesTheFrequencyInRange : Obligations.SetFreqWritesTheFrequencyInRange :=
  ⟨fun a b => ⟨decode_cmdWord 0#2 0x05#8 a b, decode_cmdWord 1#2 0x05#8 a b, decode_cmdWord 2#2 0x05#8 a b⟩,
    fun k f _ => ⟨_, rfl, rfl, (Bank.get_set_same _ k _).trans (Osc.setFrequency_eq _ f),
      fun _ hj => Bank.get_set_other _ _ hj⟩⟩

/-! ### The two commands that can be rejected -/

/-- PREPARE does nothing or writes the rate, the hint, the flag and the chain (R220). -/
theorem execPrepare_next {fs hint : Word} {s t : State} (h : execPrepare fs hint s = .next t) :
    t = s ∨ t = { s with fs := fs, hint := hint, prepared := true,
                         chain := s.chain.clear.design s.par fs } := by
  cases ha : rateAccepted fs with
  | true => cases (execPrepare_accepted ha hint s).symm.trans h; exact .inr rfl
  | false => cases (execPrepare_rejected ha hint s).symm.trans h; exact .inl rfl

/-- SETCUTOFF does nothing or writes the low-pass stage (R169). -/
theorem execSetCutoff_next {hz : Word} {s t : State} (h : execSetCutoff hz s = .next t) :
    t = s ∨ t = { s with chain := { s.chain with lp := s.retuned hz } } := by
  cases ha : cutoffAccepted hz with
  | true => cases (execSetCutoff_accepted ha s).symm.trans h; exact .inr rfl
  | false => cases (execSetCutoff_rejected ha s).symm.trans h; exact .inl rfl

/-! ### What a command but RENDER leaves unchanged -/

/-- What the command `i` leaves of the record of oscillator `k`. -/
structure OscFrame (i : Instr) (k : OscId) (o u : Osc) : Prop where
  kind    : u.kind = o.kind
  current : u.current = o.current
  target  : u.target = o.target ∨ ∃ l, i = .setlevel k l
  freq    : u.freq = o.freq ∨ (∃ f, i = .setfreq k f) ∨ (k ≠ .noise ∧ ∃ f v, i = .noteon f v)

theorem OscFrame.refl (i : Instr) (k : OscId) (o : Osc) : OscFrame i k o o := ⟨rfl, rfl, .inl rfl, .inl rfl⟩

/-- What the command `i` leaves of the filters and of the rate they are designed for. -/
structure ChainFrame (i : Instr) (s t : State) : Prop where
  lp       : t.chain.lp = s.chain.lp ∨ (∃ fs h, i = .prepare fs h) ∨ ∃ hz, i = .setcutoff hz
  hp       : t.chain.hp = s.chain.hp ∨ ∃ fs h, i = .prepare fs h
  hpCutoff : t.chain.hp.cutoff = s.chain.hp.cutoff
  lpCutoff : t.chain.lp.cutoff = s.chain.lp.cutoff ∨ ∃ hz, i = .setcutoff hz
  rate     : (t.fs = s.fs ∧ t.hint = s.hint) ∨ ∃ fs h, i = .prepare fs h

theorem ChainFrame.of_eq (i : Instr) {s t : State} (hc : t.chain = s.chain) (hf : t.fs = s.fs)
    (hh : t.hint = s.hint) : ChainFrame i s t := by
  refine ⟨.inl ?_, .inl ?_, ?_, .inl ?_, .inl ⟨hf, hh⟩⟩ <;> rw [hc]

section Frame

variable {i : Instr} {s t : State} (h : exec i s = .next t) (hr : ∀ n c, i ≠ .render n c)
include h hr

theorem exec_oscFrame (k : OscId) : OscFrame i k (s.bank.get k) (t.bank.get k) := by
  cases i with
  | nop | noteoff | setmode => cases h; exact .refl _ _ _
  | prepare fs hint => obtain rfl | rfl := execPrepare_next h <;> exact .refl _ _ _
  | setcutoff hz => obtain rfl | rfl := execSetCutoff_next h <;> exact .refl _ _ _
  | noteon f v =>
    cases h
    have hset (o : Osc) (g : Word) (hk : k ≠ .noise) : OscFrame (.noteon f v) k o (o.setFrequency g) :=
      ⟨by simp, by simp, .inl (by simp), .inr (.inr ⟨hk, f, v, rfl⟩)⟩
    cases k with
    | main => exact hset _ _ (by decide)
    | sub => exact hset _ _ (by decide)
    | noise => exact .refl _ _ _
  | setlevel j l =>
    cases h
    by_cases hk : k = j
    · subst hk
      rw [Bank.get_set_same]
      exact ⟨by simp, by simp, .inr ⟨l, rfl⟩, .inl (by simp)⟩
    · rw [Bank.get_set_other _ _ hk]
      exact .refl _ _ _
  | setfreq j f =>
    cases h
    by_cases hk : k = j
    · subst hk
      rw [Bank.get_set_same]
      exact ⟨by simp, by simp, .inl (by simp), .inr (.inl ⟨f, rfl⟩)⟩
    · rw [Bank.get_set_other _ _ hk]
      exact .refl _ _ _
  | render n c => exact absurd rfl (hr n c)

theorem exec_chainFrame : ChainFrame i s t := by
  cases i with
  | nop | noteon | noteoff | setlevel | setfreq | setmode => cases h; exact .of_eq _ rfl rfl rfl
  | prepare fs hint =>
    obtain rfl | rfl := execPrepare_next h
    · exact .of_eq _ rfl rfl rfl
    · have hi : ∃ f g, Instr.prepare fs hint = .prepare f g := ⟨fs, hint, rfl⟩
      exact ⟨.inr (.inl hi), .inr hi, rfl, .inl rfl, .inr hi⟩
  | setcutoff hz =>
    obtain rfl | rfl := execSetCutoff_next h
    · exact .of_eq _ rfl rfl rfl
    · exact ⟨.inr (.inr ⟨hz, rfl⟩), .inl rfl, rfl, .inr ⟨hz, rfl⟩, .inl ⟨rfl, rfl⟩⟩
  | render n c => exact absurd rfl (hr n c)

/-- No command but RENDER writes OUTBUF or uses a free value, and only NOTEON writes the note frequency. -/
theorem exec_outbuf_note : t.outbuf = s.outbuf ∧ t.freeIdx = s.freeIdx ∧
    (t.noteFreq = s.noteFreq ∨ ∃ f v, i = .noteon f v) := by
  cases i with
  | nop | noteoff | setlevel | setfreq | setmode => cases h; exact ⟨rfl, rfl, .inl rfl⟩
  | noteon f v => cases h; exact ⟨rfl, rfl, .inr ⟨f, v, rfl⟩⟩
  | prepare fs hint => obtain rfl | rfl := execPrepare_next h <;> exact ⟨rfl, rfl, .inl rfl⟩
  | setcutoff hz => obtain rfl | rfl := execSetCutoff_next h <;> exact ⟨rfl, rfl, .inl rfl⟩
  | render n c => exact absurd rfl (hr n c)

end Frame

/-- Settles O30, from the frames of the oscillators, of the filters and of the rest. -/
theorem parameterCommandsFrame : Obligations.ParameterCommandsFrame := by
  intro i s t h hr
  have hosc := exec_oscFrame h hr
  obtain ⟨hlp, hhp, hhpc, hlpc, hrate⟩ := exec_chainFrame h hr
  obtain ⟨hout, hfree, hnote⟩ := exec_outbuf_note h hr
  exact ⟨fun a => by rw [hout], SameOutside.of_exec h, hfree, fun k => ⟨(hosc k).kind, (hosc k).current⟩,
    fun k => (hosc k).target, fun k => (hosc k).freq, hlp, hhp, hhpc, hlpc, hrate, hnote⟩

end Sys2Proof.Machine
end

section
/-! SUPPORT. One filter stage and its commands (spec/41_filter.md R160 to R169): processSample, SETCUTOFF, and the
reference design where sine and cosine are equal. -/

namespace Sys2Proof.Machine

/-- Settles O42: the model's `Stage.process` is written in R161's own order. -/
theorem processSampleIsTheDifferenceEquation : Obligations.ProcessSampleIsTheDifferenceEquation :=
  fun _ _ _ => rfl

/-! ### SETCUTOFF -/

theorem cutoffAccepted_iff {fc : Word} :
    cutoffAccepted fc = true ↔ F32.le F32.sixteen fc = true ∧ F32.le fc F32.twentyThousand = true := by
  simp [cutoffAccepted, F32.inRange]

theorem retuned_prepared {s : State} (h : s.prepared = true) (fc : Word) :
    s.retuned fc = Stage.design s.par .lowpass s.fs { s.chain.lp with cutoff := fc } := if_pos h

theorem retuned_unprepared {s : State} (h : s.prepared = false) (fc : Word) :
    s.retuned fc = { s.chain.lp with cutoff := fc } := if_neg (by simp [h])

/-- Settles O21: an accepted cutoff stores the retuned low-pass, by the two cases of `prepared`. -/
theorem setCutoffStoresAndRedesignsTheLowPass : Obligations.SetCutoffStoresAndRedesignsTheLowPass := by
  refine ⟨decode_cmdWord 0#2 0x06#8, fun fc s => ⟨fun hok hp => ?_, fun hok hp => ?_, fun hok => ?_⟩⟩
  · exact (execSetCutoff_accepted (cutoffAccepted_iff.mpr hok) s).trans (by rw [retuned_prepared hp]; rfl)
  · exact (execSetCutoff_accepted (cutoffAccepted_iff.mpr hok) s).trans (by rw [retuned_unprepared hp])
  · exact execSetCutoff_rejected (Bool.eq_false_iff.mpr fun h => hok (cutoffAccepted_iff.mp h)) s

/-! ### The reference design at a quarter of the rate -/

/-- Inside its domain the reference COEFF_FN is the design, where that has a value (R165, R170). -/
theorem coeffFn_reference {kind : FilterKind} {rate fc : Word} {k : Coeffs}
    (hdom : Reference.inDomain rate fc = true) (h : Reference.design kind rate fc = some k) :
    coeffFn .reference kind rate fc = k := by
  simp [coeffFn, hdom, h]

theorem Reference.design_quarter (kind : FilterKind) {rate fc : Word} (h : 4 * F32.units fc = F32.units rate) :
    Reference.design kind rate fc = Reference.fromSinCos kind 1 1 0 := if_pos h

theorem Reference.fromSinCos_lowpass_equal :
    Reference.fromSinCos .lowpass 1 1 0 = some ⟨0x3F000000#32, 0x3F000000#32, 0x00000000#32⟩ := by
  decide +kernel

theorem Reference.fromSinCos_highpass_equal :
    Reference.fromSinCos .highpass 1 1 0 = some ⟨0x3F000000#32, 0xBF000000#32, 0x00000000#32⟩ := by
  decide +kernel

/-- Settles O53: the design is the one of sine = cosine, whose coefficients are 1/2, 1/2 and 0. -/
theorem referenceDesignAtAQuarterOfTheRate : Obligations.ReferenceDesignAtAQuarterOfTheRate := fun _ _ hdom hq =>
  ⟨coeffFn_reference hdom ((Reference.design_quarter _ hq).trans Reference.fromSinCos_lowpass_equal),
    coeffFn_reference hdom ((Reference.design_quarter _ hq).trans Reference.fromSinCos_highpass_equal)⟩

end Sys2Proof.Machine
end

section
/-! SUPPORT. The oversampled block, two stuffed samples at a time (spec/42_oversampler.md R190 to R194): what is kept
of each pair, and the chain a block leaves under either reset policy. -/

namespace Sys2Proof.Machine

/-! ### A cleared chain -/

theorem ChainSameButDelay.clear_eq {a b : Chain} (h : ChainSameButDelay a b) : b.clear = a.clear := by
  obtain ⟨⟨lc, l0, l1, la⟩, ⟨hc, h0, h1, ha⟩⟩ := h
  simp only [Chain.clear, Stage.clear, lc, l0, l1, la, hc, h0, h1, ha]

/-! ### One mix sample: a step at an even index and one of +0.0 at an odd index -/

/-- The chain after a mix sample and the +0.0 stuffed behind it. -/
def pairState (p : Params) (ch : Chain) (x : Word) : Chain :=
  (clipStep p false (clipStep p true ch x).2 F32.zero).2

/-- The samples that decimation keeps of the loop of R191 over the stuffed samples `xs`, begun at chain `ch`. -/
def keptSamples (p : Params) (ch : Chain) (xs : List Word) : List Word :=
  decimate (clipLoop p true ch (zeroStuff xs)).1

@[simp] theorem keptSamples_nil (p : Params) (ch : Chain) : keptSamples p ch [] = [] := rfl

@[simp] theorem keptSamples_cons (p : Params) (ch : Chain) (x : Word) (xs : List Word) :
    keptSamples p ch (x :: xs) = (clipStep p true ch x).1 :: keptSamples p (pairState p ch x) xs := rfl

theorem clipLoop_zeroStuff_cons (p : Params) (ch : Chain) (x : Word) (xs : List Word) :
    (clipLoop p true ch (zeroStuff (x :: xs))).2 =
      (clipLoop p true (pairState p ch x) (zeroStuff xs)).2 := rfl

/-- Later mix samples do not reach back (R194(a)). -/
theorem take_keptSamples_append (p : Params) (ch : Chain) (xs ys : List Word) :
    (keptSamples p ch (xs ++ ys)).take xs.length = keptSamples p ch xs := by
  induction xs generalizing ch with
  | nil => rfl
  | cons x xs ih => simp [ih]

theorem pairState_sameButDelay (p : Params) (ch : Chain) (x : Word) :
    ChainSameButDelay ch (pairState p ch x) :=
  (clipStep_sameButDelay p true ch x).trans (clipStep_sameButDelay p false _ F32.zero)

/-! ### The two policies' steps (R191) -/

theorem clipStep_perBlock {p : Params} (hp : p.resetPolicy = .perBlock) (even : Bool) (ch : Chain) (x : Word) :
    clipStep p even ch x = (softClip p.nanValue (ch.process p.nanValue x).1, (ch.process p.nanValue x).2) := by
  simp [clipStep, hp]

theorem clipStep_perPair_even {p : Params} (hp : p.resetPolicy = .perPair) (ch : Chain) (x : Word) :
    clipStep p true ch x =
      (softClip p.nanValue (ch.clear.process p.nanValue x).1, (ch.clear.process p.nanValue x).2) := by
  simp [clipStep, hp]

theorem clipStep_perPair_odd {p : Params} (hp : p.resetPolicy = .perPair) (ch : Chain) (x : Word) :
    clipStep p false ch x =
      (softClip p.nanValue (ch.process p.nanValue x).1, (ch.process p.nanValue x).2.snap) := by
  simp [clipStep, hp]

/-! ### The output of a block -/

/-- Under either policy the kept samples are those of a cleared chain: PER_BLOCK clears it before the block, and
PER_PAIR before the first sample (R191). -/
theorem oversampleBlock_output (p : Params) (ch : Chain) (xs : List Word) :
    (oversampleBlock p ch xs).1 = keptSamples p ch.clear xs := by
  cases hp : p.resetPolicy with
  | perBlock => simp only [oversampleBlock, filterAndClip, hp, keptSamples]
  | perPair =>
    have hloop : (oversampleBlock p ch xs).1 = keptSamples p ch xs := by
      simp only [oversampleBlock, filterAndClip, hp, keptSamples]
    have hstep : ∀ x, clipStep p true ch x = clipStep p true ch.clear x := fun x => by
      rw [clipStep_perPair_even hp, clipStep_perPair_even hp, ch.clear_sameButDelay.clear_eq]
    rw [hloop]
    cases xs with
    | nil => rfl
    | cons x xs => rw [keptSamples_cons, keptSamples_cons, pairState, pairState, hstep]

/-- Under PER_BLOCK a pair takes the chain through its two stuffed samples. -/
theorem pairState_perBlock {p : Params} (hp : p.resetPolicy = .perBlock) (ch : Chain) (x : Word) :
    pairState p ch x = ch.through p.nanValue [x, F32.zero] := by
  rw [pairState, clipStep_perBlock hp, clipStep_perBlock hp]
  rfl

/-- Under PER_BLOCK kept sample `i` is the clipped output at X[2i] after X[0] to X[2i-1] (R191, R192). -/
theorem getElem?_keptSamples_perBlock {p : Params} (hp : p.resetPolicy = .perBlock) (ch : Chain)
    {xs : List Word} {i : Nat} {x : Word} (hx : xs[i]? = some x) :
    (keptSamples p ch xs)[i]? = some (softClip p.nanValue
      ((ch.through p.nanValue ((zeroStuff xs).take (2 * i))).process p.nanValue x).1) := by
  induction xs generalizing ch i with
  | nil => simp at hx
  | cons y ys ih =>
    cases i with
    | zero =>
      obtain rfl : y = x := by simpa using hx
      simp [clipStep_perBlock hp]
    | succ i =>
      rw [keptSamples_cons, List.getElem?_cons_succ, ih (pairState p ch y) (by simpa using hx),
        pairState_perBlock hp]
      rfl

/-- Under PER_PAIR kept sample `i` is the clipped output of the cleared chain at mix sample `i` (R191). -/
theorem getElem?_keptSamples_perPair {p : Params} (hp : p.resetPolicy = .perPair) (ch : Chain)
    {xs : List Word} {i : Nat} {x : Word} (hx : xs[i]? = some x) :
    (keptSamples p ch xs)[i]? = some (softClip p.nanValue (ch.clear.process p.nanValue x).1) := by
  induction xs generalizing ch i with
  | nil => simp at hx
  | cons y ys ih =>
    cases i with
    | zero =>
      obtain rfl : y = x := by simpa using hx
      simp [clipStep_perPair_even hp]
    | succ i =>
      rw [keptSamples_cons, List.getElem?_cons_succ, ih (pairState p ch y) (by simpa using hx),
        (pairState_sameButDelay p ch y).clear_eq]

/-! ### The chain a block leaves -/

theorem clipLoop_perBlock {p : Params} (hp : p.resetPolicy = .perBlock) (even : Bool) (ch : Chain)
    (xs : List Word) : (clipLoop p even ch xs).2 = ch.through p.nanValue xs := by
  induction xs generalizing even ch with
  | nil => rfl
  | cons x xs ih => rw [clipLoop, clipStep_perBlock hp, ih, Chain.through_cons]

/-- Under PER_BLOCK a block leaves the cleared chain after its stuffed samples, snapped (R191). -/
theorem oversampleBlock_state_perBlock {p : Params} (hp : p.resetPolicy = .perBlock) (ch : Chain)
    (xs : List Word) :
    (oversampleBlock p ch xs).2 = (ch.clear.through p.nanValue (zeroStuff xs)).snap := by
  simp only [oversampleBlock, filterAndClip, hp, clipLoop_perBlock hp]

/-- Settles O44: the output is that of a cleared chain, and under PER_BLOCK the loop is `Chain.through`. -/
theorem filterStateDoesNotCarryAcrossBlocks : Obligations.FilterStateDoesNotCarryAcrossBlocks := by
  constructor
  · intro p ch ch' xs ys h
    rw [oversampleBlock_output, oversampleBlock_output, oversampleBlock_output, h.clear_eq]
    exact ⟨rfl, take_keptSamples_append p _ xs ys⟩
  · intro p ch xs hp
    refine ⟨length_oversampleBlock p ch xs, fun i x hx => ?_, oversampleBlock_state_perBlock hp ch xs⟩
    rw [oversampleBlock_output]
    exact getElem?_keptSamples_perBlock hp ch.clear hx

/-! ### Snapped delay state (R163) -/

theorem isSubnormal_snapValue (v : Word) : F32.isSubnormal (snapValue v) = false := by
  unfold snapValue
  split
  · decide
  · exact Bool.eq_false_iff.mpr ‹_›

/-- What a block leaves: a snapped chain whose low-pass took +0.0 last (R190, R191). -/
def Settled (ch : Chain) : Prop := ∃ c : Chain, ch = c.snap ∧ c.lp.x1 = F32.zero

theorem through_zeroStuff_lp_x1 (nan : Word) {ch : Chain} (h : ch.lp.x1 = F32.zero) (xs : List Word) :
    (ch.through nan (zeroStuff xs)).lp.x1 = F32.zero := by
  induction xs generalizing ch with
  | nil => exact h
  | cons x xs ih =>
    rw [zeroStuff, Chain.through_cons, Chain.through_cons]
    exact ih rfl

theorem settled_pairState {p : Params} (hp : p.resetPolicy = .perPair) (ch : Chain) (x : Word) :
    Settled (pairState p ch x) := by
  rw [pairState, clipStep_perPair_odd hp]
  exact ⟨_, rfl, rfl⟩

theorem Settled.clipLoop_perPair {p : Params} (hp : p.resetPolicy = .perPair) {ch : Chain} (h : Settled ch)
    (xs : List Word) : Settled (clipLoop p true ch (zeroStuff xs)).2 := by
  induction xs generalizing ch with
  | nil => exact h
  | cons x xs ih =>
    rw [clipLoop_zeroStuff_cons]
    exact ih (settled_pairState hp ch x)

theorem settled_oversampleBlock (p : Params) (ch : Chain) (xs : List Word)
    (h : p.resetPolicy = .perBlock ∨ xs ≠ []) : Settled (oversampleBlock p ch xs).2 := by
  cases hp : p.resetPolicy with
  | perBlock =>
    rw [oversampleBlock_state_perBlock hp]
    exact ⟨_, rfl, through_zeroStuff_lp_x1 p.nanValue rfl xs⟩
  | perPair =>
    obtain ⟨x, xs, rfl⟩ := List.exists_cons_of_ne_nil (h.resolve_left (by simp [hp]))
    simp only [oversampleBlock, filterAndClip, hp, clipLoop_zeroStuff_cons]
    exact (settled_pairState hp ch x).clipLoop_perPair hp xs

/-- Settles O46: what a block leaves is a snapped chain, and the snap of +0.0 is +0.0. -/
theorem delayStateIsSnappedAfterABlock : Obligations.DelayStateIsSnappedAfterABlock := by
  intro p ch xs h
  obtain ⟨c, hc, hx1⟩ := settled_oversampleBlock p ch xs h
  rw [hc]
  refine ⟨isSubnormal_snapValue _, isSubnormal_snapValue _, isSubnormal_snapValue _, isSubnormal_snapValue _, ?_⟩
  exact (congrArg snapValue hx1).trans (by decide)

end Sys2Proof.Machine
end

section
/-! SUPPORT. The pure gain of PER_PAIR (spec/42_oversampler.md R194(b)): a product with +0.0 is a zero, and a zero
added to or taken from a nonzero value leaves it as it is. -/

namespace Sys2Proof.F32

theorem isFinite_of_isZero {z : Word} (hz : isZero z = true) : isFinite z = true := by
  simp only [isZero, isFinite, decide_eq_true_eq] at hz ⊢
  rw [hz]
  decide

theorem val_eq_zero_iff {w : Word} : val w = 0 ↔ isZero w = true := by
  have hunits : units w = 0 ↔ mag w = 0 := magUnits_strictMono.injective.eq_iff (b := 0)
  rw [← Int.natAbs_eq_zero, natAbs_val, hunits, isZero, decide_eq_true_eq]

theorem isZero_mul_zero (nan : Word) {a : Word} (ha : isFinite a = true) : isZero (mul nan a zero) = true := by
  have hround : roundMag 0 (2 ^ 149) = 0 := by decide +kernel
  have hunits : units zero = 0 := by decide
  rw [mul_of_finite nan ha (by decide), hunits, Nat.mul_zero, isZero, mag_rne, hround]
  rfl

/-- A product that is a NaN is NAN_VALUE (R12). -/
theorem mul_eq_nan {nan a b : Word} (h : isNaN (mul nan a b) = true) : mul nan a b = nan := by
  revert h
  unfold mul
  split
  · exact fun _ => rfl
  split
  · split
    · exact fun _ => rfl
    · simp [isNaN, infMag]
  · simp

/-- A zero added to a value that is not zero leaves it, whatever it is but a NaN other than NAN_VALUE (R12). -/
theorem add_isZero {nan a z : Word} (ha : isNaN a = true → a = nan) (h0 : isZero a = false)
    (hz : isZero z = true) : add nan a z = a := by
  have hfz := isFinite_of_isZero hz
  rcases finite_or_inf_or_nan a with hf | hi | hn
  · have hval : val a ≠ 0 := fun h => by simp [val_eq_zero_iff.mp h] at h0
    exact add_eq_of_val nan hf hfz hf (by rw [val_eq_zero_iff.mpr hz, Int.add_zero]) hval
  · rw [add_inf_left nan hi (not_nan_of_finite hfz), not_inf_of_finite hfz]
    rfl
  · rw [(operations_of_nan nan (.inl hn)).1, ha hn]

theorem sub_isZero {nan a z : Word} (ha : isNaN a = true → a = nan) (h0 : isZero a = false)
    (hz : isZero z = true) : sub nan a z = a := add_isZero ha h0 (by simpa using hz)

end Sys2Proof.F32

namespace Sys2Proof.Machine

/-- With finite `b1` and `a1` a cleared stage is the gain `b0`, where the product is not zero (R161). -/
theorem Stage.output_clear {nan x : Word} {f : Stage} (hb1 : F32.isFinite f.b1 = true)
    (ha1 : F32.isFinite f.a1 = true) (h0 : F32.isZero (F32.mul nan f.b0 x) = false) :
    f.clear.output nan x = F32.mul nan f.b0 x := by
  have hadd : F32.add nan (F32.mul nan f.b0 x) (F32.mul nan f.b1 F32.zero) = F32.mul nan f.b0 x :=
    F32.add_isZero F32.mul_eq_nan h0 (F32.isZero_mul_zero nan hb1)
  calc f.clear.output nan x
      = F32.sub nan (F32.add nan (F32.mul nan f.b0 x) (F32.mul nan f.b1 F32.zero))
          (F32.mul nan f.a1 F32.zero) := rfl
    _ = F32.sub nan (F32.mul nan f.b0 x) (F32.mul nan f.a1 F32.zero) := by rw [hadd]
    _ = F32.mul nan f.b0 x := F32.sub_isZero F32.mul_eq_nan h0 (F32.isZero_mul_zero nan ha1)

/-- Settles O45: each kept sample goes through two cleared stages. -/
theorem perPairIsAPureGain : Obligations.PerPairIsAPureGain := by
  intro p ch xs i x hp _ hlb1 hla1 hhb1 hha1 hx u v hu hv
  have hlp : ch.clear.lp.output p.nanValue x = u := Stage.output_clear hlb1 hla1 hu
  have hhp : ch.clear.hp.output p.nanValue u = v := Stage.output_clear hhb1 hha1 hv
  have hchain : (ch.clear.process p.nanValue x).1 = v :=
    (congrArg (ch.clear.hp.output p.nanValue) hlp).trans hhp
  rw [oversampleBlock_output, getElem?_keptSamples_perPair hp _ hx, ch.clear_sameButDelay.clear_eq, hchain]

end Sys2Proof.Machine
end

section
/-! SUPPORT. Zero-stuffing and decimation by index (spec/42_oversampler.md R190, R192). -/

namespace Sys2Proof.Machine

theorem getElem?_zeroStuff_even (xs : List Word) (i : Nat) : (zeroStuff xs)[2 * i]? = xs[i]? := by
  induction xs generalizing i with
  | nil => rfl
  | cons x xs ih =>
    cases i with
    | zero => rfl
    | succ i => exact ih i

theorem getElem?_zeroStuff_odd {xs : List Word} {i : Nat} (h : i < xs.length) :
    (zeroStuff xs)[2 * i + 1]? = some F32.zero := by
  induction xs generalizing i with
  | nil => exact absurd h (Nat.not_lt_zero i)
  | cons x xs ih =>
    cases i with
    | zero => rfl
    | succ i => exact ih (Nat.lt_of_succ_lt_succ h)

theorem getElem?_decimate (zs : List Word) (i : Nat) : (decimate zs)[i]? = zs[2 * i]? := by
  induction zs using decimate.induct generalizing i with
  | case1 => rfl
  | case2 z => cases i <;> rfl
  | case3 z y rest ih =>
    cases i with
    | zero => rfl
    | succ i => exact ih i

/-- Settles O43: stuffing and decimation both go two places of the buffer for one of the block. -/
theorem evenIndicesHoldTheSamples : Obligations.EvenIndicesHoldTheSamples :=
  ⟨fun xs => ⟨length_zeroStuff xs, fun i h => ⟨getElem?_zeroStuff_even xs i, getElem?_zeroStuff_odd h⟩⟩,
    getElem?_decimate⟩

end Sys2Proof.Machine
end

section
/-! SUPPORT. The clipper as a function of the magnitude pattern (spec/43_softclipper.md R210 to R213): every
operation of the cubic branch keeps the input's sign, and every one is monotone in its operands' magnitudes. -/

namespace Sys2Proof.F32

@[simp] theorem neg_pack {s : Bool} {m : Nat} (h : m < 2 ^ 31) : neg (pack s m) = pack (!s) m :=
  ext_word (by rw [sign_neg, sign_pack h, sign_pack h]) (by rw [mag_neg, mag_pack h, mag_pack h])

theorem key_pack {s : Bool} {m : Nat} (h : m < 2 ^ 31) : key (pack s m) = if s then -(m : Int) else m := by
  rw [key, sign_pack h, mag_pack h]

theorem isNaN_pack {s : Bool} {m : Nat} (h : m ≤ infMag) : isNaN (pack s m) = false := by
  rw [isNaN, mag_pack (h.trans_lt (by decide)), decide_eq_false_iff_not]
  exact Nat.not_lt.mpr h

/-- A sum of two values of one sign is the rounded sum of their magnitudes with that sign, a zero included (R12). -/
theorem add_of_sign_eq {a b : Word} (nan : Word) (ha : isFinite a = true) (hb : isFinite b = true)
    (hs : sign b = sign a) : add nan a b = rne (sign a) (units a + units b) 1 := by
  rw [add_of_finite nan ha hb, val, val, hs]
  by_cases h0 : units a + units b = 0
  · obtain ⟨hua, hub⟩ := Nat.add_eq_zero_iff.mp h0
    have hzero : rne (sign a) 0 1 = pack (sign a) 0 := rfl
    rw [hua, hub, hzero]
    simp
  · cases sign a with
    | false =>
      have hpos : ¬ (units a + units b : Int) < 0 := by omega
      have hne : ¬ (units a + units b : Int) = 0 := by omega
      have habs : (units a + units b : Int).natAbs = units a + units b := by omega
      simp [hpos, hne, habs]
    | true =>
      have hneg : (-units a + -units b : Int) < 0 := by omega
      have habs : (-units a + -units b : Int).natAbs = units a + units b := by omega
      simp [hneg, hneg.ne, habs]

end Sys2Proof.F32

namespace Sys2Proof.Machine

/-! ### The cubic branch -/

/-- The magnitude pattern of `RNE(RNE(RNE(x*x)*x) / 3)` for an `x` of pattern `m` (R210). -/
def thirdCubeMag (m : Nat) : Nat :=
  let square := F32.roundMag (F32.magUnits m * F32.magUnits m) (2 ^ 149)
  let cube := F32.roundMag (F32.magUnits square * F32.magUnits m) (2 ^ 149)
  F32.roundMag (F32.magUnits cube * 2 ^ 149) (F32.units F32.three)

/-- The magnitude pattern of the cubic branch's output for an `x` of pattern `m` (R210). -/
def cubicMag (m : Nat) : Nat := F32.roundMag (F32.magUnits m + F32.magUnits (thirdCubeMag m)) 1

theorem isFinite_of_mag_le_one {x : Word} (h : F32.mag x ≤ F32.mag F32.one) : F32.isFinite x = true :=
  F32.isFinite_of_mag_le (b := F32.one) (by decide) h

theorem units_three_pos : 0 < F32.units F32.three := by decide +kernel

theorem thirdCubeMag_mono {m m' : Nat} (h : m ≤ m') : thirdCubeMag m ≤ thirdCubeMag m' := by
  have hunits : F32.magUnits m ≤ F32.magUnits m' := F32.magUnits_strictMono.monotone h
  have hround : ∀ {n n' d : Nat}, 0 < d → n ≤ n' →
      F32.magUnits (F32.roundMag n d) ≤ F32.magUnits (F32.roundMag n' d) := fun {_ _ d} hd h =>
    F32.magUnits_strictMono.monotone (F32.roundMag_mono hd hd (Nat.mul_le_mul_right d h))
  have hsquare := hround (Nat.two_pow_pos 149) (Nat.mul_le_mul hunits hunits)
  have hcube := hround (Nat.two_pow_pos 149) (Nat.mul_le_mul hsquare hunits)
  exact F32.roundMag_mono units_three_pos units_three_pos
    (Nat.mul_le_mul_right _ (Nat.mul_le_mul_right _ hcube))

theorem cubicMag_mono {m m' : Nat} (h : m ≤ m') : cubicMag m ≤ cubicMag m' :=
  F32.roundMag_mono Nat.one_pos Nat.one_pos (Nat.mul_le_mul_right 1
    (Nat.add_le_add (F32.magUnits_strictMono.monotone h)
      (F32.magUnits_strictMono.monotone (thirdCubeMag_mono h))))

/-- The cube of a subnormal underflows, so the cubic branch passes it, or a zero, through (R213). -/
theorem cubicMag_subnormal {m : Nat} (h : m < 2 ^ 23) : cubicMag m = m := by
  have hthird : thirdCubeMag m = 0 :=
    Nat.le_zero.mp ((thirdCubeMag_mono (Nat.le_of_lt h)).trans (by decide +kernel))
  rw [cubicMag, hthird]
  exact F32.roundMag_exact (h.le.trans (by decide))

/-- A product of two values in [-1, 1] lies there too (R12). -/
theorem mag_mul_le_one (nan : Word) {a b : Word} (ha : F32.mag a ≤ F32.mag F32.one)
    (hb : F32.mag b ≤ F32.mag F32.one) : F32.mag (F32.mul nan a b) ≤ F32.mag F32.one := by
  have hone : F32.units F32.one = 2 ^ 149 := by decide +kernel
  refine F32.mag_mul_le nan (isFinite_of_mag_le_one ha) (isFinite_of_mag_le_one hb) (by decide) ?_
  rw [← hone]
  exact Nat.mul_le_mul (F32.units_le_of_mag_le ha) (F32.units_le_of_mag_le hb)

/-- In [-1, 1] a third of the cube is computed without overflow and has the sign of `x` (R210). -/
theorem thirdCube_eq (nan : Word) {x : Word} (h : F32.mag x ≤ F32.mag F32.one) :
    F32.div nan (F32.mul nan (F32.mul nan x x) x) F32.three =
      F32.pack (F32.sign x) (thirdCubeMag (F32.mag x)) := by
  have hsquare := mag_mul_le_one nan h h
  have hx := isFinite_of_mag_le_one h
  have hthree : F32.sign F32.three = false := by decide
  rw [F32.div_of_finite nan (isFinite_of_mag_le_one (mag_mul_le_one nan hsquare h)) (by decide),
    if_neg (by decide), F32.mul_of_finite nan (isFinite_of_mag_le_one hsquare) hx, F32.mul_of_finite nan hx hx]
  simp only [F32.units, F32.sign_rne, F32.mag_rne, hthree, bne_self_eq_false, Bool.false_bne, Bool.bne_false]
  rfl

/-- In [-1, 1] the cubic branch keeps the sign of `x` (R210, R212). -/
theorem cubic_eq (nan : Word) {x : Word} (h : F32.mag x ≤ F32.mag F32.one) :
    cubic nan x = F32.pack (F32.sign x) (cubicMag (F32.mag x)) := by
  have hthird : thirdCubeMag (F32.mag x) < F32.infMag := (thirdCubeMag_mono h).trans_lt (by decide +kernel)
  have hlt : thirdCubeMag (F32.mag x) < 2 ^ 31 := hthird.trans (by decide)
  calc cubic nan x = F32.add nan x (F32.pack (F32.sign x) (thirdCubeMag (F32.mag x))) := by
        rw [← thirdCube_eq nan h]; rfl
    _ = F32.rne (F32.sign x) (F32.units x + F32.units (F32.pack (F32.sign x) (thirdCubeMag (F32.mag x)))) 1 :=
        F32.add_of_sign_eq nan (isFinite_of_mag_le_one h) (F32.isFinite_pack _ hthird) (F32.sign_pack hlt)
    _ = F32.pack (F32.sign x) (cubicMag (F32.mag x)) := by
        rw [F32.rne, F32.units, F32.units, F32.mag_pack hlt, cubicMag]

/-! ### The three branches -/

theorem softClip_above (nan : Word) {x : Word} (h : F32.lt F32.one x = true) : softClip nan x = twoThirds :=
  if_pos h

theorem softClip_below (nan : Word) {x : Word} (h : F32.lt x (F32.neg F32.one) = true) :
    softClip nan x = F32.neg twoThirds := by
  have habove : ¬ F32.lt F32.one x = true := by
    intro h'
    have hlow : F32.key x < F32.key (F32.neg F32.one) := (F32.lt_iff.mp h).2.2
    have hhigh : F32.key F32.one < F32.key x := (F32.lt_iff.mp h').2.2
    have hone : F32.key (F32.neg F32.one) < F32.key F32.one := by decide
    omega
  rw [softClip, if_neg habove, if_pos h]

theorem softClip_cubic (nan : Word) {x : Word} (h : F32.lt F32.one x = false)
    (h' : F32.lt x (F32.neg F32.one) = false) : softClip nan x = cubic nan x := by
  rw [softClip, h, h']
  rfl

/-- Settles O47, one lemma for each branch. -/
theorem softClipBranches : Obligations.SoftClipBranches := fun nan _ =>
  ⟨softClip_above nan, softClip_below nan, softClip_cubic nan⟩

/-- The magnitude pattern of the clipper's output for an input of pattern `m` that is no NaN (R210). -/
def clipMag (m : Nat) : Nat := if m ≤ F32.mag F32.one then cubicMag m else F32.mag twoThirds

/-- The clipper keeps the sign, and its magnitude is a function of the input's magnitude (R210, R212). -/
theorem softClip_eq (nan : Word) {x : Word} (hx : F32.isNaN x = false) :
    softClip nan x = F32.pack (F32.sign x) (clipMag (F32.mag x)) := by
  have hone : F32.key F32.one = F32.mag F32.one := by decide
  have hlow : F32.key (F32.neg F32.one) = -(F32.mag F32.one : Int) := by decide
  have habove : F32.lt F32.one x = true ↔ (F32.mag F32.one : Int) < F32.key x := by
    simp [F32.lt_iff, hx, hone, show F32.isNaN F32.one = false by decide]
  have hbelow : F32.lt x (F32.neg F32.one) = true ↔ F32.key x < -(F32.mag F32.one : Int) := by
    simp [F32.lt_iff, hx, hlow, show F32.isNaN F32.one = false by decide]
  rw [F32.key] at habove hbelow
  unfold clipMag
  by_cases hin : F32.mag x ≤ F32.mag F32.one
  · have hna : F32.lt F32.one x = false := by
      rw [Bool.eq_false_iff, Ne, habove]
      split <;> omega
    have hnb : F32.lt x (F32.neg F32.one) = false := by
      rw [Bool.eq_false_iff, Ne, hbelow]
      split <;> omega
    rw [softClip_cubic nan hna hnb, cubic_eq nan hin, if_pos hin]
  · rw [if_neg hin]
    cases hs : F32.sign x with
    | false =>
      rw [softClip_above nan (habove.mpr (by simpa [hs] using hin))]
      decide
    | true =>
      rw [softClip_below nan (hbelow.mpr (by simpa [hs] using hin))]
      decide

/-! ### Special inputs and range -/

/-- A NaN fails both comparisons and goes through the cubic branch (R213). -/
theorem softClip_nan (nan : Word) {x : Word} (h : F32.isNaN x = true) : softClip nan x = nan := by
  rw [softClip_cubic nan (by simp [F32.lt, h]) (by simp [F32.lt, h])]
  exact (F32.operations_of_nan nan (.inl h)).1

theorem softClip_subnormal (nan : Word) {x : Word} (h : F32.isSubnormal x = true) : softClip nan x = x := by
  simp only [F32.isSubnormal, Bool.and_eq_true, decide_eq_true_eq] at h
  obtain ⟨-, hsub⟩ := h
  have hin : F32.mag x ≤ F32.mag F32.one := hsub.le.trans (by decide)
  rw [softClip_eq nan (F32.not_nan_of_finite (isFinite_of_mag_le_one hin)), clipMag, if_pos hin,
    cubicMag_subnormal hsub, F32.pack_sign_mag]

/-- Settles O48: at a word that is no NaN the output is a closed computation on the magnitude pattern. -/
theorem softClipSpecialInputs : Obligations.SoftClipSpecialInputs := by
  refine ⟨fun nan => ⟨?_, ?_, ?_, ?_⟩, fun nan => ⟨?_, ?_, ?_, ?_, fun _ => softClip_nan nan,
    fun _ => softClip_subnormal nan⟩⟩
  all_goals
    rw [softClip_eq nan (by decide)]
    decide +kernel

/-- No output is larger in magnitude than 4/3, the output at 1 (R212). -/
theorem clipMag_le (m : Nat) : clipMag m ≤ 0x3FAAAAAB := by
  unfold clipMag
  split
  · next h => exact (cubicMag_mono h).trans (by decide +kernel)
  · decide

theorem clipMag_lt (m : Nat) : clipMag m < 2 ^ 31 := (clipMag_le m).trans_lt (by decide)

theorem isNaN_softClip (nan : Word) {x : Word} (hx : F32.isNaN x = false) : F32.isNaN (softClip nan x) = false := by
  rw [softClip_eq nan hx]
  exact F32.isNaN_pack ((clipMag_le _).trans (by decide))

theorem softClip_neg (nan : Word) {x : Word} (hx : F32.isNaN x = false) :
    softClip nan (F32.neg x) = F32.neg (softClip nan x) := by
  rw [softClip_eq nan hx, softClip_eq nan (by simpa using hx), F32.sign_neg, F32.mag_neg,
    F32.neg_pack (clipMag_lt _)]

theorem key_softClip (nan : Word) {x : Word} (hx : F32.isNaN x = false) :
    F32.key (softClip nan x) = if F32.sign x then -(clipMag (F32.mag x) : Int) else clipMag (F32.mag x) := by
  rw [softClip_eq nan hx, F32.key_pack (clipMag_lt _)]

theorem softClip_bounded (nan : Word) {x : Word} (hx : F32.isNaN x = false) :
    F32.le 0xBFAAAAAB#32 (softClip nan x) = true ∧ F32.le (softClip nan x) 0x3FAAAAAB#32 = true := by
  have hout := isNaN_softClip nan hx
  have hkey := key_softClip nan hx
  have hbound := clipMag_le (F32.mag x)
  have hlow : F32.key 0xBFAAAAAB#32 = -0x3FAAAAAB := by decide
  have hhigh : F32.key 0x3FAAAAAB#32 = 0x3FAAAAAB := by decide
  rw [F32.le_iff, F32.le_iff, hlow, hhigh]
  refine ⟨⟨by decide, hout, ?_⟩, hout, by decide, ?_⟩
  · split at hkey <;> omega
  · split at hkey <;> omega

/-- Up to 1 the output's magnitude rises with the input's (R212). -/
theorem clipMag_mono {m m' : Nat} (h : m ≤ m') (hin : m' ≤ F32.mag F32.one) : clipMag m ≤ clipMag m' := by
  rw [clipMag, clipMag, if_pos (h.trans hin), if_pos hin]
  exact cubicMag_mono h

theorem mag_le_one_of_le {x : Word} (hlo : F32.le 0xBF800000#32 x = true) (hhi : F32.le x 0x3F800000#32 = true) :
    F32.mag x ≤ F32.mag F32.one := by
  have hlow : F32.key 0xBF800000#32 = -(F32.mag F32.one : Int) := by decide
  have hhigh : F32.key 0x3F800000#32 = F32.mag F32.one := by decide
  have hklo := (F32.le_iff.mp hlo).2.2
  have hkhi := (F32.le_iff.mp hhi).2.2
  have habs := F32.natAbs_key x
  omega

/-- On [-1, 1] the clipper does not fall: of two inputs of one sign the larger magnitude gives the larger output
magnitude, and of unlike signs the outputs' signs decide (R212). -/
theorem softClip_rising (nan : Word) {x y : Word} (hlo : F32.le 0xBF800000#32 x = true)
    (hle : F32.le x y = true) (hhi : F32.le y 0x3F800000#32 = true) :
    F32.le (softClip nan x) (softClip nan y) = true := by
  obtain ⟨hx, hy, hkey⟩ := F32.le_iff.mp hle
  have hmx := mag_le_one_of_le hlo (F32.le_chain hle hhi)
  have hmy := mag_le_one_of_le (F32.le_chain hlo hle) hhi
  refine F32.le_iff.mpr ⟨isNaN_softClip nan hx, isNaN_softClip nan hy, ?_⟩
  rw [key_softClip nan hx, key_softClip nan hy]
  rw [F32.key, F32.key] at hkey
  cases hsx : F32.sign x <;> cases hsy : F32.sign y <;>
    simp only [hsx, hsy, Bool.false_eq_true, if_true, if_false] at hkey ⊢
  · have := clipMag_mono (Int.ofNat_le.mp hkey) hmy
    omega
  · have h0 : clipMag 0 = 0 := by decide +kernel
    have hzx : F32.mag x = 0 := by omega
    have hzy : F32.mag y = 0 := by omega
    rw [hzx, hzy, h0]
    decide
  · omega
  · have := clipMag_mono (m := F32.mag y) (by omega) hmx
    omega

/-- Settles O49, from the sign being kept and the magnitude rising up to 4/3. -/
theorem softClipIsOddBoundedAndRising : Obligations.SoftClipIsOddBoundedAndRising :=
  ⟨fun nan _ => softClip_neg nan, fun nan _ => softClip_bounded nan, fun nan _ _ => softClip_rising nan⟩

end Sys2Proof.Machine
end

section
/-! SUPPORT. The voice commands that write fields of their own (spec/44_voice.md R220 to R225) and the voice state
machine. -/

namespace Sys2Proof.Machine

/-- Settles O15: the word by its fields, and the model's NOP. -/
theorem nopChangesNothing : Obligations.NopChangesNothing :=
  ⟨decode_cmdWord 0#2 0x00#8, fun _ => rfl⟩

theorem rateAccepted_iff {fs : Word} :
    rateAccepted fs = true ↔ F32.isFinite fs = true ∧ F32.lt F32.zero fs = true := by
  simp [rateAccepted]

/-- Settles O16: an accepted rate clears and designs the chain, and any other is rejected. -/
theorem prepareStoresTheRateAndDesignsBothStages : Obligations.PrepareStoresTheRateAndDesignsBothStages := by
  refine ⟨decode_cmdWord 0#2 0x01#8, fun fs hint s => ⟨fun hok => ?_, fun hok => ?_⟩⟩
  · exact execPrepare_accepted (rateAccepted_iff.mpr hok) hint s
  · exact execPrepare_rejected (Bool.eq_false_iff.mpr fun h => hok (rateAccepted_iff.mp h)) hint s

/-- Settles O17: `setFrequency` on the main and on the sub record. -/
theorem noteOnSetsBothFrequenciesAndActive : Obligations.NoteOnSetsBothFrequenciesAndActive := by
  refine ⟨decode_cmdWord 0#2 0x02#8, fun f velocity s => ?_⟩
  have hmain := Osc.setFrequency_eq s.bank.main f
  have hsub := Osc.setFrequency_eq s.bank.sub (subFrequency s.par.nanValue f)
  show execNoteOn f velocity s = _
  rw [execNoteOn, asF32, hmain, hsub]
  rfl

/-- Settles O18: the word by its fields, and the model's NOTEOFF. -/
theorem noteOffClearsActiveOnly : Obligations.NoteOffClearsActiveOnly :=
  ⟨decode_cmdWord 0#2 0x03#8, fun _ _ _ => rfl⟩

/-- The gate bit is the operand's parity (R93, R225). -/
theorem gateBit_eq (w : Word) : gateBit w = decide (w.toNat % 2 = 1) := Nat.testBit_zero w.toNat

/-- Settles O22: bit 0 of the operand is its parity. -/
theorem setModeWritesTheGateOnly : Obligations.SetModeWritesTheGateOnly := by
  refine ⟨decode_cmdWord 0#2 0x08#8, fun w s => ?_⟩
  show execSetMode w s = _
  rw [execSetMode, gateBit_eq]

/-- Settles O31: NOTEON and NOTEOFF by their meanings, the rest by the flags' rule O10. -/
theorem voiceStateMachine : Obligations.VoiceStateMachine := by
  refine ⟨rfl, fun i s => ?_⟩
  obtain ⟨t, he, -⟩ := exec_next i s
  refine ⟨t, he, ?_, ?_, fun hon hoff => ?_⟩
  · rintro ⟨f, v, rfl⟩
    cases he
    rfl
  · rintro ⟨n, v, rfl⟩
    cases he
    rfl
  · obtain ⟨-, hactive, -⟩ := flagsAreWrittenOnlyByTheirCommands i s t he
    rcases hactive with hsame | ⟨f, v, hi⟩ | ⟨n, v, hi⟩
    · exact hsame
    · exact absurd hi (hon f v)
    · exact absurd hi (hoff n v)

end Sys2Proof.Machine
end

section
/-! SUPPORT. The mixer's loop by sample (spec/44_voice.md R231, R232): a loop of `n + k` samples is one of `n` and then
one of `k` from the cursor, the oscillators and the count that those left; and what the loop does to a muted
oscillator. -/

namespace Sys2Proof.Machine

/-- The time cursor one sample on (R231). -/
def advance (p : Params) (dt t : Word) : Word := F32.add p.nanValue t dt

/-- The loop of R231 run for `n` samples and then for `k` more. -/
theorem mixLoop_add (p : Params) (dt : Word) (n k : Nat) (t : Word) (b : Bank) (j : Nat) :
    mixLoop p dt (n + k) t b j =
      let m := mixLoop p dt n t b j
      let r := mixLoop p dt k ((advance p dt)^[n] t) m.bank m.next
      ⟨m.samples ++ r.samples, r.bank, r.next⟩ := by
  induction n generalizing t b j with
  | zero => rw [Nat.zero_add]; rfl
  | succ n ih =>
    rw [Nat.succ_add, mixLoop, ih]
    rfl

/-- The cursor at sample `i` of a block (R231). -/
theorem timeAt_eq_iterate (p : Params) (fs : Word) (i : Nat) :
    timeAt p fs i = (advance p (timeStep p fs))^[i] F32.zero := by
  induction i with
  | zero => rfl
  | succ i ih => rw [Function.iterate_succ_apply', ← ih]; rfl

/-- A block after its first `i` samples goes on at the cursor of sample `i` (R231). -/
theorem mixBlock_add (p : Params) (fs : Word) (i k : Nat) (b : Bank) (j : Nat) :
    mixBlock p fs (i + k) b j =
      let m := mixBlock p fs i b j
      let r := mixLoop p (timeStep p fs) k (timeAt p fs i) m.bank m.next
      ⟨m.samples ++ r.samples, r.bank, r.next⟩ := by
  rw [timeAt_eq_iterate]
  exact mixLoop_add p (timeStep p fs) i k F32.zero b j

theorem length_mixBlock (p : Params) (fs : Word) (n : Nat) (b : Bank) (j : Nat) :
    (mixBlock p fs n b j).samples.length = n := length_mixLoop _ _ _ _ _ _

/-- Settles O41: sample `i` is the first one of the loop that goes on after `i` samples. -/
theorem mixSamplesEachOscillatorOnceAtTheCursor : Obligations.MixSamplesEachOscillatorOnceAtTheCursor := by
  intro p fs n b j
  refine ⟨length_mixBlock p fs n b j, fun i hi => ⟨?_, ?_⟩⟩
  · obtain ⟨k, rfl⟩ := Nat.exists_eq_add_of_lt hi
    rw [Nat.add_assoc, mixBlock_add, List.getElem?_append_right (length_mixBlock ..).le, length_mixBlock,
      Nat.sub_self]
    rfl
  · rw [mixBlock_add]
    rfl

/-- The mixer takes no ramp step of a muted oscillator (R123, R124). -/
theorem mixLoop_get_of_muted {k : OscId} {b : Bank} (h : F32.le (b.get k).target 0#32 = true) (p : Params)
    (dt : Word) (n : Nat) (t : Word) (j : Nat) : (mixLoop p dt n t b j).bank.get k = b.get k := by
  induction n generalizing t b j with
  | zero => rfl
  | succ n ih =>
    have hone : (mixLoop p dt 1 t b j).bank.get k = b.get k := by
      cases k <;> exact congrArg Sampled.osc (Osc.sample_silent h p t _)
    rw [Nat.add_comm, mixLoop_add]
    exact (ih (by rwa [hone]) _ _).trans hone

theorem mixBlock_sameButCurrent (p : Params) (fs : Word) (n : Nat) (b : Bank) (j : Nat) (k : OscId) :
    SameButCurrent (b.get k) ((mixBlock p fs n b j).bank.get k) := by
  obtain ⟨hmain, hsub, hnoise⟩ := mixLoop_sameButCurrent p (timeStep p fs) n F32.zero b j
  cases k with
  | main => exact hmain
  | sub => exact hsub
  | noise => exact hnoise

end Sys2Proof.Machine
end

section
/-! SUPPORT. RENDER (spec/44_voice.md R226 to R235): the bytes of a block, what a RENDER of any kind writes to OUTBUF,
and empty blocks. -/

namespace Sys2Proof.Machine

/-! ### The bytes of a block (R63, R234) -/

/-- A byte of a channel's row is in the block. -/
theorem inBlock_of_row {nMax n c k a : Nat} (hk : k < c) (hlo : outAddr nMax k 0 ≤ a)
    (hhi : a < outAddr nMax k 0 + 4 * n) : InBlock nMax n c a := by
  have hword := outAddr_eq nMax k ((a - outAddr nMax k 0) / 4)
  exact ⟨k, hk, (a - outAddr nMax k 0) / 4, by omega, by omega, by omega⟩

/-- A block's write leaves every byte outside the block alone. -/
theorem readByte_writeChannels_of_not_inBlock {nMax : Nat} {m : Memory} (hm : Memory.wf m = true)
    {ys : List Word} {c a : Nat} (ha : ¬ InBlock nMax ys.length c a) :
    Memory.readByte (writeChannels nMax m ys c) a = Memory.readByte m a := by
  refine readByte_writeChannels_outside nMax hm ys c a fun k hk => ?_
  by_contra hin
  exact ha (inBlock_of_row hk (by omega) (by omega))

/-- Samples below N_MAX that share a byte are one sample (R63). -/
theorem outAddr_word_inj {nMax k i l j d : Nat} (hi : i < nMax) (hj : j < nMax)
    (hlo : outAddr nMax l j ≤ outAddr nMax k i + d) (hhi : outAddr nMax k i + d < outAddr nMax l j + 4)
    (hd : d < 4) : k = l ∧ i = j := by
  have hki := outAddr_eq nMax k i
  have hlj := outAddr_eq nMax l j
  rcases Nat.lt_trichotomy k l with h | rfl | h
  · have hpast := outAddr_lt (nMax := nMax) h
    omega
  · exact ⟨rfl, by omega⟩
  · have hpast := outAddr_lt (nMax := nMax) h
    omega

/-- A word past the block's channels or samples has no byte in the block. -/
theorem not_inBlock_of_past {nMax n c k i d : Nat} (hn : n ≤ nMax) (hi : i < nMax) (hpast : c ≤ k ∨ n ≤ i)
    (hd : d < 4) : ¬ InBlock nMax n c (outAddr nMax k i + d) := by
  rintro ⟨l, hl, j, hj, hlo, hhi⟩
  obtain ⟨rfl, rfl⟩ := outAddr_word_inj hi (by omega) hlo hhi hd
  omega

theorem Memory.readWord_congr {m m' : Memory} {a : Nat}
    (h : ∀ d < 4, Memory.readByte m (a + d) = Memory.readByte m' (a + d)) :
    Memory.readWord m a = Memory.readWord m' a := by
  have h0 : Memory.readByte m a = Memory.readByte m' a := h 0 (by decide)
  rw [Memory.readWord, Memory.readWord, h 3 (by decide), h 2 (by decide), h 1 (by decide), h0]

/-! ### What a RENDER writes -/

theorem blockAccepted_of_withinLimits {p : Params} {n c : Word} (h : WithinLimits p n c) :
    blockAccepted p n.toNat c.toNat = true := blockAccepted_iff.mpr h

/-- Settles O23: such a block is not accepted. -/
theorem renderPastTheLimitsChangesNothing : Obligations.RenderPastTheLimitsChangesNothing := fun _ _ _ h =>
  execRender_rejected (Bool.eq_false_iff.mpr fun hb => h (blockAccepted_iff.mp hb))

/-- OUTBUF in `t` is that of `s` with `n` samples, the words `ys`, written to each of the first `c` channels (R234).
-/
structure WritesBlock (s t : State) (ys : List Word) (n c : Nat) : Prop where
  length : ys.length = n
  par    : t.par = s.par
  outbuf : t.outbuf = writeChannels s.par.nMax.toNat s.outbuf ys c

theorem writesBlock_zeroFilled (s : State) (n c : Nat) :
    WritesBlock s (s.zeroFilled n c) (List.replicate n F32.zero) n c :=
  ⟨List.length_replicate, rfl, rfl⟩

theorem writesBlock_rendered (s : State) (n c : Nat) :
    WritesBlock s (s.rendered n c)
      (oversampleBlock s.par s.chain (mixBlock s.par s.fs n s.bank s.freeIdx).samples).1 n c :=
  ⟨(length_oversampleBlock _ _ _).trans (length_mixBlock _ _ _ _ _), rfl, rfl⟩

section Block

variable {s t : State} {ys : List Word} {n c : Nat}

/-- Every channel of the block holds the samples. -/
theorem WritesBlock.out (h : WritesBlock s t ys n c) (hm : Memory.wf s.outbuf = true)
    (hn : n ≤ s.par.nMax.toNat) {k i : Nat} (hk : k < c) (hi : i < n) : ys[i]? = some (t.out k i) := by
  obtain ⟨rfl, hpar, hout⟩ := h
  rw [State.out, hpar, hout, readWord_writeChannels hm hn hk hi, List.getElem?_eq_getElem hi]

theorem WritesBlock.readByte_outside (h : WritesBlock s t ys n c) (hm : Memory.wf s.outbuf = true) {a : Nat}
    (ha : ¬ InBlock s.par.nMax.toNat n c a) : Memory.readByte t.outbuf a = Memory.readByte s.outbuf a := by
  obtain ⟨rfl, -, hout⟩ := h
  rw [hout]
  exact readByte_writeChannels_of_not_inBlock hm ha

/-- Words past the block keep their values. -/
theorem WritesBlock.out_past (h : WritesBlock s t ys n c) (hm : Memory.wf s.outbuf = true)
    (hn : n ≤ s.par.nMax.toNat) {k i : Nat} (hi : i < s.par.nMax.toNat) (hpast : c ≤ k ∨ n ≤ i) :
    t.out k i = s.out k i := by
  rw [State.out, State.out, h.par]
  exact Memory.readWord_congr fun d hd => h.readByte_outside hm (not_inBlock_of_past hn hi hpast hd)

end Block

/-- A block is of zeros or rendered (R226). -/
theorem zeros_or_rendered (s : State) : (s.prepared = false ∨ (s.gate = true ∧ s.active = false)) ∨
    (s.prepared = true ∧ (s.gate = false ∨ s.active = true)) := by
  cases s.prepared <;> cases s.gate <;> cases s.active <;> decide

/-- A RENDER within the limits writes some block (R226, R234). -/
theorem execRender_writesBlock {s : State} {n c : Word} (h : WithinLimits s.par n c) :
    ∃ t ys, execRender n c s = .next t ∧ WritesBlock s t ys n.toNat c.toNat := by
  have hb := blockAccepted_of_withinLimits h
  rcases zeros_or_rendered s with hz | ⟨hp, hg⟩
  · exact ⟨_, _, execRender_zeroFilled hb hz, writesBlock_zeroFilled s _ _⟩
  · exact ⟨_, _, execRender_rendered hb hp hg, writesBlock_rendered s _ _⟩

/-- A RENDER leaves every byte outside its block alone, whatever it does (R227, R234). -/
theorem execRender_outside {n c : Word} {s t : State} (h : execRender n c s = .next t)
    (hm : Memory.wf s.outbuf = true) {a : Nat} (ha : ¬ InBlock s.par.nMax.toNat n.toNat c.toNat a) :
    Memory.readByte t.outbuf a = Memory.readByte s.outbuf a := by
  rcases execRender_cases n c s with hr | ⟨-, hr⟩ | ⟨-, -, hr⟩
  · cases hr.symm.trans h; rfl
  · cases hr.symm.trans h; exact (writesBlock_zeroFilled s _ _).readByte_outside hm ha
  · cases hr.symm.trans h; exact (writesBlock_rendered s _ _).readByte_outside hm ha

/-! ### The kinds of block -/

/-- A block of zeros: +0.0 in each sample it addresses, and nothing else changed (R229, R233). -/
theorem execRender_zeros {n c : Word} {s : State} (hm : Memory.wf s.outbuf = true)
    (h : WithinLimits s.par n c) (hz : s.prepared = false ∨ (s.gate = true ∧ s.active = false)) :
    ∃ t, execRender n c s = .next t ∧ t = { s with outbuf := t.outbuf } ∧
      (∀ k < c.toNat, ∀ i < n.toNat, t.out k i = 0#32) ∧
      (∀ a, ¬ InBlock s.par.nMax.toNat n.toNat c.toNat a →
        Memory.readByte t.outbuf a = Memory.readByte s.outbuf a) :=
  ⟨_, execRender_zeroFilled (blockAccepted_of_withinLimits h) hz, rfl,
    fun _ hk _ hi => readWord_zeroFill hm h.1 hk hi,
    fun _ ha => (writesBlock_zeroFilled s _ _).readByte_outside hm ha⟩

/-- With the gate off RENDER neither reads nor writes the active flag (R229). -/
theorem execRender_gateOff {s : State} (hg : s.gate = false) (n c : Word) (b : Bool) :
    ∃ t, execRender n c s = .next t ∧
      execRender n c { s with active := b } = .next { t with active := b } := by
  cases hb : blockAccepted s.par n.toNat c.toNat with
  | false => exact ⟨_, execRender_rejected hb, execRender_rejected hb⟩
  | true =>
    rcases Bool.eq_false_or_eq_true s.prepared with hp | hp
    · exact ⟨_, execRender_rendered hb hp (.inl hg),
        execRender_rendered (s := { s with active := b }) hb hp (.inl hg)⟩
    · exact ⟨_, execRender_zeroFilled hb (.inl hp),
        execRender_zeroFilled (s := { s with active := b }) hb (.inl hp)⟩

/-- Settles O24: a gated block is one of zeros, and with the gate off no case of RENDER turns on the active flag. -/
theorem gatedRenderWritesZerosOnly : Obligations.GatedRenderWritesZerosOnly :=
  ⟨fun _ _ _ hm h _ hg ha => execRender_zeros hm h (.inr ⟨hg, ha⟩),
    fun n c _ b hg => execRender_gateOff hg n c b⟩

/-- Settles O25: an unprepared block is one of zeros. -/
theorem renderBeforePrepareWritesZerosOnly : Obligations.RenderBeforePrepareWritesZerosOnly :=
  fun _ _ _ hm h hp => execRender_zeros hm h (.inl hp)

/-- Settles O26: the rendered state, whose block is the oversampled mix. -/
theorem renderMixesOversamplesAndWritesTheChannels : Obligations.RenderMixesOversamplesAndWritesTheChannels := by
  intro n c s hm h hp hg mix y
  have hw := writesBlock_rendered s n.toNat c.toNat
  exact ⟨_, execRender_rendered (blockAccepted_of_withinLimits h) hp hg, rfl, hw.length,
    fun _ hk _ hi => hw.out hm h.1 hk hi, fun _ ha => hw.readByte_outside hm ha⟩

/-- Settles O27: each channel of the block holds the same words. -/
theorem channelsReceiveIdenticalCopies : Obligations.ChannelsReceiveIdenticalCopies := by
  intro n c s hm h
  obtain ⟨t, ys, he, hw⟩ := execRender_writesBlock h
  refine ⟨t, he, fun k hk i hi => ?_, fun _ _ hi hpast => hw.out_past hm h.1 hi hpast⟩
  have hk0 : ys[i]? = some (t.out 0 i) := hw.out hm h.1 (Nat.zero_lt_of_lt hk) hi
  exact Option.some.inj ((hw.out hm h.1 hk hi).symm.trans hk0)

/-! ### Empty blocks (R235) -/

/-- Rows of no samples write nothing. -/
theorem writeChannels_nil (nMax : Nat) (m : Memory) (c : Nat) : writeChannels nMax m [] c = m := by
  induction c with
  | zero => rfl
  | succ c ih => exact ih

theorem zeroFilled_empty {s : State} {n c : Nat} (h : n = 0 ∨ c = 0) : s.zeroFilled n c = s := by
  rcases h with rfl | rfl
  · rw [State.zeroFilled, zeroFill, List.replicate_zero, writeChannels_nil]
  · rfl

/-- A rendered block of no samples changes at most the chain. -/
theorem rendered_no_samples (s : State) (c : Nat) :
    s.rendered 0 c = { s with chain := (oversampleBlock s.par s.chain []).2 } := by
  have hout : (oversampleBlock s.par s.chain []).1 = [] := oversampleBlock_output _ _ _
  show { s with chain := (oversampleBlock s.par s.chain []).2,
                outbuf := writeChannels s.par.nMax.toNat s.outbuf (oversampleBlock s.par s.chain []).1 c } = _
  rw [hout, writeChannels_nil]

/-- Under PER_BLOCK a block of no samples leaves the cleared chain, which is snapped already (R163, R191). -/
theorem oversampleBlock_nil_perBlock {p : Params} (hp : p.resetPolicy = .perBlock) (ch : Chain) :
    (oversampleBlock p ch []).2 = ch.clear := by
  have hsnap : snapValue F32.zero = F32.zero := by decide
  rw [oversampleBlock_state_perBlock hp]
  show ch.clear.snap = ch.clear
  simp [Chain.snap, Stage.snap, Chain.clear, Stage.clear, hsnap]

/-- Settles O28: no samples leave OUTBUF and the oscillators, no channels leave OUTBUF. -/
theorem emptyBlocksFollowTheirRule : Obligations.EmptyBlocksFollowTheirRule := by
  intro n c s h
  have hb := blockAccepted_of_withinLimits h
  refine ⟨fun hp hg hn => ?_, fun hp hg hc => ?_, fun hz he => ?_⟩
  · subst hn
    refine ⟨_, (execRender_rendered hb hp hg).trans (congrArg _ (rendered_no_samples s c.toNat)), rfl,
      fun hpol => ?_⟩
    rw [oversampleBlock_nil_perBlock hpol]
    exact ⟨rfl, rfl, rfl, rfl⟩
  · subst hc
    exact ⟨_, execRender_rendered hb hp hg, rfl, rfl, rfl⟩
  · have hempty : n.toNat = 0 ∨ c.toNat = 0 := he.imp (congrArg BitVec.toNat) (congrArg BitVec.toNat)
    exact (execRender_zeroFilled hb hz).trans (congrArg _ (zeroFilled_empty hempty))

/-! ### The frame of RENDER -/

/-- What every RENDER keeps of the fields that a command can write: of an oscillator all but its current level, of a
muted one that too, of the filters all but their delay state, and the rate, the hint and the note frequency. -/
structure RenderKeeps (s t : State) : Prop where
  osc      : ∀ k, SameButCurrent (s.bank.get k) (t.bank.get k)
  muted    : ∀ k, F32.le (s.bank.get k).target 0#32 = true → t.bank.get k = s.bank.get k
  chain    : ChainSameButDelay s.chain t.chain
  fs       : t.fs = s.fs
  hint     : t.hint = s.hint
  noteFreq : t.noteFreq = s.noteFreq

theorem RenderKeeps.refl (s : State) : RenderKeeps s s :=
  ⟨fun _ => .refl _, fun _ _ => rfl, .refl _, rfl, rfl, rfl⟩

theorem renderKeeps_zeroFilled (s : State) (n c : Nat) : RenderKeeps s (s.zeroFilled n c) :=
  { RenderKeeps.refl s with }

theorem renderKeeps_rendered (s : State) (n c : Nat) : RenderKeeps s (s.rendered n c) where
  osc := mixBlock_sameButCurrent s.par s.fs n s.bank s.freeIdx
  muted _ h := mixLoop_get_of_muted h _ _ _ _ _
  chain := oversampleBlock_sameButDelay _ _ _
  fs := rfl
  hint := rfl
  noteFreq := rfl

theorem RenderKeeps.of_execRender {n c : Word} {s t : State} (h : execRender n c s = .next t) :
    RenderKeeps s t := by
  rcases execRender_cases n c s with hr | ⟨-, hr⟩ | ⟨-, -, hr⟩
  · cases hr.symm.trans h; exact .refl s
  · cases hr.symm.trans h; exact renderKeeps_zeroFilled s _ _
  · cases hr.symm.trans h; exact renderKeeps_rendered s _ _

/-- Settles O29, from what RENDER keeps of the fields, of the flags, outside the engine and outside its block. -/
theorem renderFrame : Obligations.RenderFrame := by
  intro n c s t hm h
  obtain ⟨hosc, hmuted, hchain, hfs, hhint, hnote⟩ := RenderKeeps.of_execRender h
  obtain ⟨hprep, hactive, hgate⟩ := SameFlags.of_execRender h
  exact ⟨hosc, hmuted, hchain, SameOutside.of_exec h, hactive, hgate, hprep, hfs, hhint, hnote,
    fun _ ha => execRender_outside h hm ha⟩

end Sys2Proof.Machine
end

section
/-! SUPPORT. The core raises no exception (spec/60_exceptions.md R260, R261): every step answers a next state. -/

namespace Sys2Proof.Machine

/-- Settles O7, by the cases of a step: a legal entry is a command, which answers a next state, and every other case
names its own. -/
theorem everyStepAnswersANextState : Obligations.EveryStepAnswersANextState := by
  intro s
  rcases step_cases s with
    ⟨-, hs⟩ | ⟨-, hs⟩ | ⟨-, -, hs⟩ | ⟨e, rest, i, -, -, -, hs⟩ | ⟨e, rest, r, -, -, -, hs⟩
  · exact ⟨hostStep (useTurn s), hs⟩
  · exact ⟨hardReset (useTurn s), hs⟩
  · exact ⟨useTurn s, hs⟩
  · obtain ⟨t, ht, -⟩ := exec_next i (popped s)
    exact ⟨t, hs.trans ht⟩
  · exact ⟨popped s, hs⟩

end Sys2Proof.Machine
end

section
/-! SUPPORT. The reset input (spec/70_reset_and_hazards.md R280): the step of a pulse, and what it leaves of the
state. -/

namespace Sys2Proof.Machine

theorem step_of_resetInput {s : State} (hm : mover s = .resetInput) :
    step s = .next (hardReset (useTurn s)) := by
  simp [step, hm]

/-- A pulse uses up its turn and keeps nothing else of the state but the parameters and what lies outside the core. -/
theorem hardReset_useTurn (s : State) :
    hardReset (useTurn s) = { State.resetOf s.par with
      freeIdx := s.freeIdx, pending := s.pending, turns := s.turns.tail, rdata := s.rdata } := by
  simp only [hardReset, useTurn_par, useTurn_freeIdx, useTurn_pending, useTurn_turns, useTurn_rdata]

/-- Settles O12, by the step of a pulse and the state it leaves. -/
theorem resetPulseResetsTheCore : Obligations.ResetPulseResetsTheCore := by
  intro s hm
  calc step s
    _ = .next (hardReset (useTurn s)) := step_of_resetInput hm
    _ = _ := congrArg _ (hardReset_useTurn s)

end Sys2Proof.Machine
end
